-- ==== Sys2Proof/Word.lean ====
section
/-! DEFINITION. The block's words: bytes, 32-bit words, binary32 patterns, window offsets, complex pairs. -/

namespace Sys2Proof

/-- A byte of the register window (20_memory.md R50). -/
abbrev Byte := BitVec 8

/-- A 32-bit word: a register, a command word or a slot (10_state.md section 2, 30_encoding.md R60). -/
abbrev Word := BitVec 32

/-- An IEEE 754 binary32 value as its encoding: bit 31 sign, 30:23 exponent, 22:0 fraction (R50). -/
abbrev F32 := BitVec 32

/-- A byte offset of the 64 KiB register window (R46). -/
abbrev Off := BitVec 16

/-- One complex binary32 value of the transforms (00_scope.md R19). -/
structure Cplx where
  re : F32
  im : F32
deriving DecidableEq, Repr, Inhabited

end Sys2Proof
end

