-- ==== Sys2Proof/Syntax.lean ====
section
/-! DEFINITION. The sixteen commands, one constructor per row of spec/opcode_table.json (30_encoding.md R66). -/

namespace Sys2Proof

/-- The window kinds of the WIN field (R64). Codes 3 to 15 are ILLEGAL and have no constructor. -/
inductive Win where
  | blackman
  | hanning
  | hamming
deriving DecidableEq, Repr

/-- A command with its operands (R62): `n` is the tap count N, an integer 0 to 65535; `code` is the mode code CODE, an
integer 0 to 255. The bounds are checked by `Instr.wf`. -/
inductive Instr where
  | nop
  | wsfirLp (win : Win) (n : Nat)
  | wsfirHp (win : Win) (n : Nat)
  | wsfirBp (win : Win) (n : Nat)
  | wsfirBs (win : Win) (n : Nat)
  | kaiserLp (n : Nat)
  | kaiserHp (n : Nat)
  | kaiserBp (n : Nat)
  | kaiserBs (n : Nat)
  | kaiserHilbert (n : Nat)
  | gainQuery
  | gainScale
  | modeSelect (code : Nat)
  | notchOff
  | notchOn
  | process
deriving DecidableEq, Repr

end Sys2Proof
end

