-- ==== Sys2Proof/WellFormed.lean ====
section
/-! DEFINITION. Which commands a command word can hold (30_encoding.md R62). -/

namespace Sys2Proof

/-- The tap count fits w[15:0] (R62). -/
def tapsFit (n : Nat) : Bool := decide (n < 65536)

/-- The mode code fits w[7:0] (R62). -/
def codeFits (c : Nat) : Bool := decide (c < 256)

/-- A command that some word encodes. -/
def Instr.wf : Instr → Bool
  | .nop => true
  | .wsfirLp _ n => tapsFit n
  | .wsfirHp _ n => tapsFit n
  | .wsfirBp _ n => tapsFit n
  | .wsfirBs _ n => tapsFit n
  | .kaiserLp n => tapsFit n
  | .kaiserHp n => tapsFit n
  | .kaiserBp n => tapsFit n
  | .kaiserBs n => tapsFit n
  | .kaiserHilbert n => tapsFit n
  | .gainQuery => true
  | .gainScale => true
  | .modeSelect c => codeFits c
  | .notchOff => true
  | .notchOn => true
  | .process => true

@[simp] theorem tapsFit_iff (n : Nat) : tapsFit n = true ↔ n < 65536 := by simp [tapsFit]
@[simp] theorem codeFits_iff (c : Nat) : codeFits c = true ↔ c < 256 := by simp [codeFits]

end Sys2Proof
end

