-- ==== Sys2Proof/Decode.lean ====
section
/-! DEFINITION. Decoding a command word, total on every word and rejecting by name (30_encoding.md R60 to R68), the
encoder, and the decode table of R66. -/

namespace Sys2Proof

/-- Why a word is ILLEGAL (R67): which kind of reserved encoding it is. -/
inductive Illegal where
  /-- A reserved OP (R63). -/
  | reservedOp
  /-- A reserved TYPE of a known OP (R63, R65). -/
  | reservedType
  /-- A WIN code of 3 to 15 for OP 0x01 (R64). -/
  | reservedWin
  /-- A nonzero bit in a field the format marks 0 (R61). -/
  | nonzeroField
deriving DecidableEq, Repr

/-- OP = w[31:24] (R62). -/
def opField (w : Word) : Nat := w.toNat / 2 ^ 24

/-- TYPE = w[23:20] (R62). -/
def typeField (w : Word) : Nat := w.toNat / 2 ^ 20 % 16

/-- WIN = w[19:16] (R62). -/
def winField (w : Word) : Nat := w.toNat / 2 ^ 16 % 16

/-- N = zext_32(w[15:0]) (R62). -/
def nField (w : Word) : Nat := w.toNat % 2 ^ 16

/-- CODE = zext_32(w[7:0]) (R62). -/
def codeField (w : Word) : Nat := w.toNat % 2 ^ 8

/-- The window a WIN code names (R64). -/
def winOf : Nat → Option Win
  | 0 => some .blackman
  | 1 => some .hanning
  | 2 => some .hamming
  | _ => none

/-- The WIN code of a window (R64). -/
def winCode : Win → Nat
  | .blackman => 0
  | .hanning => 1
  | .hamming => 2

/-- OP 0x01, format D: TYPE selects the family, WIN the window (R63, R64, R65). -/
def decodeWsfir (w : Word) : Except Illegal Instr :=
  match typeField w, winOf (winField w) with
  | 0, some win => .ok (.wsfirLp win (nField w))
  | 1, some win => .ok (.wsfirHp win (nField w))
  | 2, some win => .ok (.wsfirBp win (nField w))
  | 3, some win => .ok (.wsfirBs win (nField w))
  | 0, none | 1, none | 2, none | 3, none => .error .reservedWin
  | _, _ => .error .reservedType

/-- OP 0x02, format D with WIN = 0 (R63, R64, R65). -/
def decodeKaiser (w : Word) : Except Illegal Instr :=
  match typeField w, winField w with
  | 0, 0 => .ok (.kaiserLp (nField w))
  | 1, 0 => .ok (.kaiserHp (nField w))
  | 2, 0 => .ok (.kaiserBp (nField w))
  | 3, 0 => .ok (.kaiserBs (nField w))
  | 4, 0 => .ok (.kaiserHilbert (nField w))
  | 0, _ | 1, _ | 2, _ | 3, _ | 4, _ => .error .nonzeroField
  | _, _ => .error .reservedType

/-- Format S: TYPE selects one of two commands and w[19:0] is zero (R61, R63). -/
def decodeSelector (w : Word) (zero one : Instr) : Except Illegal Instr :=
  match typeField w with
  | 0 => if w.toNat % 2 ^ 20 = 0 then .ok zero else .error .nonzeroField
  | 1 => if w.toNat % 2 ^ 20 = 0 then .ok one else .error .nonzeroField
  | _ => .error .reservedType

/-- Format M: w[23:8] is zero and w[7:0] is CODE (R61); every CODE decodes (R68). -/
def decodeMode (w : Word) : Except Illegal Instr :=
  if w.toNat / 2 ^ 8 % 2 ^ 16 = 0 then .ok (.modeSelect (codeField w)) else .error .nonzeroField

/-- Format Z: w[23:0] is zero (R61). -/
def decodePlain (w : Word) (i : Instr) : Except Illegal Instr :=
  if w.toNat % 2 ^ 24 = 0 then .ok i else .error .nonzeroField

/-- `decode(w)` of R66, by the opcode map of R63. -/
def decode (w : Word) : Except Illegal Instr :=
  match opField w with
  | 0x00 => decodePlain w .nop
  | 0x01 => decodeWsfir w
  | 0x02 => decodeKaiser w
  | 0x03 => decodeSelector w .gainQuery .gainScale
  | 0x08 => decodeMode w
  | 0x09 => decodeSelector w .notchOff .notchOn
  | 0x0A => decodePlain w .process
  | _ => .error .reservedOp

/-- The instruction the decoder reads from a table word of `nbits` bits; commands are one word, bit 0 least
significant (R60), and every bit above `nbits` is zero. -/
def decodeTableWord (nbits w : Nat) : Option Instr :=
  match decode (BitVec.ofNat 32 (w % 2 ^ nbits)) with
  | .ok i => some i
  | .error _ => none

/-- The word of a command, from the match column of R66 and the fields of R62. -/
def encodeNat : Instr → Nat
  | .nop => 0x00000000
  | .wsfirLp win n => 0x01000000 + winCode win * 2 ^ 16 + n
  | .wsfirHp win n => 0x01100000 + winCode win * 2 ^ 16 + n
  | .wsfirBp win n => 0x01200000 + winCode win * 2 ^ 16 + n
  | .wsfirBs win n => 0x01300000 + winCode win * 2 ^ 16 + n
  | .kaiserLp n => 0x02000000 + n
  | .kaiserHp n => 0x02100000 + n
  | .kaiserBp n => 0x02200000 + n
  | .kaiserBs n => 0x02300000 + n
  | .kaiserHilbert n => 0x02400000 + n
  | .gainQuery => 0x03000000
  | .gainScale => 0x03100000
  | .modeSelect c => 0x08000000 + c
  | .notchOff => 0x09000000
  | .notchOn => 0x09100000
  | .process => 0x0A000000

/-- The encoder: the word the host writes to CMD for a command (R69). -/
def encode (i : Instr) : Word := BitVec.ofNat 32 (encodeNat i)

/-- One row of the table of R66: the word matches if `w AND mask = pattern`, and `build` gives the command where the
row's field constraint holds. -/
structure DecodeRow where
  pattern : Word
  mask : Word
  build : Word → Option Instr

/-- The row of a windowed-sinc command: the field constraint is WIN ≤ 2. -/
def wsfirRow (pattern : Word) (mk : Win → Nat → Instr) : DecodeRow :=
  { pattern := pattern, mask := 0xFFF00000, build := fun w => (winOf (winField w)).map fun win => mk win (nField w) }

/-- The row of a Kaiser command. -/
def kaiserRow (pattern : Word) (mk : Nat → Instr) : DecodeRow :=
  { pattern := pattern, mask := 0xFFFF0000, build := fun w => some (mk (nField w)) }

/-- The row of a command whose whole word is fixed. -/
def fixedRow (pattern : Word) (i : Instr) : DecodeRow :=
  { pattern := pattern, mask := 0xFFFFFFFF, build := fun _ => some i }

/-- The table of R66, row by row in its order. -/
def decodeRows : List DecodeRow :=
  [ fixedRow 0x00000000 .nop,
    wsfirRow 0x01000000 .wsfirLp,
    wsfirRow 0x01100000 .wsfirHp,
    wsfirRow 0x01200000 .wsfirBp,
    wsfirRow 0x01300000 .wsfirBs,
    kaiserRow 0x02000000 .kaiserLp,
    kaiserRow 0x02100000 .kaiserHp,
    kaiserRow 0x02200000 .kaiserBp,
    kaiserRow 0x02300000 .kaiserBs,
    kaiserRow 0x02400000 .kaiserHilbert,
    fixedRow 0x03000000 .gainQuery,
    fixedRow 0x03100000 .gainScale,
    { pattern := 0x08000000, mask := 0xFFFFFF00, build := fun w => some (.modeSelect (codeField w)) },
    fixedRow 0x09000000 .notchOff,
    fixedRow 0x09100000 .notchOn,
    fixedRow 0x0A000000 .process ]

/-- The row matches the word and its field constraint holds. -/
def DecodeRow.read (r : DecodeRow) (w : Word) : Option Instr :=
  if w &&& r.mask = r.pattern then r.build w else none

/-- R66 read literally: the first row that matches and whose constraint holds. -/
def decodeByTable (w : Word) : Option Instr :=
  decodeRows.findSome? fun r => r.read w

end Sys2Proof
end

