-- ==== Sys2Proof/Config.lean ====
section
/-! DEFINITION. What an implementation fixes: the OPEN parameters of 00_scope.md R8 to R13 as plain data, and the
configuration functions of R19 and the other open values as opaque constants. The legality of a parameter set and the
stated properties of the functions are in Machine/Params.lean. -/

namespace Sys2Proof

/-- FOLD: how a stereo pair becomes one channel (R13, 48_mode_control.md R129). -/
inductive Fold where
  | left
  | mean
deriving DecidableEq, Repr

/-- OFF_OUTPUT: what the OFF mode does to a block (R13, R132). -/
inductive OffOutput where
  | pass
  | fold
deriving DecidableEq, Repr

/-- The eleven tuning registers (10_state.md R32). All are 32-bit words; LMS_STRENGTH is read as s32, KIM_REF,
ANR_TAPS and ANR_DELAY as u32, the others as f32. -/
structure TuneRegs where
  lmsStrength : Word
  kimK : F32
  kimPsi : F32
  kimRef : Word
  alpha : F32
  beta : F32
  anrTaps : Word
  anrDelay : Word
  anrMu : F32
  anrLidxMin : F32
  anrLidxMax : F32
deriving DecidableEq, Repr

/-- The OPEN parameters. A model takes each as an argument (00_scope.md section 4): every definition below takes this
record, and the machine reads it from `State.cfg`, which no step changes (log 1). Frequencies and times are rational
(log 18). -/
structure Params where
  /-- R8 `B`: samples per block. -/
  blk : Nat
  /-- R8 `FS`: sample rate in Hz. -/
  fs : Rat
  /-- R8 `NMAX`. -/
  nmax : Nat
  /-- R9. -/
  qScale : F32
  gscaleMax : F32
  aMax : F32
  i0Eps : F32
  /-- R10. -/
  lmsTaps : Nat
  sMin : Int
  sMax : Int
  muDb : F32
  epsLms : F32
  /-- R11. -/
  anrDl : Nat
  anrTapsMax : Nat
  anrDelayMax : Nat
  lincr : F32
  ldecr : F32
  leakK : F32
  lidxLo : F32
  lidxHi : F32
  muAMax : F32
  epsAnr : F32
  /-- R12. -/
  fLo : Rat
  fHi : Rat
  kimL : Nat
  kimN : Nat
  kimWarmup : Nat
  kMax : F32
  psiMin : F32
  psiMax : F32
  epsSpec : F32
  mmseWarmup : Nat
  alphaN : F32
  sppThresh : F32
  sppASlow : F32
  sppAFast : F32
  gammaMin : F32
  gammaMax : F32
  xiMin : F32
  xiMax : F32
  gmMin : F32
  gmMax : F32
  mnThresh : F32
  /-- R13. -/
  fold : Fold
  offOutput : OffOutput
  ftz : Bool
  xMax : F32
  fftTol : F32
  tProc : Rat
  /-- R13 `RST_*`: the reset values of the tuning registers. -/
  rst : TuneRegs
  /-- 20_memory.md R46 `WIN_BASE`: where the window sits in the host's map. -/
  winBase : Nat
deriving DecidableEq, Repr

/-- The operation a free NaN pattern belongs to (log 4). -/
inductive NanOp where
  | add
  | sub
  | mul
  | div
  | sqrt
  | min
  | max
deriving DecidableEq, Repr

/-- The configuration functions of R19, and the NaN patterns that R17 leaves open (log 4). -/
structure Fns where
  sinf : F32 → F32
  cosf : F32 → F32
  expf : F32 → F32
  powf : F32 → F32 → F32
  pow10f : F32 → F32
  fft : List Cplx → List Cplx
  ifft : List Cplx → List Cplx
  sppMap : F32 → F32
  mmseGain : F32 → F32 → F32
  mnWidth : F32 → Nat
  nan : NanOp → F32 → F32 → F32

/-- What the arithmetic of the block depends on. -/
structure Env where
  p : Params
  f : Fns

namespace Config

/-! Free functions: no value of them is known to Lean. `Machine/Params.lean` brings each into its stated property; a
function that already has the property is left as it is, so every function R19 allows is covered (log 2). -/

opaque rawSin : F32 → F32
opaque rawCos : F32 → F32
opaque rawExp : F32 → F32
opaque rawPow : F32 → F32 → F32
opaque rawPow10 : F32 → F32
/-- One result of FFT (`inverse` false) or IFFT: some element of the type of the values R19 allows it
(`TransformValue` of Machine/Transform.lean; log 3). -/
opaque rawTransform {α : Type} [Inhabited α] (p : Params) (inverse : Bool) (z : List Cplx) (k : Nat) : α
opaque rawSppMap : F32 → F32
opaque rawMmseGain : F32 → F32 → F32
opaque rawMnWidth : F32 → Nat
opaque rawNan : NanOp → F32 → F32 → F32

/-- The word a host reads from a sample slot that nothing has written since the given reset (10_state.md R34: its
value is unspecified; log 8). First argument: how often reset has been asserted; second: the window offset. -/
opaque unwrittenWord : Nat → Nat → Word

end Config

end Sys2Proof
end

