-- ==== Sys2Proof/Machine/Float.lean ====
section
/-! DEFINITION. The binary32 arithmetic of 00_scope.md R17, R18, R20 and R21 on bit patterns. Every finite binary32
value is an integer number of units of 2^-149; an operation computes the exact result in such units, as an integer or
as a ratio of integers, and `roundBits` narrows it once. -/

namespace Sys2Proof

/-- Bit 31, the sign. -/
def fsign (x : F32) : Bool := decide (2 ^ 31 ≤ x.toNat)

/-- Bits 30:23, the biased exponent. -/
def fexp (x : F32) : Nat := x.toNat / 2 ^ 23 % 256

/-- Bits 22:0, the fraction. -/
def ffrac (x : F32) : Nat := x.toNat % 2 ^ 23

/-- Bits 30:0. -/
def fbits (x : F32) : Nat := x.toNat % 2 ^ 31

def isNaN (x : F32) : Bool := fexp x == 255 && ffrac x != 0

def isInf (x : F32) : Bool := fexp x == 255 && ffrac x == 0

def isFinite (x : F32) : Bool := fexp x != 255

/-- +0.0 or -0.0. -/
def isZero (x : F32) : Bool := fbits x == 0

def isSubnormal (x : F32) : Bool := fexp x == 0 && ffrac x != 0

/-- +0.0. -/
def fzero : F32 := 0x00000000

/-- f32(1). -/
def fone : F32 := 0x3F800000

/-- f32(2). -/
def ftwo : F32 := 0x40000000

/-- f32(0.5). -/
def fhalf : F32 := 0x3F000000

/-- The constant PI32 = f32(π) of R19, as 95_test_vectors.md section 0 gives it (log 23). -/
def pi32 : F32 := 0x40490FDB

/-- The pattern with a sign and magnitude bits. -/
def packF (neg : Bool) (bits : Nat) : F32 := BitVec.ofNat 32 ((if neg then 2 ^ 31 else 0) + bits)

/-- +inf or -inf. -/
def infF (neg : Bool) : F32 := packF neg 0x7F800000

/-- The sign flipped; exact (R17). -/
def fneg (x : F32) : F32 := packF (!fsign x) (fbits x)

/-- The sign cleared; exact (R17). -/
def fabs (x : F32) : F32 := packF false (fbits x)

/-- The magnitude of a finite value in units of 2^-149. -/
def fmag (x : F32) : Nat :=
  if fexp x = 0 then ffrac x else (2 ^ 23 + ffrac x) * 2 ^ (fexp x - 1)

/-- The exact value of a finite pattern in units of 2^-149. -/
def units (x : F32) : Int := if fsign x then -(fmag x : Int) else (fmag x : Int)

/-- The magnitude bits (30:0) of the binary32 value nearest to n/d units, ties to even (R17); a result past the
largest finite value is the infinity pattern. A kept step of 2^sh units has the biased exponent sh + 1. -/
def roundBits (n d : Nat) : Nat :=
  let sh := Nat.log2 (n / d) - 23
  let u := d * 2 ^ sh
  let m := n / u
  let r := n % u
  let m' := if u < 2 * r ∨ (2 * r = u ∧ m % 2 = 1) then m + 1 else m
  min (sh * 2 ^ 23 + m') 0x7F800000

/-- R13 FTZ on a result: subnormal magnitude bits become zero (log 6). -/
def flushBits (ftz : Bool) (bits : Nat) : Nat :=
  if ftz && decide (bits < 2 ^ 23) then 0 else bits

/-- `f32(r)` for the exact value ± n/d units (R17). -/
def roundF (ftz neg : Bool) (n d : Nat) : F32 := packF neg (flushBits ftz (roundBits n d))

/-- R13 FTZ on an operand: a subnormal is read as the zero of its sign (log 6). -/
def operandF (ftz : Bool) (x : F32) : F32 :=
  if ftz && isSubnormal x then packF (fsign x) 0 else x

/-- f32(n/d) for a non-negative ratio written in the rules, such as 0.42 (R17). -/
def litF (n d : Nat) : F32 := roundF false false (n * 2 ^ 149) d

/-- f32(i) for an integer (R17): exact for |i| ≤ 2^24. -/
def intF (i : Int) : F32 := roundF false (decide (i < 0)) (i.natAbs * 2 ^ 149) 1

/-- f32(i) for a natural number. -/
def natF (i : Nat) : F32 := roundF false false (i * 2 ^ 149) 1

/-- The NaN pattern an operation delivers: free within the NaN patterns (log 4). -/
def nanF (f : Fns) (op : NanOp) (a b : F32) : F32 :=
  if isNaN (f.nan op a b) then f.nan op a b else 0x7FC00000

/-- The sum of two finite values; an exact zero sum is -0.0 only for two negative zeros. -/
def sumFinite (ftz : Bool) (a b : F32) : F32 :=
  let v := units a + units b
  if v = 0 then packF (fsign a && fsign b) 0
  else roundF ftz (decide (v < 0)) v.natAbs 1

/-- The shared body of `+f` and `-f` on flushed operands. -/
def addCore (e : Env) (op : NanOp) (a b : F32) : F32 :=
  if isNaN a || isNaN b then nanF e.f op a b
  else if isInf a then (if isInf b && fsign a != fsign b then nanF e.f op a b else a)
  else if isInf b then b
  else sumFinite e.p.ftz a b

/-- `a +f b` (R17). -/
def Env.add (e : Env) (a b : F32) : F32 := addCore e .add (operandF e.p.ftz a) (operandF e.p.ftz b)

/-- `a -f b` (R17). -/
def Env.sub (e : Env) (a b : F32) : F32 := addCore e .sub (operandF e.p.ftz a) (fneg (operandF e.p.ftz b))

/-- `*f` on flushed operands. -/
def mulCore (e : Env) (a b : F32) : F32 :=
  let neg := fsign a != fsign b
  if isNaN a || isNaN b then nanF e.f .mul a b
  else if isInf a then (if isZero b then nanF e.f .mul a b else infF neg)
  else if isInf b then (if isZero a then nanF e.f .mul a b else infF neg)
  else roundF e.p.ftz neg (fmag a * fmag b) (2 ^ 149)

/-- `a *f b` (R17). -/
def Env.mul (e : Env) (a b : F32) : F32 := mulCore e (operandF e.p.ftz a) (operandF e.p.ftz b)

/-- `/f` on flushed operands. -/
def divCore (e : Env) (a b : F32) : F32 :=
  let neg := fsign a != fsign b
  if isNaN a || isNaN b then nanF e.f .div a b
  else if isInf a then (if isInf b then nanF e.f .div a b else infF neg)
  else if isInf b then packF neg 0
  else if isZero b then (if isZero a then nanF e.f .div a b else infF neg)
  else roundF e.p.ftz neg (fmag a * 2 ^ 149) (fmag b)

/-- `a /f b` (R17). -/
def Env.div (e : Env) (a b : F32) : F32 := divCore e (operandF e.p.ftz a) (operandF e.p.ftz b)

/-- The bits of the integer square root, from bit `k` down. -/
def isqrtBits (n : Nat) : Nat → Nat → Nat
  | 0, r => r
  | k + 1, r => isqrtBits n k (if (r + 2 ^ k) * (r + 2 ^ k) ≤ n then r + 2 ^ k else r)

/-- The integer part of the square root of n. -/
def isqrt (n : Nat) : Nat := isqrtBits n (Nat.log2 n / 2 + 1) 0

/-- `sqrtf` on a flushed operand. The root of m units is the root of m·2^149 in units; its integer part and one bit
that says whether it is exact decide the rounding, since the kept step is far above one unit. -/
def sqrtCore (e : Env) (a : F32) : F32 :=
  if isNaN a then nanF e.f .sqrt a a
  else if isZero a then a
  else if fsign a then nanF e.f .sqrt a a
  else if isInf a then a
  else
    let n := fmag a * 2 ^ 149
    let r := isqrt n
    roundF e.p.ftz false (2 * r + (if r * r = n then 0 else 1)) 2

/-- `sqrtf(a)` (R17). -/
def Env.sqrt (e : Env) (a : F32) : F32 := sqrtCore e (operandF e.p.ftz a)

/-- A key that orders the non-NaN values, the two zeros equal. -/
def ordKey (x : F32) : Int := if fsign x then -(fbits x : Int) else (fbits x : Int)

/-- A key that orders the non-NaN values, -0.0 below +0.0 (R17, for fmin and fmax). -/
def totalKey (x : F32) : Int := if fsign x then -(fbits x : Int) - 1 else (fbits x : Int)

/-- `a < b` on exact values: false when an operand is NaN (R17). -/
def ltF (a b : F32) : Bool := !isNaN a && !isNaN b && decide (ordKey a < ordKey b)

/-- `a <= b` on exact values. -/
def leF (a b : F32) : Bool := !isNaN a && !isNaN b && decide (ordKey a ≤ ordKey b)

/-- `a < b` of the rules: operands follow FTZ (log 6). -/
def Env.lt (e : Env) (a b : F32) : Bool := ltF (operandF e.p.ftz a) (operandF e.p.ftz b)

/-- `a <= b` of the rules. -/
def Env.le (e : Env) (a b : F32) : Bool := leF (operandF e.p.ftz a) (operandF e.p.ftz b)

/-- `fmin` (R17): the non-NaN operand if one is NaN; which NaN for two is free (log 4). -/
def Env.min (e : Env) (a b : F32) : F32 :=
  if isNaN a then (if isNaN b then nanF e.f .min a b else b)
  else if isNaN b then a
  else if totalKey a ≤ totalKey b then a else b

/-- `fmax` (R17). -/
def Env.max (e : Env) (a b : F32) : F32 :=
  if isNaN a then (if isNaN b then nanF e.f .max a b else b)
  else if isNaN b then a
  else if totalKey a ≤ totalKey b then b else a

/-- `clamp(x, lo, hi)` for binary32 (R20). -/
def Env.clamp (e : Env) (x lo hi : F32) : F32 := e.min (e.max x lo) hi

/-- `clamp(x, lo, hi)` for integers (R20). -/
def clampInt (x lo hi : Int) : Int := min (max x lo) hi

/-- `SUM` (R18): a left fold from the first term; the empty sum is +0.0. -/
def Env.sum (e : Env) : List F32 → F32
  | [] => fzero
  | t :: ts => ts.foldl e.add t

/-- `round_away(x)` for finite x (R21): nearest integer, ties away from zero. -/
def roundAway (x : F32) : Int :=
  let q : Nat := (2 * fmag x + 2 ^ 149) / 2 ^ 150
  if fsign x then -(q : Int) else (q : Int)

/-- `sat16(i)` (R21). -/
def sat16 (i : Int) : Int := clampInt i (-32768) 32767

/-- Element i of an f32 state array (R15 `A[i]`). -/
def getF (l : List F32) (i : Nat) : F32 := l.getD i fzero

/-- Every value written is finite (the test of 48_mode_control.md R131). -/
def allFinite (l : List F32) : Bool := l.all isFinite

end Sys2Proof
end

