-- ==== Sys2Proof/Machine/Transform.lean ====
section
/-! DEFINITION. The accuracy R19 asks of FFT and IFFT (00_scope.md R19, R13 FFT_TOL), and the values a result of them may
take: any value where the bound cannot be met by the rounded exact result, else any value within the bound (log 3). -/

namespace Sys2Proof

/-! The exact transform rounded to binary32, in fixed point with 1024 fraction bits. It serves only to say where the bound
of R19 can be met; the machine never delivers it by itself. -/

/-- One, in fixed point. -/
def fixOne : Int := 2 ^ 1024

/-- The series arctan(1/x) = Σ (-1)^k / ((2k+1)·x^(2k+1)) from term k on; `pow` is the power of 1/x in that term. -/
def fixArctan (x : Int) : Nat → Nat → Int → Int
  | 0, _, _ => 0
  | terms + 1, k, pow => pow / ((2 * k + 1 : Nat) : Int) - fixArctan x terms (k + 1) (pow / (x * x))

/-- π by Machin's formula, 16·arctan(1/5) − 4·arctan(1/239). -/
def fixPi : Int := 16 * fixArctan 5 512 0 (fixOne / 5) - 4 * fixArctan 239 512 0 (fixOne / 239)

/-- The series e^(iθ) = Σ (iθ)^m / m! from term m on, as real and imaginary part; (a, b) is that term. -/
def fixExp (theta : Int) : Nat → Nat → Int → Int → Int × Int
  | 0, _, _, _ => (0, 0)
  | terms + 1, m, a, b =>
    let step := fun v : Int => v * theta / fixOne / ((m + 1 : Nat) : Int)
    let rest := fixExp theta terms (m + 1) (-step b) (step a)
    (a + rest.1, b + rest.2)

/-- e^(2πi·j/n), or its conjugate for the forward transform. -/
def fixRoot (inverse : Bool) (n j : Nat) : Int × Int :=
  let root := fixExp (2 * fixPi * (j : Int) / (n : Int)) 512 0 fixOne 0
  if inverse then root else (root.1, -root.2)

/-- Σ z[n]·e^(∓2πi·kn/N) in units of 2^-149 scaled by `fixOne`. -/
def fixSum (inverse : Bool) (z : List Cplx) (k : Nat) : Int × Int :=
  let terms := z.mapIdx fun n c =>
    let r := fixRoot inverse z.length (k * n % z.length)
    (units c.re * r.1 - units c.im * r.2, units c.re * r.2 + units c.im * r.1)
  ((terms.map Prod.fst).sum, (terms.map Prod.snd).sum)

/-- Result k of the exact transform, each part rounded to binary32. -/
def nearestTransform (p : Params) (inverse : Bool) (z : List Cplx) (k : Nat) : Cplx :=
  let s := fixSum inverse z k
  let d := 2 ^ 1024 * (if inverse then z.length else 1)
  ⟨roundF p.ftz (decide (s.1 < 0)) s.1.natAbs d, roundF p.ftz (decide (s.2 < 0)) s.2.natAbs d⟩

/-- `c` lies within relative error FFT_TOL of result k of the exact DFT X[k] = Σ z[n]·e^(−2πi·kn/N), or of the exact
inverse with 1/N scaling (R19, R13). -/
def WithinTol (p : Params) (inverse : Bool) (z : List Cplx) (k : Nat) (c : Cplx) : Prop :=
  let real : F32 → ℝ := fun x => (units x : ℝ) / 2 ^ 149
  let value : Cplx → ℂ := fun c => ⟨real c.re, real c.im⟩
  let sign : ℂ := if inverse then 1 else -1
  let scale : ℂ := if inverse then 1 / (z.length : ℂ) else 1
  let term : Nat → ℂ := fun n =>
    value (z.getD n ⟨fzero, fzero⟩)
      * Complex.exp (sign * (2 * Real.pi * Complex.I) * ((k * n : Nat) : ℂ) / (z.length : ℂ))
  let exact : ℂ := scale * ((List.range z.length).map term).sum
  isFinite c.re = true ∧ isFinite c.im = true ∧ ‖value c - exact‖ ≤ real p.fftTol * ‖exact‖

/-- Every part of every value is finite. -/
def finiteVector (z : List Cplx) : Bool := z.all fun c => isFinite c.re && isFinite c.im

/-- The values result k may take: within the bound of R19 wherever the operands are finite and the rounded exact result is
within it. -/
abbrev TransformValue (p : Params) (inverse : Bool) (z : List Cplx) (k : Nat) : Type :=
  { c : Cplx // finiteVector z = true → WithinTol p inverse z k (nearestTransform p inverse z k) →
      WithinTol p inverse z k c }

/-- Result k of FFT or IFFT: free among the values R19 allows. -/
def freeTransform (p : Params) (inverse : Bool) (z : List Cplx) (k : Nat) : Cplx :=
  (@Config.rawTransform (TransformValue p inverse z k) ⟨⟨nearestTransform p inverse z k, fun _ h => h⟩⟩ p inverse z k).1

end Sys2Proof
end

