-- ==== Sys2Proof/Machine/Params.lean ====
section
/-! DEFINITION. What follows from the parameters: the frame length and band (47_frame_engine.md R118, R119), the
legality of a parameter set (00_scope.md R8 to R13), the legality of a tuning value (10_state.md R32), and the
configuration functions with their stated properties (00_scope.md R19). -/

namespace Sys2Proof

/-- NFFT = 2·B (R118). -/
def nfft (p : Params) : Nat := 2 * p.blk

/-- round(f · NFFT / FS) kept inside [1, NFFT/2 − 1] (R119). -/
def bandBin (p : Params) (f : Rat) : Nat :=
  Min.min (Max.max (Rat.floor (f * (2 * p.blk : Nat) / p.fs + 1 / 2)) 1) ((p.blk : Int) - 1) |>.toNat

/-- K_LO (R119). -/
def kLo (p : Params) : Nat := bandBin p p.fLo

/-- K_HI (R119). -/
def kHi (p : Params) : Nat := bandBin p p.fHi

/-- How many bins the analysis band holds. -/
def bandLen (p : Params) : Nat := kHi p + 1 - kLo p

/-- CNT_MAX = max(WARMUP, 1) (45_spectral_kim.md R102). -/
def cntMax (warmup : Nat) : Nat := Nat.max warmup 1

/-- An f32 register value inside its legal range, with -0.0 excluded where the lower bound is +0.0 (R32, R33). -/
def legalF (lo hi v : F32) : Bool :=
  isFinite v && leF lo v && leF v hi && !(lo == fzero && v == 0x80000000)

/-- A u32 register value inside its legal range (R32). -/
def legalU (lo hi : Nat) (v : Word) : Bool := decide (lo ≤ v.toNat) && decide (v.toNat ≤ hi)

/-- The legal values of the tuning registers (R32). -/
def legalTune (p : Params) (t : TuneRegs) : Bool :=
  decide (p.sMin ≤ t.lmsStrength.toInt) && decide (t.lmsStrength.toInt ≤ p.sMax)
    && legalF fzero p.kMax t.kimK
    && legalF p.psiMin p.psiMax t.kimPsi
    && decide (t.kimRef.toNat ≤ 1)
    && legalF fzero fone t.alpha
    && legalF fzero fhalf t.beta
    && legalU 1 p.anrTapsMax t.anrTaps
    && legalU 1 p.anrDelayMax t.anrDelay
    && legalF fzero p.muAMax t.anrMu
    && legalF p.lidxLo p.lidxHi t.anrLidxMin
    && legalF p.lidxLo p.lidxHi t.anrLidxMax

/-- A finite binary32 parameter above zero; under FTZ a subnormal is read as zero and is not above it (log 6, log 19). -/
def posF (p : Params) (x : F32) : Bool := isFinite x && ltF fzero (operandF p.ftz x)

/-- A finite binary32 parameter in [lo, hi]. -/
def inF (lo hi x : F32) : Bool := isFinite x && leF lo x && leF x hi

/-- Two finite binary32 parameters with 0 ≤ lo ≤ hi. -/
def rangeF (lo hi : F32) : Bool := isFinite lo && isFinite hi && leF fzero lo && leF lo hi

/-- The constraints of R8. -/
def sizesOk (p : Params) : Bool :=
  decide (2 ≤ p.blk) && decide (p.blk ≤ 1024) && decide (0 < p.fs) && decide (1 ≤ p.nmax) && decide (p.nmax ≤ 4096)

/-- The constraints of R9. -/
def firOk (p : Params) : Bool :=
  posF p p.qScale && isFinite p.gscaleMax && leF fone p.gscaleMax
    && ltF (litF 50 1) p.aMax && leF p.aMax (litF 200 1)
    && posF p p.i0Eps && ltF p.i0Eps fone

/-- The constraints of R10; the strength bounds are values of an s32 register (R32). That every strength gives a finite step
size above zero (43_nlms.md R94) binds POW10F as well as S_MIN, S_MAX and MU_DB: `stepSizeOk` holds it (log 5). -/
def lmsOk (p : Params) : Bool :=
  decide (1 ≤ p.lmsTaps) && decide (p.sMin ≤ p.sMax)
    && decide (-(2 ^ 31) ≤ p.sMin) && decide (p.sMax < 2 ^ 31)
    && posF p p.muDb && posF p p.epsLms

/-- The constraints of R11; the tap and delay bounds are values of u32 registers (R32). -/
def anrOk (p : Params) : Bool :=
  decide (2 ≤ p.anrDl) && decide (1 ≤ p.anrTapsMax) && decide (p.anrTapsMax < p.anrDl)
    && decide (1 ≤ p.anrDelayMax) && decide (p.anrTapsMax + p.anrDelayMax ≤ p.anrDl) && decide (p.anrDl < 2 ^ 32)
    && posF p p.lincr && posF p p.ldecr && ltF p.ldecr p.lincr && isFinite p.leakK && leF fzero p.leakK
    && rangeF p.lidxLo p.lidxHi && posF p p.muAMax && posF p p.epsAnr

/-- The constraints of R12. -/
def spectralOk (p : Params) : Bool :=
  decide (0 ≤ p.fLo) && decide (p.fLo < p.fHi) && decide (p.fHi ≤ p.fs / 2)
    && decide (1 ≤ p.kimL) && decide (1 ≤ p.kimN) && decide (1 ≤ p.mmseWarmup)
    && posF p p.kMax && rangeF p.psiMin p.psiMax && posF p p.epsSpec
    && inF fzero fone p.alphaN
    && posF p p.sppThresh && ltF p.sppThresh fone
    && inF fzero fone p.sppASlow && inF fzero fone p.sppAFast && leF p.sppAFast p.sppASlow
    && rangeF p.gammaMin p.gammaMax && rangeF p.xiMin p.xiMax && rangeF p.gmMin p.gmMax
    && posF p p.mnThresh && leF p.mnThresh fone

/-- The constraints of R13. -/
def platformOk (p : Params) : Bool :=
  posF p p.xMax && isFinite p.fftTol && leF fzero p.fftTol && decide (p.tProc ≤ p.blk / p.fs) && legalTune p p.rst

/-- A legal parameter set: every constraint of R8 to R13 (log 19). -/
def Params.wf (p : Params) : Bool :=
  sizesOk p && firOk p && lmsOk p && anrOk p && spectralOk p && platformOk p

/-- The parameter set that `State.reset` takes: the readings of 95_test_vectors.md section 0 and of V-LMS, V-ANR, V-KIM-1,
V-MMSE and V-PR, legal values where no vector fixes one, and an FFT_TOL of 2^-20. A DESIGN CHOICE (log 1, log 20): the spec fixes none of them. -/
def Params.vectors : Params where
  blk := 4
  fs := 8000
  nmax := 9
  qScale := 0x46FFFE00
  gscaleMax := 0x40400000
  aMax := 0x42A00000
  i0Eps := 0x3089705F
  lmsTaps := 2
  sMin := 0
  sMax := 20
  muDb := 0x41200000
  epsLms := 0x358637BD
  anrDl := 8
  anrTapsMax := 4
  anrDelayMax := 4
  lincr := 0x3F800000
  ldecr := 0x3F000000
  leakK := 0x3C23D70A
  lidxLo := 0x00000000
  lidxHi := 0x40400000
  muAMax := 0x3F800000
  epsAnr := 0x2EDBE6FF
  fLo := 1000
  fHi := 3000
  kimL := 2
  kimN := 2
  kimWarmup := 3
  kMax := 0x40800000
  psiMin := 0x00000000
  psiMax := 0x42C80000
  epsSpec := 0x358637BD
  mmseWarmup := 2
  alphaN := 0x3F400000
  sppThresh := 0x3F000000
  sppASlow := 0x3F666666
  sppAFast := 0x3F000000
  gammaMin := 0x00000000
  gammaMax := 0x447A0000
  xiMin := 0x3A83126F
  xiMax := 0x447A0000
  gmMin := 0x3DCCCCCD
  gmMax := 0x3F800000
  mnThresh := 0x3F000000
  fold := .left
  offOutput := .pass
  ftz := false
  xMax := 0x3F800000
  fftTol := 0x35800000
  tProc := 1 / 2000
  rst :=
    { lmsStrength := 0, kimK := 0x3F800000, kimPsi := 0x40800000, kimRef := 0, alpha := 0x3F000000,
      beta := 0x3E800000, anrTaps := 2, anrDelay := 1, anrMu := 0x3F000000, anrLidxMin := 0x00000000,
      anrLidxMax := 0x40000000 }
  winBase := 0

/-! The configuration functions of R19. Each is the free function where that has the stated property, and a fixed value
with the property elsewhere; outside the stated domain it is the free function (log 2, log 22). -/

/-- The value if the property holds of it, else the fallback. -/
def keepIf (ok : Bool) (v fallback : F32) : F32 := if ok then v else fallback

/-- A finite value in [-1, 1]. -/
def inUnit (x : F32) : Bool := leF 0xBF800000 x && leF x fone

/-- SINF and COSF: finite for finite x, each in [−1, 1]. -/
def unitFn (raw : F32 → F32) (x : F32) : F32 := keepIf (!isFinite x || inUnit (raw x)) (raw x) fzero

/-- EXPF: ≥ 0. -/
def expFn (raw : F32 → F32) (x : F32) : F32 := keepIf (leF fzero (raw x)) (raw x) fzero

/-- POWF, for x ≥ 0: ≥ 0, POWF(x, 1) = x, POWF(0, y) = 0 for y > 0. -/
def powFn (raw : F32 → F32 → F32) (x y : F32) : F32 :=
  if !leF fzero x then raw x y
  else if y = fone then x
  else if isZero x && ltF fzero y then keepIf (isZero (raw x y)) (raw x y) fzero
  else keepIf (leF fzero (raw x y)) (raw x y) fzero

/-- POW10F: > 0, POW10F(0) = 1. Only ratios that `ok` admits are delivered (log 5). -/
def pow10Fn (ok : F32 → Bool) (raw : F32 → F32) (x : F32) : F32 :=
  if isZero x then fone else keepIf (ok (raw x)) (raw x) fone

/-- A zero of either sign is kept, any other value becomes +0.0. -/
def zeroOf (x : F32) : F32 := keepIf (isZero x) x fzero

/-- A complex value whose parts are zeros. -/
def Cplx.isZero (c : Cplx) : Bool := Sys2Proof.isZero c.re && Sys2Proof.isZero c.im

/-- FFT and IFFT: as many values as go in, and zero for zero, the sign of a zero left open (log 26). The error bound
FFT_TOL is in `value`, which gives result k of a vector (log 3). -/
def transformFn (value : List Cplx → Nat → Cplx) (z : List Cplx) : List Cplx :=
  (List.range z.length).map fun k =>
    let v := value z k
    if z.all Cplx.isZero then ⟨zeroOf v.re, zeroOf v.im⟩ else v

/-- SPP_MAP, for r ≥ 0: in [0, 1], SPP_MAP(0) = 0. -/
def sppFn (raw : F32 → F32) (r : F32) : F32 :=
  if !leF fzero r then raw r
  else if isZero r then zeroOf (raw r)
  else keepIf (leF fzero (raw r) && leF (raw r) fone) (raw r) fzero

/-- MMSE_GAIN: finite for finite operands. -/
def mmseFn (raw : F32 → F32 → F32) (xi g : F32) : F32 :=
  keepIf (!(isFinite xi && isFinite g) || isFinite (raw xi g)) (raw xi g) fzero

/-- MN_WIDTH: an odd integer, at least 1. -/
def widthFn (raw : F32 → Nat) (rho : F32) : Nat := if raw rho % 2 = 1 then raw rho else 1

/-- The free functions as they stand, before R19's properties are brought in. -/
def freeFns (p : Params) : Fns where
  sinf := Config.rawSin
  cosf := Config.rawCos
  expf := Config.rawExp
  powf := Config.rawPow
  pow10f := Config.rawPow10
  fft := fun z => (List.range z.length).map (freeTransform p false z)
  ifft := fun z => (List.range z.length).map (freeTransform p true z)
  sppMap := Config.rawSppMap
  mmseGain := Config.rawMmseGain
  mnWidth := Config.rawMnWidth
  nan := Config.rawNan

/-- The step size a ratio gives is finite and above zero: "The parameters must be chosen so that µ is finite and > 0 for
every S in range" (43_nlms.md R94). POW10F serves nothing but that ratio, so the condition falls on it (log 5). -/
def stepSizeOk (p : Params) (ratio : F32) : Bool :=
  let mu := ({ p := p, f := freeFns p } : Env).div fone ratio
  isFinite mu && ltF fzero mu

/-- The machine's configuration functions. -/
def configFns (p : Params) : Fns where
  sinf := unitFn Config.rawSin
  cosf := unitFn Config.rawCos
  expf := expFn Config.rawExp
  powf := powFn Config.rawPow
  pow10f := pow10Fn (stepSizeOk p) Config.rawPow10
  fft := transformFn (freeTransform p false)
  ifft := transformFn (freeTransform p true)
  sppMap := sppFn Config.rawSppMap
  mmseGain := mmseFn Config.rawMmseGain
  mnWidth := widthFn Config.rawMnWidth
  nan := Config.rawNan

end Sys2Proof
end

