-- ==== Sys2Proof/Machine/State.lean ====
section
/-! DEFINITION. The machine's state, whole, as plain data (10_state.md R23 to R45), the ways a step can end, and the state
after reset (70_reset_and_hazards.md R149). -/

namespace Sys2Proof.Machine

/-- The byte-addressed storage of the register window: the four buffers, little-endian (20_memory.md R46, R50). One
canonical form: `Memory.wf` in Machine/Memory.lean. -/
abbrev Memory := List Host.Cell

/-- The codes STATUS.ERR can hold (R28, 60_exceptions.md R134); 6 to 15 are never written. -/
inductive ErrCode where
  | ok
  | illegal
  | range
  | unset
  | badMode
  | unimpl
deriving DecidableEq, Repr

/-- The modes (48_mode_control.md R123), codes 0 to 7 in this order. -/
inductive Mode where
  | bypass
  | off
  | lms
  | kim
  | heur1
  | heur2
  | mmse
  | anr
deriving DecidableEq, Repr

/-- The argument registers (R31). -/
structure ArgRegs where
  fc1 : F32
  fc2 : F32
  gfreq : F32
  gscale : F32
  kf : F32
  kastop : F32
  kdf : F32
deriving DecidableEq, Repr

/-- What the core takes when it accepts a command (20_memory.md R54): the command word and every argument and tuning
register. -/
structure Snapshot where
  cmd : Word
  args : ArgRegs
  tune : TuneRegs
deriving DecidableEq, Repr

/-- Normalized-LMS state (R38). -/
structure LmsState where
  ring : List F32
  wc : Nat
  w : List F32
  hist : List F32
  mu : F32
deriving DecidableEq, Repr

/-- Variable-leak state of one instance (R39). -/
structure AnrState where
  ring : List F32
  idx : Nat
  w : List F32
  lidx : F32
  leak : F32
  nt : Nat
  nd : Nat
deriving DecidableEq, Repr

/-- Frame-engine state of one spectral mode (R40). -/
structure FrameState where
  fin : List F32
  fout : List F32
  cnt : Nat
deriving DecidableEq, Repr

/-- Kim state of one band bin (R41). -/
structure KimBin where
  x : List F32
  e : List F32
  gts : F32
deriving DecidableEq, Repr

/-- Kim state (R41) with its frame state; `bins` holds the bins K_LO to K_HI in order. -/
structure KimState where
  bins : List KimBin
  xi : Nat
  ei : Nat
  fe : FrameState
deriving DecidableEq, Repr

/-- MMSE state of one band bin (R42). -/
structure MmseBin where
  nest : F32
  gprev : F32
  gamprev : F32
  gams : F32
  spp : F32
deriving DecidableEq, Repr

/-- MMSE state (R42) with its frame state; `bins` holds the bins K_LO to K_HI in order. -/
structure MmseState where
  bins : List MmseBin
  fe : FrameState
deriving DecidableEq, Repr

/-- What can happen next (log 9): a core move, a host access of `width` bytes at a window offset (20_memory.md R49), or
an edge of the reset input (R148). -/
inductive Event where
  | core
  | read (width : Nat) (off : Off)
  | write (width : Nat) (off : Off) (v : Word)
  | resetAssert
  | resetRelease
deriving DecidableEq, Repr

/-- The machine. -/
structure State where
  /-- The implementation's parameters; no step changes them (log 1). -/
  cfg : Params
  /-- The inputs still to come, in order (log 9). -/
  inbox : List Event
  /-- The reset input is asserted (R148). -/
  inReset : Bool
  /-- How often reset has been asserted (log 8). -/
  epoch : Nat
  /-- The word the host's last read returned (log 12, log 24). -/
  rdata : Word
  /-- STATUS.BUSY (R28). -/
  busy : Bool
  /-- STATUS.DROP (R28). -/
  drop : Bool
  /-- STATUS.ERR (R28). -/
  err : ErrCode
  /-- MODE (R37). -/
  mode : Mode
  /-- NOTCH_EN (R37). -/
  notchEn : Bool
  /-- GAIN (R29). -/
  gain : F32
  /-- H_LEN (R30). -/
  hLen : Word
  /-- R31. -/
  args : ArgRegs
  /-- R32. -/
  tune : TuneRegs
  /-- R54. -/
  snap : Snapshot
  /-- SAMP_L, SAMP_R, HCOEF, QCOEF (R34, R35, R36). -/
  mem : Memory
  /-- R38. -/
  lms : LmsState
  /-- R39, instance NR. -/
  anrNr : AnrState
  /-- R39, instance NOTCH. -/
  anrNotch : AnrState
  /-- R40, R41. -/
  kim : KimState
  /-- R40, R42. -/
  mmse : MmseState
deriving DecidableEq, Repr

/-- The block raises no exception and takes no trap (60_exceptions.md R133), and every offset a host access can name lies
in the window (R46): no step faults (log 25). -/
inductive Fault where
deriving DecidableEq, Repr

/-- Where the model gives a step no meaning (00_scope.md R16 `refuse`). Each is safe: no claim about such a run can be
proved. -/
inductive Refusal where
  /-- Raised by an arm of `exec` whose instruction has no meaning yet; none does. -/
  | notModelled (mnemonic : String)
  /-- Raised by a host access that is not one aligned 32-bit word (R49). -/
  | accessWidth
  /-- Raised by a host access to a buffer or result while BUSY (R56). -/
  | race
  /-- Raised by a host access while reset is asserted (R148). -/
  | resetAsserted
  /-- Raised by PROCESS where a sample slot is unwritten (48_mode_control.md R130). -/
  | unwritten
  /-- Raised by PROCESS where a NaN or an infinity would be written (R131). -/
  | overflow
deriving DecidableEq, Repr

/-- n values +0.0. -/
def zeros (n : Nat) : List F32 := List.replicate n fzero

/-- The argument registers after reset (R149). -/
def resetArgs : ArgRegs :=
  { fc1 := fzero, fc2 := fzero, gfreq := fzero, gscale := fzero, kf := fzero, kastop := fzero, kdf := fzero }

/-- A variable-leak instance after reset: unspecified by R149, zero here (log 7). -/
def resetAnr (p : Params) : AnrState :=
  { ring := zeros p.anrDl, idx := 0, w := zeros p.anrTapsMax, lidx := fzero, leak := fzero, nt := 1, nd := 1 }

/-- A frame state after reset: unspecified by R149, zero here (log 7). -/
def resetFrame (p : Params) : FrameState :=
  { fin := zeros p.blk, fout := zeros p.blk, cnt := 0 }

/-- The machine with parameters `p` right after reset (R149). Registers at the values of the table, the tuning registers
at RST_*, SAMP unwritten, HCOEF and QCOEF zero; engine state is unspecified there and zero here (log 7). -/
def State.resetOf (p : Params) : State where
  cfg := p
  inbox := []
  inReset := false
  epoch := 0
  rdata := 0
  busy := false
  drop := false
  err := .ok
  mode := .bypass
  notchEn := false
  gain := fzero
  hLen := 0
  args := resetArgs
  tune := p.rst
  snap := { cmd := 0, args := resetArgs, tune := p.rst }
  mem := []
  lms := { ring := zeros (2 * p.blk), wc := 0, w := zeros p.lmsTaps, hist := zeros (p.lmsTaps - 1), mu := fzero }
  anrNr := resetAnr p
  anrNotch := resetAnr p
  kim :=
    { bins := List.replicate (bandLen p) { x := zeros p.kimL, e := zeros p.kimN, gts := fzero }
      xi := 0
      ei := 0
      fe := resetFrame p }
  mmse :=
    { bins := List.replicate (bandLen p) { nest := fzero, gprev := fzero, gamprev := fzero, gams := fzero, spp := fzero }
      fe := resetFrame p }

/-- The machine right after reset, for the parameter set of the spec's vectors (log 1). -/
def State.reset : State := State.resetOf Params.vectors

end Sys2Proof.Machine
end

