-- ==== Sys2Proof/Machine/Memory.lean ====
section
/-! DEFINITION. The bytes of the register window: SAMP_L, SAMP_R, HCOEF and QCOEF at their offsets (20_memory.md R46),
little-endian (R50; log 13). -/

namespace Sys2Proof.Machine

/-- Offset of SAMP_L[0] (10_state.md R26). -/
def sampLBase : Nat := 0x1000

/-- Offset of SAMP_R[0]. -/
def sampRBase : Nat := 0x2000

/-- Offset of HCOEF[0]. -/
def hcoefBase : Nat := 0x4000

/-- Offset of QCOEF[0]. -/
def qcoefBase : Nat := 0x8000

/-- What an unlisted byte reads as: the bytes of the sample buffers have no value until written (R34), all others are
the zeros of reset (R149). -/
def Memory.unlisted (a : Nat) : Option Byte :=
  if sampLBase ≤ a ∧ a < 0x3000 then none else some 0

/-- The listed byte at an offset. -/
def Memory.findCell : Memory → Nat → Option Byte
  | [], _ => none
  | (b, v) :: m, a => if a = b then some v else Memory.findCell m a

/-- One byte of the window; `none` is an unwritten sample byte. -/
def Memory.readByte (m : Memory) (a : Nat) : Option Byte :=
  match Memory.findCell m a with
  | some v => some v
  | none => Memory.unlisted a

/-- The list with the byte at `a` set to `v`, in rising order. -/
def Memory.putCell : Memory → Nat → Byte → Memory
  | [], a, v => [(a, v)]
  | (b, u) :: m, a, v =>
    if a < b then (a, v) :: (b, u) :: m
    else if a = b then (a, v) :: m
    else (b, u) :: Memory.putCell m a v

/-- The list without the byte at `a`. -/
def Memory.dropCell : Memory → Nat → Memory
  | [], _ => []
  | (b, u) :: m, a => if a = b then m else (b, u) :: Memory.dropCell m a

/-- Write one byte, keeping the canonical form. -/
def Memory.writeByte (m : Memory) (a : Nat) (v : Byte) : Memory :=
  if Memory.unlisted a = some v then Memory.dropCell m a else Memory.putCell m a v

/-- Byte j of a word: bits 8j+7 to 8j (R50). -/
def byteOf (w : Word) (j : Nat) : Byte := BitVec.ofNat 8 (w.toNat / 256 ^ j)

/-- The word of four bytes, the first the least significant (R50). -/
def wordOf (b0 b1 b2 b3 : Byte) : Word :=
  BitVec.ofNat 32 (b0.toNat + 256 * b1.toNat + 65536 * b2.toNat + 16777216 * b3.toNat)

/-- One 32-bit word of the window; `none` if a byte of it is unwritten. -/
def Memory.readWord (m : Memory) (a : Nat) : Option Word :=
  match Memory.readByte m a, Memory.readByte m (a + 1), Memory.readByte m (a + 2), Memory.readByte m (a + 3) with
  | some b0, some b1, some b2, some b3 => some (wordOf b0 b1 b2 b3)
  | _, _, _, _ => none

/-- Write one 32-bit word (R50, R51). -/
def Memory.writeWord (m : Memory) (a : Nat) (w : Word) : Memory :=
  Memory.writeByte
    (Memory.writeByte (Memory.writeByte (Memory.writeByte m a (byteOf w 0)) (a + 1) (byteOf w 1)) (a + 2) (byteOf w 2))
    (a + 3) (byteOf w 3)

/-- Write consecutive words from an offset up. -/
def Memory.writeWords : Memory → Nat → List Word → Memory
  | m, _, [] => m
  | m, a, w :: ws => Memory.writeWords (Memory.writeWord m a w) (a + 4) ws

/-- The n slots of a buffer, each the word it holds or unwritten. -/
def Memory.readSlots (m : Memory) (base n : Nat) : List (Option Word) :=
  (List.range n).map fun i => Memory.readWord m (base + 4 * i)

/-- The n words of a buffer; only for buffers whose slots always have a value, or once all are known to be written. -/
def Memory.readWords (m : Memory) (base n : Nat) : List Word :=
  (List.range n).map fun i => (Memory.readWord m (base + 4 * i)).getD 0

/-- The cells rise strictly from above `lo`. -/
def Memory.rising : Nat → Memory → Bool
  | _, [] => true
  | lo, (a, _) :: m => decide (lo ≤ a) && Memory.rising (a + 1) m

/-- The canonical form: offsets strictly rising, and no entry equal to what its offset reads as when unlisted. -/
def Memory.wf (m : Memory) : Bool :=
  Memory.rising 0 m && m.all fun c => decide (Memory.unlisted c.1 ≠ some c.2)

end Sys2Proof.Machine
end

