-- ==== Sys2Proof/Machine/Ops.lean ====
section
/-! DEFINITION. The named operations every command is built from: how a command ends (00_scope.md R16), the buffers, the
acceptance of a command with its snapshot (48_mode_control.md R122, 20_memory.md R54), and reset (70_reset_and_hazards.md
R148). The block takes no trap (60_exceptions.md R137): `State.fail` is what stands in its place. -/

namespace Sys2Proof.Machine

/-- The arithmetic of this machine. -/
def State.env (s : State) : Env := { p := s.cfg, f := configFns s.cfg }

/-- A command ends: ERR is written and BUSY cleared (R16). -/
def State.finish (s : State) (c : ErrCode) : State := { s with err := c, busy := false }

/-- `done` (R16). -/
def State.done (s : State) : State := s.finish .ok

/-- `fail E` (R16, R133): ERR <- E and BUSY <- 0; nothing else changes. -/
def State.fail (s : State) (c : ErrCode) : State := s.finish c

/-- SAMP_L as slots (R34). -/
def State.sampL (s : State) : List (Option F32) := Memory.readSlots s.mem sampLBase s.cfg.blk

/-- SAMP_R as slots (R34). -/
def State.sampR (s : State) : List (Option F32) := Memory.readSlots s.mem sampRBase s.cfg.blk

/-- HCOEF[0..n-1] (R35). -/
def State.hcoef (s : State) (n : Nat) : List F32 := Memory.readWords s.mem hcoefBase n

/-- QCOEF[0..n-1] as words (R36). -/
def State.qcoef (s : State) (n : Nat) : List Word := Memory.readWords s.mem qcoefBase n

/-- The snapshot of R54: every argument and tuning register and the command word. -/
def State.snapshot (s : State) (w : Word) : Snapshot := { cmd := w, args := s.args, tune := s.tune }

/-- A command is accepted (R122): BUSY <- 1, DROP <- 0, and the snapshot is taken. -/
def State.accept (s : State) (w : Word) : State :=
  { s with busy := true, drop := false, snap := s.snapshot w }

/-- A host write to CMD (R27, R122): dropped while BUSY, else accepted. -/
def State.issue (s : State) (w : Word) : State :=
  if s.busy then { s with drop := true } else s.accept w

/-- The reset input is asserted (R148): all state takes its reset value (R149); the parameters, the inputs still to come
and the host's own read word are not the block's (log 14). -/
def State.assertReset (s : State) : State :=
  { State.resetOf s.cfg with inbox := s.inbox, rdata := s.rdata, inReset := true, epoch := s.epoch + 1 }

/-- The state in which the very next step runs the command word `w`: the state right after the host's CMD write of `w`
was accepted, with a core move as the next event (log 11). -/
def State.withCommand (s : State) (w : Word) : State :=
  { s.accept w with inbox := .core :: s.inbox, inReset := false }

/-- The core's part of a step (R57, R67, R122): while BUSY it decodes the accepted word and runs the command, an ILLEGAL
word being `fail ILLEGAL`; while idle it keeps all state (60_exceptions.md R147, log 10). -/
def coreMoveWith (run : Instr → State → Host.Outcome State Fault Refusal) (s : State) :
    Host.Outcome State Fault Refusal :=
  if s.busy then
    match decode s.snap.cmd with
    | .ok i => run i s
    | .error _ => .next (s.fail .illegal)
  else .next s

end Sys2Proof.Machine
end

