-- ==== Sys2Proof/Machine/Operands.lean ====
section
/-! DEFINITION. The operands of the commands: the checks on the snapshot's arguments (40_fir_windowed_sinc.md R75,
42_fir_kaiser.md R88), the sample block and its check (48_mode_control.md R129, R130). A check answers the code it fails
with, the first in the order of 60_exceptions.md R136, or `none` where it passes. -/

namespace Sys2Proof.Machine

/-- The first check that fails. -/
def firstErr (checks : List (Option ErrCode)) : Option ErrCode := checks.findSome? id

/-- A check that fails with `c` where the condition holds. -/
def failIf (bad : Bool) (c : ErrCode) : Option ErrCode := if bad then some c else none

/-- N = 0 or N > NMAX: RANGE (R75 step 1, R88 step 1). -/
def tapRange (p : Params) (n : Nat) : Option ErrCode := failIf (decide (n = 0 ∨ p.nmax < n)) .range

/-- N even where a centre tap is needed: RANGE (R75 step 2, R88 step 2). -/
def oddTaps (n : Nat) : Option ErrCode := failIf (decide (n % 2 = 0)) .range

/-- A frequency strictly between 0 and 0.5 and finite (R75 step 4). -/
def edgeInside (e : Env) (x : F32) : Bool := isFinite x && e.lt fzero x && e.lt x fhalf

/-- ±0.0 is UNSET (R75 step 3). -/
def edgesSet (edges : List F32) : Option ErrCode := failIf (edges.any isZero) .unset

/-- Not finite or not strictly between 0 and 0.5 is RANGE (R75 step 4). -/
def edgesInside (e : Env) (edges : List F32) : Option ErrCode := failIf (!edges.all (edgeInside e)) .range

/-- FC1 < FC2, else RANGE (R75 step 5). -/
def edgesOrdered (e : Env) (lo hi : F32) : Option ErrCode := failIf (!e.lt lo hi) .range

/-- R75 for WSFIR.LP: any N, reads FC2. -/
def checkWsLp (e : Env) (a : ArgRegs) (n : Nat) : Option ErrCode :=
  firstErr [tapRange e.p n, edgesSet [a.fc2], edgesInside e [a.fc2]]

/-- R75 for WSFIR.HP: odd N, reads FC1. -/
def checkWsHp (e : Env) (a : ArgRegs) (n : Nat) : Option ErrCode :=
  firstErr [tapRange e.p n, oddTaps n, edgesSet [a.fc1], edgesInside e [a.fc1]]

/-- R75 for WSFIR.BP and WSFIR.BS: odd N, reads FC1 and FC2 in order. -/
def checkWsBand (e : Env) (a : ArgRegs) (n : Nat) : Option ErrCode :=
  firstErr [tapRange e.p n, oddTaps n, edgesSet [a.fc1, a.fc2], edgesInside e [a.fc1, a.fc2],
    edgesOrdered e a.fc1 a.fc2]

/-- KASTOP NaN, infinite, negative or above A_MAX: RANGE (R88 step 3). -/
def stopbandRange (e : Env) (x : F32) : Option ErrCode :=
  failIf (!isFinite x || e.lt x fzero || e.lt e.p.aMax x) .range

/-- A Kaiser frequency: ±0.0 is UNSET, outside (0, 0.5) is RANGE (R88 steps 4 and 5). -/
def kaiserFreq (e : Env) (x : F32) : Option ErrCode := firstErr [edgesSet [x], edgesInside e [x]]

/-- The band leaves (0, 0.5): RANGE (R88 step 5). -/
def kaiserBand (e : Env) (a : ArgRegs) : Option ErrCode :=
  failIf (!(e.lt fzero (e.sub a.kf a.kdf) && e.lt (e.add a.kf a.kdf) fhalf)) .range

/-- R88 for KAISER.LP. -/
def checkKaiserLp (e : Env) (a : ArgRegs) (n : Nat) : Option ErrCode :=
  firstErr [tapRange e.p n, stopbandRange e a.kastop, kaiserFreq e a.kf]

/-- R88 for KAISER.HP. -/
def checkKaiserHp (e : Env) (a : ArgRegs) (n : Nat) : Option ErrCode :=
  firstErr [tapRange e.p n, oddTaps n, stopbandRange e a.kastop, kaiserFreq e a.kf]

/-- R88 for KAISER.BP. -/
def checkKaiserBp (e : Env) (a : ArgRegs) (n : Nat) : Option ErrCode :=
  firstErr [tapRange e.p n, stopbandRange e a.kastop, kaiserFreq e a.kf, kaiserFreq e a.kdf, kaiserBand e a]

/-- R88 for KAISER.BS. -/
def checkKaiserBs (e : Env) (a : ArgRegs) (n : Nat) : Option ErrCode :=
  firstErr [tapRange e.p n, oddTaps n, stopbandRange e a.kastop, kaiserFreq e a.kf, kaiserFreq e a.kdf, kaiserBand e a]

/-- R88 for KAISER.HILBERT: N mod 4 = 1; KF and KDF are not read. KASTOP = +0.0, its reset value, passes as R88 and R93 have
it, though R149 says that every design command fails after reset until its operands are written (log 30). -/
def checkHilbert (e : Env) (a : ArgRegs) (n : Nat) : Option ErrCode :=
  firstErr [tapRange e.p n, failIf (decide (n % 4 ≠ 1)) .range, stopbandRange e a.kastop]

/-- Both sample buffers are written in full (R130). -/
def State.sampsWritten (s : State) : Bool := s.sampL.all Option.isSome && s.sampR.all Option.isSome

/-- SAMP_L once every slot is written. -/
def State.left (s : State) : List F32 := s.sampL.map fun o => o.getD fzero

/-- SAMP_R once every slot is written. -/
def State.right (s : State) : List F32 := s.sampR.map fun o => o.getD fzero

/-- A sample PROCESS accepts: finite and at most X_MAX in magnitude (R130). -/
def sampleOk (e : Env) (v : F32) : Bool := isFinite v && !e.lt e.p.xMax (fabs v)

/-- Every sample of both channels passes R130. -/
def State.sampsOk (s : State) : Bool := s.left.all (sampleOk s.env) && s.right.all (sampleOk s.env)

/-- `FOLD()` on the two channels (R129). -/
def foldBlock (e : Env) (l r : List F32) : List F32 :=
  match e.p.fold with
  | .left => l
  | .mean => List.zipWith (fun a b => e.mul (e.add a b) fhalf) l r

end Sys2Proof.Machine
end

