-- ==== Sys2Proof/Machine/Fir.lean ====
section
/-! DEFINITION. The windowed-sinc designer (40_fir_windowed_sinc.md): the ideal lowpass, the windows, inversion, COMMIT and
QUANTIZE, and the meanings of WSFIR.LP, WSFIR.HP, WSFIR.BS and WSFIR.BP. -/

namespace Sys2Proof.Machine

/-- 2·PI32, the product `f32(2) *f PI32` of R71, R72, R82, R91 and R120. -/
def twoPi (e : Env) : F32 := e.mul ftwo pi32

/-- `f32(n) -f (f32(N-1) /f f32(2))`: the distance of tap n from the centre (R71, R91). -/
def tapOffset (e : Env) (taps n : Nat) : F32 := e.sub (natF n) (e.div (natF (taps - 1)) ftwo)

/-- `IDEAL_LP(N, fc)[n]` (R71). -/
def idealTap (e : Env) (taps : Nat) (fc : F32) (n : Nat) : F32 :=
  if 2 * n = taps - 1 then e.mul ftwo fc
  else
    let t := tapOffset e taps n
    e.div (e.f.sinf (e.mul (e.mul (twoPi e) fc) t)) (e.mul pi32 t)

/-- The window argument with factor c, `((f32(c) *f PI32) *f f32(n)) /f Mf` (R72). -/
def windowArg (e : Env) (c : F32) (taps n : Nat) : F32 :=
  e.div (e.mul (e.mul c pi32) (natF n)) (natF (taps - 1))

/-- `WINDOW(N, win)[n]` (R72). -/
def windowTap (e : Env) (win : Win) (taps n : Nat) : F32 :=
  if taps = 1 then fone
  else
    let c1 := e.f.cosf (windowArg e ftwo taps n)
    match win with
    | .blackman =>
      e.add (e.sub (litF 42 100) (e.mul fhalf c1)) (e.mul (litF 8 100) (e.f.cosf (windowArg e (litF 4 1) taps n)))
    | .hanning => e.mul fhalf (e.sub fone c1)
    | .hamming => e.sub (litF 54 100) (e.mul (litF 46 100) c1)

/-- `WS_LP(N, win, fc)` (R73). -/
def wsLp (e : Env) (taps : Nat) (win : Win) (fc : F32) : List F32 :=
  (List.range taps).map fun n => e.mul (idealTap e taps fc n) (windowTap e win taps n)

/-- `INVERT(h)` (R74): every tap negated, one added at the centre (N−1)/2. -/
def invert (e : Env) (h : List F32) : List F32 :=
  h.mapIdx fun n x => if n = (h.length - 1) / 2 then e.add (fneg x) fone else fneg x

/-- The h of WSFIR.HP before COMMIT (R79). -/
def wsHp (e : Env) (taps : Nat) (win : Win) (fc : F32) : List F32 := invert e (wsLp e taps win fc)

/-- The h of WSFIR.BS before COMMIT (R80). -/
def wsBs (e : Env) (taps : Nat) (win : Win) (fc1 fc2 : F32) : List F32 :=
  List.zipWith e.add (wsLp e taps win fc1) (invert e (wsLp e taps win fc2))

/-- The h of WSFIR.BP before COMMIT (R81). -/
def wsBp (e : Env) (taps : Nat) (win : Win) (fc1 fc2 : F32) : List F32 := invert e (wsBs e taps win fc1 fc2)

/-- The quantized coefficient of QUANTIZE (R77), as the s16 value. -/
def quantInt (e : Env) (h : F32) : Int :=
  let p := e.mul h e.p.qScale
  if isNaN p then 0
  else if isInf p then (if fsign p then -32768 else 32767)
  else sat16 (roundAway p)

/-- The word a QCOEF slot holds: sext_32 of the s16 value (R36). -/
def quantWord (e : Env) (h : F32) : Word := BitVec.ofInt 32 (quantInt e h)

/-- `QUANTIZE()` (R77): every QCOEF slot rewritten from HCOEF. -/
def quantizeMem (e : Env) (m : Memory) : Memory :=
  Memory.writeWords m qcoefBase ((Memory.readWords m hcoefBase e.p.nmax).map (quantWord e))

/-- HCOEF[0..N-1] <- h and HCOEF[N..NMAX-1] <- +0.0 (R76). -/
def storeTaps (p : Params) (m : Memory) (h : List F32) : Memory :=
  Memory.writeWords m hcoefBase (h ++ zeros (p.nmax - h.length))

/-- `COMMIT(h, N)` (R76). -/
def State.commit (s : State) (h : List F32) (n : Nat) : State :=
  { s with mem := quantizeMem s.env (storeTaps s.cfg s.mem h), hLen := BitVec.ofNat 32 n }.done

/-- A design command: the first failing check, or COMMIT (R75, R76, R88). -/
def State.design (s : State) (check : Option ErrCode) (h : List F32) (n : Nat) : State :=
  match check with
  | some c => s.fail c
  | none => s.commit h n

/-- WSFIR.LP (R78). -/
def execWsfirLp (win : Win) (n : Nat) (s : State) : Host.Outcome State Fault Refusal :=
  .next (s.design (checkWsLp s.env s.snap.args n) (wsLp s.env n win s.snap.args.fc2) n)

/-- WSFIR.HP (R79). -/
def execWsfirHp (win : Win) (n : Nat) (s : State) : Host.Outcome State Fault Refusal :=
  .next (s.design (checkWsHp s.env s.snap.args n) (wsHp s.env n win s.snap.args.fc1) n)

/-- WSFIR.BP (R81). -/
def execWsfirBp (win : Win) (n : Nat) (s : State) : Host.Outcome State Fault Refusal :=
  .next (s.design (checkWsBand s.env s.snap.args n) (wsBp s.env n win s.snap.args.fc1 s.snap.args.fc2) n)

/-- WSFIR.BS (R80). -/
def execWsfirBs (win : Win) (n : Nat) (s : State) : Host.Outcome State Fault Refusal :=
  .next (s.design (checkWsBand s.env s.snap.args n) (wsBs s.env n win s.snap.args.fc1 s.snap.args.fc2) n)

end Sys2Proof.Machine
end

