-- ==== Sys2Proof/Machine/Gain.lean ====
section
/-! DEFINITION. The gain normalizer (41_fir_gain.md): the meanings of GAIN.QUERY and GAIN.SCALE. -/

namespace Sys2Proof.Machine

/-- The fold of h against a reference at normalized frequency f (R82). -/
def corrSum (e : Env) (h : List F32) (f : F32) (ref : F32 → F32) : F32 :=
  e.sum (h.mapIdx fun n x => e.mul x (ref (e.mul (e.mul (twoPi e) f) (natF n))))

/-- `CORR(h, L, f)` (R82). -/
def corr (e : Env) (h : List F32) (f : F32) : F32 :=
  let c := corrSum e h f e.f.cosf
  let s := corrSum e h f e.f.sinf
  e.sqrt (e.add (e.mul c c) (e.mul s s))

/-- The stored design HCOEF[0..H_LEN-1] (R30). -/
def State.taps (s : State) : List F32 := s.hcoef s.hLen.toNat

/-- The argument checks of GAIN.QUERY (R83). -/
def checkQuery (s : State) : Option ErrCode :=
  firstErr [failIf (s.hLen == 0) .range,
    failIf (!isFinite s.snap.args.gfreq || s.env.lt s.snap.args.gfreq fzero || s.env.lt fhalf s.snap.args.gfreq) .range]

/-- GAIN.QUERY (R83). -/
def execGainQuery (s : State) : Host.Outcome State Fault Refusal :=
  match checkQuery s with
  | some c => .next (s.fail c)
  | none =>
    if isFinite (corr s.env s.taps s.snap.args.gfreq) then
      .next { s with gain := corr s.env s.taps s.snap.args.gfreq }.done
    else .next (s.fail .range)

/-- The argument checks of GAIN.SCALE (R84). -/
def checkScale (s : State) : Option ErrCode :=
  firstErr [failIf (s.hLen == 0) .range,
    failIf (!isFinite s.snap.args.gscale || !s.env.lt fzero s.snap.args.gscale) .range]

/-- The factor after the ceiling (R84). -/
def cappedScale (s : State) : F32 := s.env.min s.snap.args.gscale s.cfg.gscaleMax

/-- The scaled taps t of R84. -/
def scaledTaps (s : State) : List F32 := s.taps.map fun h => s.env.mul h (cappedScale s)

/-- GAIN.SCALE (R84). An infinite product fails RANGE; a NaN product, which only a NaN coefficient gives, is stored (log 28). -/
def execGainScale (s : State) : Host.Outcome State Fault Refusal :=
  match checkScale s with
  | some c => .next (s.fail c)
  | none =>
    if (scaledTaps s).any isInf then .next (s.fail .range)
    else .next { s with mem := quantizeMem s.env (Memory.writeWords s.mem hcoefBase (scaledTaps s)) }.done

end Sys2Proof.Machine
end

