-- ==== Sys2Proof/Machine/Kaiser.lean ====
section
/-! DEFINITION. The Kaiser-windowed designer (42_fir_kaiser.md): β, the Bessel series, the window, and the meanings of the
five KAISER commands. -/

namespace Sys2Proof.Machine

/-- `BETA(A)` (R85, 90_conflicts.md C3). -/
def kaiserBeta (e : Env) (a : F32) : F32 :=
  if e.le a (litF 21 1) then fzero
  else if e.lt a (litF 50 1) then
    let d := e.sub a (litF 21 1)
    e.add (e.mul (litF 5842 10000) (e.f.powf d (litF 4 10))) (e.mul (litF 7886 100000) d)
  else e.mul (litF 1102 10000) (e.sub a (litF 87 10))

/-- The passes of the `repeat` loop of R86 from pass k on. The first argument bounds the passes. -/
def i0Loop (e : Env) (x2 : F32) : Nat → Nat → F32 → F32 → F32
  | 0, _, _, s => s
  | passes + 1, k, t, s =>
    let u := e.div x2 (natF k)
    let t' := e.mul t (e.mul u u)
    let s' := e.add s t'
    if e.le (e.mul e.p.i0Eps s') t' then i0Loop e x2 passes (k + 1) t' s' else s'

/-- A pass count no operand exceeds: from pass 2^128 on f32(k) is infinite, so the term is 0 or NaN and the loop ends
(log 16). -/
def i0Passes : Nat := 2 ^ 129

/-- `I0(x)` (R86). -/
def besselI0 (e : Env) (x : F32) : F32 := i0Loop e (e.div x ftwo) i0Passes 1 fone fone

/-- `KW(N, β)[n]` (R87), `i0b` being I0(β). -/
def kaiserTap (e : Env) (taps : Nat) (beta i0b : F32) (n : Nat) : F32 :=
  if taps = 1 then fone
  else
    let mf := natF (taps - 1)
    let x := e.div (e.sub (e.mul ftwo (natF n)) mf) mf
    let r := e.max fzero (e.sub fone (e.mul x x))
    e.div (besselI0 e (e.mul beta (e.sqrt r))) i0b

/-- The window of a command: `KW(N, BETA(KASTOP))[n]`. -/
def kaiserWin (e : Env) (taps : Nat) (kastop : F32) (n : Nat) : F32 :=
  kaiserTap e taps (kaiserBeta e kastop) (besselI0 e (kaiserBeta e kastop)) n

/-- The h of KAISER.LP before COMMIT (R89). -/
def kaiserLpTaps (e : Env) (taps : Nat) (kf kastop : F32) : List F32 :=
  (List.range taps).map fun n => e.mul (idealTap e taps kf n) (kaiserWin e taps kastop n)

/-- The h of KAISER.BP before COMMIT (R91): a lowpass prototype of cutoff KDF shifted to KF. -/
def kaiserBpTaps (e : Env) (taps : Nat) (kf kdf kastop : F32) : List F32 :=
  (List.range taps).map fun n =>
    let p := e.mul (idealTap e taps kdf n) (kaiserWin e taps kastop n)
    e.mul p (e.mul ftwo (e.f.cosf (e.mul (e.mul (twoPi e) kf) (tapOffset e taps n))))

/-- The h of KAISER.HILBERT before COMMIT (R93). -/
def hilbertTaps (e : Env) (taps : Nat) (kastop : F32) : List F32 :=
  let c := (taps - 1) / 2
  (List.range taps).map fun n =>
    if n = c then fone
    else if n % 2 = 0 then fzero
    else e.mul (e.div ftwo (e.mul pi32 (intF ((n : Int) - (c : Int))))) (kaiserWin e taps kastop n)

/-- KAISER.LP (R89). -/
def execKaiserLp (n : Nat) (s : State) : Host.Outcome State Fault Refusal :=
  .next (s.design (checkKaiserLp s.env s.snap.args n) (kaiserLpTaps s.env n s.snap.args.kf s.snap.args.kastop) n)

/-- KAISER.HP (R90). -/
def execKaiserHp (n : Nat) (s : State) : Host.Outcome State Fault Refusal :=
  .next (s.design (checkKaiserHp s.env s.snap.args n)
    (invert s.env (kaiserLpTaps s.env n s.snap.args.kf s.snap.args.kastop)) n)

/-- KAISER.BP (R91). -/
def execKaiserBp (n : Nat) (s : State) : Host.Outcome State Fault Refusal :=
  .next (s.design (checkKaiserBp s.env s.snap.args n)
    (kaiserBpTaps s.env n s.snap.args.kf s.snap.args.kdf s.snap.args.kastop) n)

/-- KAISER.BS (R92). -/
def execKaiserBs (n : Nat) (s : State) : Host.Outcome State Fault Refusal :=
  .next (s.design (checkKaiserBs s.env s.snap.args n)
    (invert s.env (kaiserBpTaps s.env n s.snap.args.kf s.snap.args.kdf s.snap.args.kastop)) n)

/-- KAISER.HILBERT (R93). -/
def execKaiserHilbert (n : Nat) (s : State) : Host.Outcome State Fault Refusal :=
  .next (s.design (checkHilbert s.env s.snap.args n) (hilbertTaps s.env n s.snap.args.kastop) n)

end Sys2Proof.Machine
end

