-- ==== Sys2Proof/Machine/Lms.lean ====
section
/-! DEFINITION. The normalized-LMS engine (43_nlms.md). -/

namespace Sys2Proof.Machine

/-- What an engine gives for one block: its new state, the output block, and whether every value written to a state
element was finite (48_mode_control.md R131, log 15). -/
structure BlockResult (σ : Type) where
  st : σ
  out : List F32
  ok : Bool

/-- The step size µ of R94 from LMS_STRENGTH. -/
def lmsMu (e : Env) (strength : Word) : F32 :=
  e.div fone (e.f.pow10f (e.div (intF strength.toInt) e.p.muDb))

/-- LMS initialization (R95). -/
def lmsInit (e : Env) (t : TuneRegs) : LmsState :=
  { ring := zeros (2 * e.p.blk), wc := 0, w := zeros e.p.lmsTaps, hist := zeros (e.p.lmsTaps - 1),
    mu := lmsMu e t.lmsStrength }

/-- `l[at + i] <- x[i]` for every i of x. -/
def splice (l : List F32) (at' : Nat) (x : List F32) : List F32 :=
  l.take at' ++ x ++ l.drop (at' + x.length)

/-- One sample of the filter (R97): the new weights and the error. `u` is the input window, newest first. The error is
`r -f y` of the pseudocode also where r is +0.0 and y is -0.0, so +0.0 by R17, where a corner case of R97 says -0.0 (log 29). -/
def lmsSample (e : Env) (mu : F32) (w u : List F32) (r : F32) : List F32 × F32 :=
  let y := e.sum (List.zipWith e.mul w u)
  let err := e.sub r y
  let en := e.add (e.sum (u.map fun v => e.mul v v)) e.p.epsLms
  let k := e.div (e.mul mu err) en
  (List.zipWith (fun wj uj => e.add wj (e.mul k uj)) w u, err)

/-- What the sample loop of R97 carries. `past` is the input so far, newest first. -/
structure LmsRun where
  w : List F32
  past : List F32
  out : List F32
  ok : Bool

/-- The sample loop of R97 over pairs (x[n], r[n]); `out` comes out in order. -/
def lmsLoop (e : Env) (mu : F32) : List (F32 × F32) → List F32 → List F32 → LmsRun
  | [], w, past => { w := w, past := past, out := [], ok := true }
  | (x, r) :: rest, w, past =>
    let res := lmsSample e mu w ((x :: past).take e.p.lmsTaps) r
    let next := lmsLoop e mu rest res.1 (x :: past)
    { next with out := res.2 :: next.out, ok := allFinite res.1 && next.ok }

/-- `NLMS_BLOCK(x)` (R96, R97). -/
def nlmsBlock (e : Env) (st : LmsState) (x : List F32) : BlockResult LmsState :=
  let rc := (st.wc + e.p.blk) % (2 * e.p.blk)
  let ring := splice st.ring st.wc x
  let r := (ring.drop rc).take e.p.blk
  let run := lmsLoop e st.mu (List.zip x r) st.w st.hist
  { st := { ring := ring, wc := rc, w := run.w, hist := run.past.take (e.p.lmsTaps - 1), mu := st.mu }
    out := run.out
    ok := allFinite x && run.ok }

end Sys2Proof.Machine
end

