-- ==== Sys2Proof/Machine/Anr.lean ====
section
/-! DEFINITION. The variable-leak LMS engine (44_anr_leaky.md), used for the NR and the NOTCH instance. -/

namespace Sys2Proof.Machine

/-- The leakage law LEAK_K · LIDX⁴ (R99, R100). -/
def leakOf (e : Env) (lidx : F32) : F32 := e.mul e.p.leakK (e.mul (e.mul lidx lidx) (e.mul lidx lidx))

/-- `ANR_INIT(i)` (R99). -/
def anrInit (e : Env) (t : TuneRegs) : AnrState :=
  { ring := zeros e.p.anrDl, idx := 0, w := zeros e.p.anrTapsMax, lidx := t.anrLidxMin, leak := leakOf e t.anrLidxMin,
    nt := t.anrTaps.toNat, nd := t.anrDelay.toNat }

/-- The delayed window d[0..NT-1] (R100). -/
def anrWindow (p : Params) (ring : List F32) (idx nt nd : Nat) : List F32 :=
  (List.range nt).map fun j => getF ring ((idx + j + nd) % p.anrDl)

/-- Which output an instance gives (R100): NOTCH the error, NR the prediction. -/
inductive AnrOut where
  | notch
  | nr
deriving DecidableEq, Repr

/-- One sample of R100: the new instance state and the output sample. -/
def anrSample (e : Env) (kind : AnrOut) (t : TuneRegs) (st : AnrState) (xs : F32) : AnrState × F32 :=
  let mu := t.anrMu
  let lo := t.anrLidxMin
  let hi := e.max t.anrLidxMax lo
  let ring := st.ring.set st.idx xs
  let d := anrWindow e.p ring st.idx st.nt st.nd
  let y := e.sum (List.zipWith e.mul (st.w.take st.nt) d)
  let sigma := e.sum (d.map fun v => e.mul v v)
  let inv := e.div fone (e.add sigma e.p.epsAnr)
  let err := e.sub xs y
  let nel := fabs (e.mul err (e.sub fone (e.mul (e.mul mu sigma) inv)))
  let nev := fabs (e.sub (e.sub xs (e.mul (e.sub fone (e.mul mu st.leak)) y)) (e.mul (e.mul (e.mul mu err) sigma) inv))
  let lidx := if e.lt nev nel then e.min (e.add st.lidx e.p.lincr) hi else e.max (e.sub st.lidx e.p.ldecr) lo
  let leak := leakOf e lidx
  let c0 := e.sub fone (e.mul mu leak)
  let c1 := e.mul (e.mul mu err) inv
  let w := List.zipWith (fun wj dj => e.add (e.mul c0 wj) (e.mul c1 dj)) (st.w.take st.nt) d ++ st.w.drop st.nt
  ({ st with ring := ring, idx := (st.idx + e.p.anrDl - 1) % e.p.anrDl, w := w, lidx := lidx, leak := leak },
    match kind with
    | .notch => err
    | .nr => y)

/-- Every value one sample writes to the state is finite (R131): the new ring element, the index, the leak, the taps. -/
def anrWroteFinite (xs : F32) (st : AnrState) : Bool :=
  isFinite xs && isFinite st.lidx && isFinite st.leak && allFinite (st.w.take st.nt)

/-- `ANR_BLOCK(i, x)` (R100). -/
def anrBlock (e : Env) (kind : AnrOut) (t : TuneRegs) : AnrState → List F32 → BlockResult AnrState
  | st, [] => { st := st, out := [], ok := true }
  | st, xs :: rest =>
    let res := anrSample e kind t st xs
    let next := anrBlock e kind t res.1 rest
    { next with out := res.2 :: next.out, ok := anrWroteFinite xs res.1 && next.ok }

end Sys2Proof.Machine
end

