-- ==== Sys2Proof/Machine/Flags.lean ====
section
/-! DEFINITION. The STATUS word and its fields (10_state.md R28). The block has no other flags. -/

namespace Sys2Proof.Machine

/-- The code of STATUS.ERR (60_exceptions.md R134). -/
def errCode : ErrCode → Nat
  | .ok => 0
  | .illegal => 1
  | .range => 2
  | .unset => 3
  | .badMode => 4
  | .unimpl => 5

/-- The code of STATUS.MODE (48_mode_control.md R123). -/
def modeCode : Mode → Nat
  | .bypass => 0
  | .off => 1
  | .lms => 2
  | .kim => 3
  | .heur1 => 4
  | .heur2 => 5
  | .mmse => 6
  | .anr => 7

/-- The mode of a CODE; 8 and above are unrecognized (R123). -/
def modeOf : Nat → Option Mode
  | 0 => some .bypass
  | 1 => some .off
  | 2 => some .lms
  | 3 => some .kim
  | 4 => some .heur1
  | 5 => some .heur2
  | 6 => some .mmse
  | 7 => some .anr
  | _ => none

/-- The state of a spectral mode from its frame count: 0 UNINITIALIZED, 1 WARMING, 2 STEADY (45_spectral_kim.md R102). -/
def specOf (warmup cnt : Nat) : Nat :=
  if cnt = 0 then 0 else if cnt < warmup then 1 else 2

/-- STATUS.SPEC: the state of the active mode if it is KIM or MMSE, else 0 (R28, R102). -/
def State.spec (s : State) : Nat :=
  match s.mode with
  | .kim => specOf s.cfg.kimWarmup s.kim.fe.cnt
  | .mmse => specOf s.cfg.mmseWarmup s.mmse.fe.cnt
  | _ => 0

/-- A Bool as a bit. -/
def bit (b : Bool) : Nat := if b then 1 else 0

/-- The STATUS word (R28): BUSY bit 0, DROP bit 1, ERR 7:4, MODE 10:8, NOTCH 11, SPEC 13:12, the rest 0. -/
def State.statusWord (s : State) : Word :=
  BitVec.ofNat 32
    (bit s.busy + 2 * bit s.drop + 16 * errCode s.err + 256 * modeCode s.mode + 2048 * bit s.notchEn + 4096 * s.spec)

end Sys2Proof.Machine
end

