-- ==== Sys2Proof/Machine/Spectral.lean ====
section
/-! DEFINITION. The two spectral estimators (45_spectral_kim.md, 46_spectral_mmse.md) and the frame engine that calls them
(47_frame_engine.md). A gain list holds the gains of the bins K_LO to K_HI in order. -/

namespace Sys2Proof.Machine

/-- The per-bin power (R105). -/
def binPower (e : Env) (c : Cplx) : F32 := e.add (e.mul c.re c.re) (e.mul c.im c.im)

/-- The powers P[K_LO..K_HI] of a transform. -/
def bandPowers (e : Env) (z : List Cplx) : List F32 :=
  (List.range (bandLen e.p)).map fun j => binPower e (z.getD (kLo e.p + j) ⟨fzero, fzero⟩)

/-- What a gain stage gives for one frame: its new bins, the gains, and whether every value written was finite. -/
structure GainResult (β : Type) where
  bins : List β
  gains : List F32
  ok : Bool

/-- Kim initialization (R104). -/
def kimInit (p : Params) : KimState :=
  { bins := List.replicate (bandLen p) { x := zeros p.kimL, e := zeros p.kimN, gts := fzero }
    xi := 0
    ei := 0
    fe := { fin := zeros p.blk, fout := zeros p.blk, cnt := 0 } }

/-- The minimum of a non-empty history, a fold of fmin from its first element (R106). -/
def minF (e : Env) : List F32 → F32
  | [] => fzero
  | t :: ts => ts.foldl e.min t

/-- The raw gain G of R106 and R107 from the power, the short-term average and the minimum. -/
def kimGain (e : Env) (t : TuneRegs) (p eav m : F32) : F32 :=
  let ratio := e.div p (e.add m e.p.epsSpec)
  let lam := if e.lt t.kimPsi ratio then m else eav
  let ref := if t.kimRef = 0 then p else eav
  e.max fzero (e.sub fone (e.div (e.mul lam t.kimK) (e.add ref e.p.epsSpec)))

/-- One band bin in one frame (R106, R107, R108, R110). -/
def kimBinStep (e : Env) (t : TuneRegs) (xi ei : Nat) (b : KimBin) (p : F32) : KimBin :=
  let x := b.x.set xi p
  let eav := e.div (e.sum x) (natF e.p.kimL)
  let es := b.e.set ei eav
  let g := kimGain e t p eav (minF e es)
  { x := x, e := es, gts := e.add (e.mul t.alpha b.gts) (e.mul (e.sub fone t.alpha) g) }

/-- What one bin wrote is finite (R131). -/
def kimBinFinite (xi ei : Nat) (b : KimBin) : Bool :=
  isFinite (getF b.x xi) && isFinite (getF b.e ei) && isFinite b.gts

/-- Frequency smoothing (R109) of the time-smoothed gains. -/
def freqSmooth (e : Env) (beta : F32) (g : List F32) : List F32 :=
  let c := e.sub fone (e.mul ftwo beta)
  let edge := e.sub fone beta
  (List.range g.length).map fun j =>
    if g.length = 1 then getF g 0
    else if j = 0 then e.add (e.mul edge (getF g 0)) (e.mul beta (getF g 1))
    else if j + 1 = g.length then e.add (e.mul beta (getF g (j - 1))) (e.mul edge (getF g j))
    else e.add (e.add (e.mul beta (getF g (j - 1))) (e.mul c (getF g j))) (e.mul beta (getF g (j + 1)))

/-- `KIM_GAINS(X, warm)` (R103, R110) on the band powers. -/
def kimGains (e : Env) (t : TuneRegs) (st : KimState) (powers : List F32) (warm : Bool) : GainResult KimBin :=
  let bins := List.zipWith (kimBinStep e t st.xi st.ei) st.bins powers
  { bins := bins
    gains := if warm then List.replicate bins.length fone else freqSmooth e t.beta (bins.map KimBin.gts)
    ok := bins.all (kimBinFinite st.xi st.ei) }

/-- MMSE initialization (R111). -/
def mmseInit (p : Params) : MmseState :=
  { bins := List.replicate (bandLen p) { nest := fzero, gprev := fzero, gamprev := fzero, gams := fzero, spp := fzero }
    fe := { fin := zeros p.blk, fout := zeros p.blk, cnt := 0 } }

/-- The warm-up update of one bin (R112). -/
def mmseWarmBin (e : Env) (b : MmseBin) (p : F32) : MmseBin :=
  { b with nest := e.add b.nest (e.div p (natF e.p.mmseWarmup)) }

/-- The a-posteriori ratio r of R113. -/
def mmseRatio (e : Env) (b : MmseBin) (p : F32) : F32 := e.div p (e.add b.nest e.p.epsSpec)

/-- One bin of a steady frame: R113, then R115, then R114 (R117). `gprev` is the gain of this frame. -/
def mmseSteadyBin (e : Env) (alpha : F32) (b : MmseBin) (p : F32) : MmseBin :=
  let r := mmseRatio e b p
  let rest := e.sub fone alpha
  let gam := e.clamp r e.p.gammaMin e.p.gammaMax
  let gams := e.add (e.mul alpha b.gams) (e.mul rest gam)
  let xi :=
    e.clamp
      (e.add (e.mul alpha (e.mul (e.mul b.gprev b.gprev) b.gamprev)) (e.mul rest (e.max (e.sub gam fone) fzero)))
      e.p.xiMin e.p.xiMax
  let g := e.clamp (e.f.mmseGain xi gams) e.p.gmMin e.p.gmMax
  let q := e.f.sppMap r
  let a := if e.le e.p.sppThresh b.spp then e.p.sppASlow else e.p.sppAFast
  let spp := e.add (e.mul a b.spp) (e.mul (e.sub fone a) q)
  let nest :=
    if e.lt spp e.p.sppThresh then e.add (e.mul e.p.alphaN b.nest) (e.mul (e.sub fone e.p.alphaN) p) else b.nest
  { nest := nest, gprev := g, gamprev := gam, gams := gams, spp := spp }

/-- What a steady frame wrote to a bin is finite (R131). -/
def mmseBinFinite (b : MmseBin) : Bool :=
  isFinite b.nest && isFinite b.gprev && isFinite b.gamprev && isFinite b.gams && isFinite b.spp

/-- The energy ratio ρ of R116. -/
def noiseRatio (e : Env) (g powers : List F32) : F32 :=
  let num := e.sum (List.zipWith (fun gk pk => e.mul (e.mul gk gk) pk) g powers)
  e.div num (e.add (e.sum powers) e.p.epsSpec)

/-- The moving average of half-width h, the window cut at the band edges (R116). -/
def movingAverage (e : Env) (h : Nat) (g : List F32) : List F32 :=
  (List.range g.length).map fun k =>
    let a := k - h
    let b := min (g.length - 1) (k + h)
    e.div (e.sum ((g.drop a).take (b - a + 1))) (natF (b - a + 1))

/-- The musical-noise pass (R116). -/
def musicalNoise (e : Env) (g powers : List F32) : List F32 :=
  let rho := noiseRatio e g powers
  if e.lt rho e.p.mnThresh then movingAverage e ((e.f.mnWidth rho - 1) / 2) g else g

/-- `MMSE_GAINS(X, warm)` (R103, R117) on the band powers. -/
def mmseGains (e : Env) (t : TuneRegs) (st : MmseState) (powers : List F32) (warm : Bool) : GainResult MmseBin :=
  if warm then
    let bins := List.zipWith (mmseWarmBin e) st.bins powers
    { bins := bins, gains := List.replicate bins.length fone, ok := bins.all fun b => isFinite b.nest }
  else
    let bins := List.zipWith (mmseSteadyBin e t.alpha) st.bins powers
    { bins := bins, gains := musicalNoise e (bins.map MmseBin.gprev) powers, ok := bins.all mmseBinFinite }

/-- `HANN[n]`, the periodic Hann window (R120). -/
def hannTap (e : Env) (n : Nat) : F32 :=
  e.mul fhalf (e.sub fone (e.f.cosf (e.div (e.mul (twoPi e) (natF n)) (natF (nfft e.p)))))

/-- `RHANN[n]` (R120). -/
def rhannTap (e : Env) (n : Nat) : F32 := e.sqrt (hannTap e n)

/-- The windowed frame z of R121 under an analysis window. -/
def windowedFrame (e : Env) (wa : Nat → F32) (fin x : List F32) : List Cplx :=
  (fin ++ x).mapIdx fun n a => ⟨e.mul a (wa n), fzero⟩

/-- The gain of index n of the transform: that of band bin n or of the bin it mirrors; other bins pass (R121, log 17). -/
def applyGain (e : Env) (g : List F32) (n : Nat) (c : Cplx) : Cplx :=
  let scale := fun k => (⟨e.mul c.re (getF g (k - kLo e.p)), e.mul c.im (getF g (k - kLo e.p))⟩ : Cplx)
  if kLo e.p ≤ n ∧ n ≤ kHi e.p then scale n
  else if kLo e.p ≤ nfft e.p - n ∧ nfft e.p - n ≤ kHi e.p then scale (nfft e.p - n)
  else c

/-- The new frame state and the output block of R121 from the inverse transform's windowed real part. -/
def overlapAdd (e : Env) (warmup : Nat) (fe : FrameState) (x vr : List F32) : BlockResult FrameState :=
  { st := { fin := x, fout := vr.drop e.p.blk, cnt := min (fe.cnt + 1) (cntMax warmup) }
    out := List.zipWith e.add (vr.take e.p.blk) fe.fout
    ok := allFinite x && allFinite (vr.drop e.p.blk) }

/-- `FRAME(KIM, x)` (R121): analysis window HANN, no synthesis window. The first frame after activation gives what the
pseudocode gives, where a corner case of R121 and R155 say zero (log 31). -/
def frameKim (e : Env) (t : TuneRegs) (st : KimState) (x : List F32) : BlockResult KimState :=
  let warm := decide (st.fe.cnt < e.p.kimWarmup)
  let z := e.f.fft (windowedFrame e (hannTap e) st.fe.fin x)
  let g := kimGains e t st (bandPowers e z) warm
  let v := e.f.ifft (z.mapIdx (applyGain e g.gains))
  let o := overlapAdd e e.p.kimWarmup st.fe x (v.map Cplx.re)
  { st := { bins := g.bins, xi := (st.xi + 1) % e.p.kimL, ei := (st.ei + 1) % e.p.kimN, fe := o.st }
    out := o.out
    ok := g.ok && o.ok }

/-- `FRAME(MMSE, x)` (R121): windows RHANN before and after. The first frame is that of the pseudocode (log 31). -/
def frameMmse (e : Env) (t : TuneRegs) (st : MmseState) (x : List F32) : BlockResult MmseState :=
  let warm := decide (st.fe.cnt < e.p.mmseWarmup)
  let z := e.f.fft (windowedFrame e (rhannTap e) st.fe.fin x)
  let g := mmseGains e t st (bandPowers e z) warm
  let v := e.f.ifft (z.mapIdx (applyGain e g.gains))
  let o := overlapAdd e e.p.mmseWarmup st.fe x (v.mapIdx fun n c => e.mul c.re (rhannTap e n))
  { st := { bins := g.bins, fe := o.st }
    out := o.out
    ok := g.ok && o.ok }

end Sys2Proof.Machine
end

