-- ==== Sys2Proof/Machine/Mode.lean ====
section
/-! DEFINITION. Mode control and block processing (48_mode_control.md): the meanings of NOP, MODE.SELECT, NOTCH.ON,
NOTCH.OFF and PROCESS. -/

namespace Sys2Proof.Machine

/-- NOP (R125). -/
def execNop (s : State) : Host.Outcome State Fault Refusal := .next s.done

/-- A mode is made active and its state reset (R126). -/
def State.activate (s : State) (m : Mode) : State :=
  match m with
  | .lms => { s with mode := .lms, lms := lmsInit s.env s.snap.tune }
  | .kim => { s with mode := .kim, kim := kimInit s.cfg }
  | .mmse => { s with mode := .mmse, mmse := mmseInit s.cfg }
  | .anr => { s with mode := .anr, anrNr := anrInit s.env s.snap.tune }
  | .bypass | .off | .heur1 | .heur2 => { s with mode := m }

/-- MODE.SELECT (R126): a CODE of 8 or more is BADMODE. -/
def execModeSelect (code : Nat) (s : State) : Host.Outcome State Fault Refusal :=
  match modeOf code with
  | none => .next (s.fail .badMode)
  | some m => .next (s.activate m).done

/-- NOTCH.ON (R127). -/
def execNotchOn (s : State) : Host.Outcome State Fault Refusal :=
  .next { s with anrNotch := anrInit s.env s.snap.tune, notchEn := true }.done

/-- NOTCH.OFF (R128). -/
def execNotchOff (s : State) : Host.Outcome State Fault Refusal :=
  .next { s with notchEn := false }.done

/-- The heuristic modes (R124). -/
def Mode.undeveloped : Mode → Bool
  | .heur1 | .heur2 => true
  | _ => false

/-- The modes that have no algorithm of their own (R123, R124). -/
def Mode.actsAsOff : Mode → Bool
  | .off | .heur1 | .heur2 => true
  | _ => false

/-- `finish(md)` (R132): UNIMPL in the heuristic modes, else OK. -/
def State.finishMode (s : State) : State := s.finish (if s.mode.undeveloped then .unimpl else .ok)

/-- The active mode's engine on the folded block (R132); the modes without one leave it. -/
def runMode (s : State) (m : List F32) : BlockResult State :=
  match s.mode with
  | .lms =>
    let r := nlmsBlock s.env s.lms m
    { st := { s with lms := r.st }, out := r.out, ok := r.ok }
  | .kim =>
    let r := frameKim s.env s.snap.tune s.kim m
    { st := { s with kim := r.st }, out := r.out, ok := r.ok }
  | .mmse =>
    let r := frameMmse s.env s.snap.tune s.mmse m
    { st := { s with mmse := r.st }, out := r.out, ok := r.ok }
  | .anr =>
    let r := anrBlock s.env .nr s.snap.tune s.anrNr m
    { st := { s with anrNr := r.st }, out := r.out, ok := r.ok }
  | .bypass | .off | .heur1 | .heur2 => { st := s, out := m, ok := true }

/-- The notch after the mode, if enabled (R132). -/
def runNotch (s : State) (m : List F32) : BlockResult State :=
  if s.notchEn then
    let r := anrBlock s.env .notch s.snap.tune s.anrNotch m
    { st := { s with anrNotch := r.st }, out := r.out, ok := r.ok }
  else { st := s, out := m, ok := true }

/-- The mirrored output: both sample buffers take the block (R132). -/
def State.mirror (s : State) (m : List F32) : State :=
  { s with mem := Memory.writeWords (Memory.writeWords s.mem sampLBase m) sampRBase m }

/-- The body of PROCESS from `FOLD()` on (R132), with the output guard R131. -/
def processBlock (s : State) : Host.Outcome State Fault Refusal :=
  let r := runMode s (foldBlock s.env s.left s.right)
  let q := runNotch r.st r.out
  if r.ok && q.ok && allFinite q.out then .next (q.st.mirror q.out).finishMode else .refused .overflow

/-- PROCESS (R130, R132). -/
def execProcess (s : State) : Host.Outcome State Fault Refusal :=
  if !s.sampsWritten then .refused .unwritten
  else if !s.sampsOk then .next (s.fail .range)
  else if s.mode = .bypass then .next s.done
  else if s.mode.actsAsOff && s.cfg.offOutput == .pass && !s.notchEn then .next s.finishMode
  else processBlock s

end Sys2Proof.Machine
end

