-- ==== Sys2Proof/Machine/Window.lean ====
section
/-! DEFINITION. The register window as the host sees it: the map of 10_state.md R26, the access types, the WARL rule R33,
and the host's accesses (20_memory.md R49, R51, R56). -/

namespace Sys2Proof.Machine

/-- The argument registers by name (R31). -/
inductive ArgReg where
  | fc1
  | fc2
  | gfreq
  | gscale
  | kf
  | kastop
  | kdf
deriving DecidableEq, Repr

/-- The tuning registers by name (R32). -/
inductive TuneReg where
  | lmsStrength
  | kimK
  | kimPsi
  | kimRef
  | alpha
  | beta
  | anrTaps
  | anrDelay
  | anrMu
  | anrLidxMin
  | anrLidxMax
deriving DecidableEq, Repr

/-- What stands at a word offset of the window (R26, R45). -/
inductive Loc where
  | cmd
  | status
  | gain
  | hLen
  | arg (r : ArgReg)
  | tune (r : TuneReg)
  | sampL (i : Nat)
  | sampR (i : Nat)
  | hcoef (n : Nat)
  | qcoef (n : Nat)
  | reserved
deriving DecidableEq, Repr

/-- The registers below 0x1000 (R26). -/
def regAt : Nat → Loc
  | 0x000 => .cmd
  | 0x004 => .status
  | 0x008 => .gain
  | 0x00C => .hLen
  | 0x010 => .arg .fc1
  | 0x014 => .arg .fc2
  | 0x018 => .arg .gfreq
  | 0x01C => .arg .gscale
  | 0x020 => .arg .kf
  | 0x024 => .arg .kastop
  | 0x028 => .arg .kdf
  | 0x040 => .tune .lmsStrength
  | 0x044 => .tune .kimK
  | 0x048 => .tune .kimPsi
  | 0x04C => .tune .kimRef
  | 0x050 => .tune .alpha
  | 0x054 => .tune .beta
  | 0x058 => .tune .anrTaps
  | 0x05C => .tune .anrDelay
  | 0x060 => .tune .anrMu
  | 0x064 => .tune .anrLidxMin
  | 0x068 => .tune .anrLidxMax
  | _ => .reserved

/-- Slot i of a buffer of n slots; past its end is reserved (R45). -/
def slotAt (n i : Nat) (mk : Nat → Loc) : Loc := if i < n then mk i else .reserved

/-- What stands at an aligned offset (R26, R46). -/
def locate (p : Params) (a : Nat) : Loc :=
  if a < 0x1000 then regAt a
  else if a < 0x2000 then slotAt p.blk ((a - sampLBase) / 4) .sampL
  else if a < 0x3000 then slotAt p.blk ((a - sampRBase) / 4) .sampR
  else if a < 0x4000 then .reserved
  else if a < 0x8000 then slotAt p.nmax ((a - hcoefBase) / 4) .hcoef
  else if a < 0xC000 then slotAt p.nmax ((a - qcoefBase) / 4) .qcoef
  else .reserved

/-- The value of an argument register. -/
def ArgRegs.get (t : ArgRegs) : ArgReg → F32
  | .fc1 => t.fc1
  | .fc2 => t.fc2
  | .gfreq => t.gfreq
  | .gscale => t.gscale
  | .kf => t.kf
  | .kastop => t.kastop
  | .kdf => t.kdf

/-- A write to an argument register stores any pattern (R31). -/
def ArgRegs.set (t : ArgRegs) (r : ArgReg) (v : F32) : ArgRegs :=
  match r with
  | .fc1 => { t with fc1 := v }
  | .fc2 => { t with fc2 := v }
  | .gfreq => { t with gfreq := v }
  | .gscale => { t with gscale := v }
  | .kf => { t with kf := v }
  | .kastop => { t with kastop := v }
  | .kdf => { t with kdf := v }

/-- The value of a tuning register. -/
def tuneGet (t : TuneRegs) : TuneReg → Word
  | .lmsStrength => t.lmsStrength
  | .kimK => t.kimK
  | .kimPsi => t.kimPsi
  | .kimRef => t.kimRef
  | .alpha => t.alpha
  | .beta => t.beta
  | .anrTaps => t.anrTaps
  | .anrDelay => t.anrDelay
  | .anrMu => t.anrMu
  | .anrLidxMin => t.anrLidxMin
  | .anrLidxMax => t.anrLidxMax

/-- The record with one tuning register replaced. -/
def tuneSet (t : TuneRegs) (r : TuneReg) (v : Word) : TuneRegs :=
  match r with
  | .lmsStrength => { t with lmsStrength := v }
  | .kimK => { t with kimK := v }
  | .kimPsi => { t with kimPsi := v }
  | .kimRef => { t with kimRef := v }
  | .alpha => { t with alpha := v }
  | .beta => { t with beta := v }
  | .anrTaps => { t with anrTaps := v }
  | .anrDelay => { t with anrDelay := v }
  | .anrMu => { t with anrMu := v }
  | .anrLidxMin => { t with anrLidxMin := v }
  | .anrLidxMax => { t with anrLidxMax := v }

/-- legal(w) for an f32 register with range [lo, hi] (R33): NaN and infinities keep the old value, else the clamp, with
-0.0 stored as +0.0 where lo = +0.0. -/
def legalizeF (e : Env) (lo hi old w : F32) : F32 :=
  if !isFinite w then old
  else if lo == fzero && e.clamp w lo hi == 0x80000000 then fzero
  else e.clamp w lo hi

/-- legal(w) for a u32 register with range [lo, hi] (R33). -/
def legalizeU (lo hi : Nat) (w : Word) : Word := BitVec.ofNat 32 (min (max w.toNat lo) hi)

/-- legal(w) for LMS_STRENGTH, w read as s32 (R33). -/
def legalizeS (lo hi : Int) (w : Word) : Word := BitVec.ofInt 32 (clampInt w.toInt lo hi)

/-- legal(w) of a tuning register, `old` its present value (R32, R33). -/
def legalize (e : Env) (r : TuneReg) (old w : Word) : Word :=
  match r with
  | .lmsStrength => legalizeS e.p.sMin e.p.sMax w
  | .kimK => legalizeF e fzero e.p.kMax old w
  | .kimPsi => legalizeF e e.p.psiMin e.p.psiMax old w
  | .kimRef => BitVec.ofNat 32 (w.toNat % 2)
  | .alpha => legalizeF e fzero fone old w
  | .beta => legalizeF e fzero fhalf old w
  | .anrTaps => legalizeU 1 e.p.anrTapsMax w
  | .anrDelay => legalizeU 1 e.p.anrDelayMax w
  | .anrMu => legalizeF e fzero e.p.muAMax old w
  | .anrLidxMin => legalizeF e e.p.lidxLo e.p.lidxHi old w
  | .anrLidxMax => legalizeF e e.p.lidxLo e.p.lidxHi old w

/-- A sample slot as the host reads it: its word, or an unspecified one while unwritten (R34, log 8). -/
def State.sampRead (s : State) (a : Nat) : Word :=
  match Memory.readWord s.mem a with
  | some w => w
  | none => Config.unwrittenWord s.epoch a

/-- The word a host read returns (R26, R27, R45). -/
def State.readLoc (s : State) : Loc → Word
  | .cmd => 0
  | .status => s.statusWord
  | .gain => s.gain
  | .hLen => s.hLen
  | .arg r => s.args.get r
  | .tune r => tuneGet s.tune r
  | .sampL i => s.sampRead (sampLBase + 4 * i)
  | .sampR i => s.sampRead (sampRBase + 4 * i)
  | .hcoef n => (Memory.readWord s.mem (hcoefBase + 4 * n)).getD 0
  | .qcoef n => (Memory.readWord s.mem (qcoefBase + 4 * n)).getD 0
  | .reserved => 0

/-- What a host write does (R26, R27, R33, R34, R45): RO and reserved locations ignore it. -/
def State.writeLoc (s : State) (l : Loc) (w : Word) : State :=
  match l with
  | .cmd => s.issue w
  | .arg r => { s with args := s.args.set r w }
  | .tune r => { s with tune := tuneSet s.tune r (legalize s.env r (tuneGet s.tune r) w) }
  | .sampL i => { s with mem := Memory.writeWord s.mem (sampLBase + 4 * i) w }
  | .sampR i => { s with mem := Memory.writeWord s.mem (sampRBase + 4 * i) w }
  | .status | .gain | .hLen | .hcoef _ | .qcoef _ | .reserved => s

/-- The locations whose read is a race while BUSY (R56). -/
def Loc.readRaces : Loc → Bool
  | .gain | .hLen | .sampL _ | .sampR _ | .hcoef _ | .qcoef _ => true
  | .cmd | .status | .arg _ | .tune _ | .reserved => false

/-- The locations whose write is a race while BUSY (R56). -/
def Loc.writeRaces : Loc → Bool
  | .sampL _ | .sampR _ => true
  | _ => false

/-- The one access form there is: 4 bytes at a 4-byte-aligned offset (R49). -/
def accessOk (width : Nat) (off : Off) : Bool := width == 4 && off.toNat % 4 == 0

/-- `MemRead(off, width)` (R15, R49, R51, R56, R148); the word goes to the host (log 21, log 24). -/
def hostRead (s : State) (width : Nat) (off : Off) : Host.Outcome State Fault Refusal :=
  if s.inReset then .refused .resetAsserted
  else if !accessOk width off then .refused .accessWidth
  else if s.busy && (locate s.cfg off.toNat).readRaces then .refused .race
  else .next { s with rdata := s.readLoc (locate s.cfg off.toNat) }

/-- `MemWrite(off, width, v)` (R15, R49, R51, R56, R148; log 21). -/
def hostWrite (s : State) (width : Nat) (off : Off) (v : Word) : Host.Outcome State Fault Refusal :=
  if s.inReset then .refused .resetAsserted
  else if !accessOk width off then .refused .accessWidth
  else if s.busy && (locate s.cfg off.toNat).writeRaces then .refused .race
  else .next (s.writeLoc (locate s.cfg off.toNat) v)

/-- One event on a state whose inbox no longer holds it. -/
def eventWith (run : Instr → State → Host.Outcome State Fault Refusal) (s : State) :
    Event → Host.Outcome State Fault Refusal
  | .core => coreMoveWith run s
  | .read width off => hostRead s width off
  | .write width off v => hostWrite s width off v
  | .resetAssert => .next s.assertReset
  | .resetRelease => .next { s with inReset := false }

/-- One step: the next event, or with none left a move of the core (log 9, log 10). -/
def stepWith (run : Instr → State → Host.Outcome State Fault Refusal) (s : State) :
    Host.Outcome State Fault Refusal :=
  match s.inbox with
  | [] => coreMoveWith run s
  | ev :: rest => eventWith run { s with inbox := rest } ev

end Sys2Proof.Machine
end

