-- ==== Sys2Proof/Machine/Dispatch.lean ====
section
/-! DEFINITION. One arm per command. -/

namespace Sys2Proof.Machine

def exec (i : Instr) (s : State) : Host.Outcome State Fault Refusal :=
  match i with
  | .nop => Sys2Proof.Machine.execNop s
  | .wsfirLp win n => Sys2Proof.Machine.execWsfirLp win n s
  | .wsfirHp win n => Sys2Proof.Machine.execWsfirHp win n s
  | .wsfirBp win n => Sys2Proof.Machine.execWsfirBp win n s
  | .wsfirBs win n => Sys2Proof.Machine.execWsfirBs win n s
  | .kaiserLp n => Sys2Proof.Machine.execKaiserLp n s
  | .kaiserHp n => Sys2Proof.Machine.execKaiserHp n s
  | .kaiserBp n => Sys2Proof.Machine.execKaiserBp n s
  | .kaiserBs n => Sys2Proof.Machine.execKaiserBs n s
  | .kaiserHilbert n => Sys2Proof.Machine.execKaiserHilbert n s
  | .gainQuery => Sys2Proof.Machine.execGainQuery s
  | .gainScale => Sys2Proof.Machine.execGainScale s
  | .modeSelect code => Sys2Proof.Machine.execModeSelect code s
  | .notchOff => Sys2Proof.Machine.execNotchOff s
  | .notchOn => Sys2Proof.Machine.execNotchOn s
  | .process => Sys2Proof.Machine.execProcess s

end Sys2Proof.Machine
end

