-- ==== Sys2Proof/Machine/Step.lean ====
section
/-! DEFINITION. One step of the machine, and the state whose next step runs a given command word. -/

namespace Sys2Proof.Machine

/-- The next event of the inbox, or a move of the core where none is left (20_memory.md R53, R57). -/
def step (s : State) : Host.Outcome State Fault Refusal := stepWith exec s

/-- The block fetches nothing (20_memory.md R58): its next instruction is the word a host CMD write put in the snapshot.
This is `s` with the word accepted and a core move as the next event (log 11). -/
def State.withFetchWord (s : State) (nbits w : Nat) : State := s.withCommand (BitVec.ofNat 32 (w % 2 ^ nbits))

end Sys2Proof.Machine
end

