-- ==== Sys2Proof/Safety.lean ====
section
/-! DEFINITION. What claims speak of: legal machines, well-formed states, completed commands, and their results. -/

namespace Sys2Proof.Machine

/-- The outcome is a next state: the machine neither stopped nor was given no meaning. -/
def Completes (o : Host.Outcome State Fault Refusal) : Prop := ∃ t, o = .next t

/-- One step can take the first state to the second. -/
def Steps (s t : State) : Prop := step s = .next t

/-- The second state is reached from the first by finitely many steps. -/
inductive Reaches (s : State) : State → Prop where
  | here : Reaches s s
  | more (t u : State) : Reaches s t → Steps t u → Reaches s u

/-- The design is as 10_state.md R30 and R35 and 40_fir_windowed_sinc.md R77 leave it: at most NMAX taps, +0.0 past them,
and QCOEF the quantized copy of HCOEF. -/
def DesignConsistent (s : State) : Prop :=
  s.hLen.toNat ≤ s.cfg.nmax
    ∧ (∀ n, s.hLen.toNat ≤ n → n < s.cfg.nmax → Memory.readWord s.mem (hcoefBase + 4 * n) = some fzero)
    ∧ (∀ n, n < s.cfg.nmax →
        ∃ h, Memory.readWord s.mem (hcoefBase + 4 * n) = some h
          ∧ Memory.readWord s.mem (qcoefBase + 4 * n) = some (quantWord s.env h))

/-- The shape of the normalized-LMS state (10_state.md R38). -/
def LmsShape (p : Params) (st : LmsState) : Prop :=
  st.ring.length = 2 * p.blk ∧ (st.wc = 0 ∨ st.wc = p.blk) ∧ st.w.length = p.lmsTaps
    ∧ st.hist.length = p.lmsTaps - 1

/-- The shape of a variable-leak instance (R39). -/
def AnrShape (p : Params) (st : AnrState) : Prop :=
  st.ring.length = p.anrDl ∧ st.idx < p.anrDl ∧ st.w.length = p.anrTapsMax
    ∧ 1 ≤ st.nt ∧ st.nt ≤ p.anrTapsMax ∧ 1 ≤ st.nd ∧ st.nd ≤ p.anrDelayMax

/-- The shape of a frame state (R40). -/
def FrameShape (p : Params) (warmup : Nat) (fe : FrameState) : Prop :=
  fe.fin.length = p.blk ∧ fe.fout.length = p.blk ∧ fe.cnt ≤ cntMax warmup

/-- The shape of the Kim state (R41). -/
def KimShape (p : Params) (st : KimState) : Prop :=
  st.bins.length = bandLen p ∧ (∀ b ∈ st.bins, b.x.length = p.kimL ∧ b.e.length = p.kimN)
    ∧ st.xi < p.kimL ∧ st.ei < p.kimN ∧ FrameShape p p.kimWarmup st.fe

/-- The shape of the MMSE state (R42). -/
def MmseShape (p : Params) (st : MmseState) : Prop :=
  st.bins.length = bandLen p ∧ FrameShape p p.mmseWarmup st.fe

/-- The shapes of every engine's state. -/
def EngineShapes (s : State) : Prop :=
  LmsShape s.cfg s.lms ∧ AnrShape s.cfg s.anrNr ∧ AnrShape s.cfg s.anrNotch ∧ KimShape s.cfg s.kim
    ∧ MmseShape s.cfg s.mmse

/-- The tuning registers hold legal values, in the registers and in the snapshot (R32, R33). -/
def TuningLegal (s : State) : Prop :=
  legalTune s.cfg s.tune = true ∧ legalTune s.cfg s.snap.tune = true

/-- A machine with a legal parameter set (00_scope.md R8 to R13) and its window in canonical form. -/
def LegalMachine (s : State) : Prop := s.cfg.wf = true ∧ Memory.wf s.mem = true

/-- Coefficient n of the design (R35). -/
def coefAt (s : State) (n : Nat) : F32 := (Memory.readWord s.mem (hcoefBase + 4 * n)).getD fzero

/-- The design commands (40_fir_windowed_sinc.md, 42_fir_kaiser.md). -/
def DesignCommand : Instr → Prop
  | .wsfirLp _ _ | .wsfirHp _ _ | .wsfirBp _ _ | .wsfirBs _ _ => True
  | .kaiserLp _ | .kaiserHp _ | .kaiserBp _ | .kaiserBs _ | .kaiserHilbert _ => True
  | .nop | .gainQuery | .gainScale | .modeSelect _ | .notchOff | .notchOn | .process => False

/-- Every byte outside HCOEF and QCOEF is as before. -/
def OnlyDesignBytes (s t : State) : Prop :=
  ∀ a, (a < hcoefBase ∨ hcoefBase + 4 * s.cfg.nmax ≤ a) → (a < qcoefBase ∨ qcoefBase + 4 * s.cfg.nmax ≤ a) →
    Memory.readByte t.mem a = Memory.readByte s.mem a

/-- Every byte outside SAMP_L and SAMP_R is as before. -/
def OnlySampleBytes (s t : State) : Prop :=
  ∀ a, (a < sampLBase ∨ sampLBase + 4 * s.cfg.blk ≤ a) → (a < sampRBase ∨ sampRBase + 4 * s.cfg.blk ≤ a) →
    Memory.readByte t.mem a = Memory.readByte s.mem a

/-- What a successful design command leaves (R76, R77): n taps, +0.0 after them, QCOEF quantized from HCOEF, H_LEN, OK, and
nothing else changed. -/
def DesignResult (s t : State) (n : Nat) (tap : Nat → F32) : Prop :=
  (∀ i, i < n → Memory.readWord t.mem (hcoefBase + 4 * i) = some (tap i))
    ∧ (∀ i, n ≤ i → i < s.cfg.nmax → Memory.readWord t.mem (hcoefBase + 4 * i) = some fzero)
    ∧ (∀ i, i < s.cfg.nmax → Memory.readWord t.mem (qcoefBase + 4 * i)
        = some (quantWord s.env (if i < n then tap i else fzero)))
    ∧ OnlyDesignBytes s t
    ∧ t = { s with mem := t.mem, hLen := BitVec.ofNat 32 n, err := .ok, busy := false }

/-- A design edge or Kaiser frequency the checks accept (R75 steps 3 and 4, R88 steps 4 and 5). -/
def FreqOk (e : Env) (x : F32) : Prop :=
  isZero x = false ∧ isFinite x = true ∧ e.lt fzero x = true ∧ e.lt x fhalf = true

/-- A stopband attenuation the checks accept (R88 step 3). -/
def StopbandOk (e : Env) (a : F32) : Prop :=
  isFinite a = true ∧ e.lt a fzero = false ∧ e.lt e.p.aMax a = false

/-- Every sample slot is written, finite and at most X_MAX in magnitude (48_mode_control.md R130). -/
def BlockReady (s : State) : Prop :=
  ∀ i, i < s.cfg.blk → ∀ base, (base = sampLBase ∨ base = sampRBase) →
    ∃ v, Memory.readWord s.mem (base + 4 * i) = some v ∧ isFinite v = true ∧ s.env.lt s.cfg.xMax (fabs v) = false

/-- Sample i of a channel, once written. -/
def sampAt (s : State) (base i : Nat) : F32 := (Memory.readWord s.mem (base + 4 * i)).getD fzero

/-- Both channels hold the block (R132). -/
def BlockWritten (s t : State) (out : List F32) : Prop :=
  (∀ i, i < s.cfg.blk → Memory.readWord t.mem (sampLBase + 4 * i) = some (getF out i)
      ∧ Memory.readWord t.mem (sampRBase + 4 * i) = some (getF out i))
    ∧ OnlySampleBytes s t

/-- The core is idle while reset is asserted (70_reset_and_hazards.md R148). -/
def ResetIdle (s : State) : Prop := s.inReset = true → s.busy = false

end Sys2Proof.Machine
end

