-- ==== Sys2Proof/Certificates/Slice0/Obligations.lean ====
section
/-! DEFINITION. The statements for the provers. Rule numbers are those of spec/. -/

open Sys2Proof Sys2Proof.Machine

/-! ### Encoding (30_encoding.md) -/

/-- R61, R62, R66: the encoder and the decoder are inverse to each other. Every command with operands in range decodes from
its own word, and a word that decodes is the word of what it decodes to. -/
def Obligations.DecodeAndEncodeAgree : Prop :=
  (∀ i : Instr, i.wf = true → decode (encode i) = .ok i)
    ∧ ∀ (w : Word) (i : Instr), decode w = .ok i → i.wf = true ∧ encode i = w

/-- R66: `decode` is the table read row by row, and no two rows match one word. -/
def Obligations.DecodeIsTheOpcodeTable : Prop :=
  (∀ w : Word, decodeByTable w = match decode w with
      | .ok i => some i
      | .error _ => none)
    ∧ decodeRows.length = 16
    ∧ decodeRows.Pairwise fun a b => ∀ w : Word, ¬(w &&& a.mask = a.pattern ∧ w &&& b.mask = b.pattern)

/-- Words written out from 30_encoding.md R61 to R66 decode as 95_test_vectors.md V-ENC-1 says. -/
def Obligations.SampleWordsDecode : Prop :=
  decode 0x00000000 = .ok .nop
    ∧ decode 0x01020005 = .ok (.wsfirLp .hamming 5)
    ∧ decode 0x01310005 = .ok (.wsfirBs .hanning 5)
    ∧ decode 0x02400009 = .ok (.kaiserHilbert 9)
    ∧ decode 0x03100000 = .ok .gainScale
    ∧ decode 0x080000FF = .ok (.modeSelect 255)
    ∧ decode 0x09100000 = .ok .notchOn
    ∧ decode 0x0A000000 = .ok .process

/-- R67: a word is ILLEGAL exactly for a reserved OP, TYPE or WIN or a nonzero bit in a field marked 0, and the core's move on
an ILLEGAL word changes STATUS.ERR and STATUS.BUSY and nothing else. -/
def Obligations.IllegalWordsChangeOnlyStatus : Prop :=
  (∀ w : Word, (∃ e, decode w = .error e) ↔
      ((4 ≤ opField w ∧ opField w ≤ 7) ∨ 0x0B ≤ opField w
        ∨ (opField w = 0x01 ∧ (4 ≤ typeField w ∨ 3 ≤ winField w))
        ∨ (opField w = 0x02 ∧ (5 ≤ typeField w ∨ winField w ≠ 0))
        ∨ ((opField w = 0x03 ∨ opField w = 0x09) ∧ (2 ≤ typeField w ∨ w.toNat % 2 ^ 20 ≠ 0))
        ∨ (opField w = 0x08 ∧ w.toNat / 2 ^ 8 % 2 ^ 16 ≠ 0)
        ∨ ((opField w = 0x00 ∨ opField w = 0x0A) ∧ w.toNat % 2 ^ 24 ≠ 0)))
    ∧ ∀ (s : State) (e : Illegal) (rest : List Event), s.busy = true → decode s.snap.cmd = .error e →
        (s.inbox = [] → step s = .next { s with err := .illegal, busy := false })
          ∧ (s.inbox = .core :: rest → step s = .next { s with inbox := rest, err := .illegal, busy := false })

/-- R68, R126: a CODE of 8 to 255 decodes as MODE.SELECT, which then changes nothing but STATUS. -/
def Obligations.UnknownModeCodesDoNothing : Prop :=
  ∀ c : Nat, 8 ≤ c → c < 256 →
    decode (BitVec.ofNat 32 (0x08000000 + c)) = .ok (.modeSelect c)
      ∧ ∀ s : State, exec (.modeSelect c) s = .next { s with err := .badMode, busy := false }

/-! ### Steps, host accesses, registers -/

/-- R57, R122, R147: while BUSY, a core move runs the accepted word's command on the state; while idle it keeps all state; and
`withFetchWord` leaves exactly one step between a word and its command. How moves and inputs are ordered is log 9, what an
idle step does log 10, and the placing of a word log 11. -/
def Obligations.StepRunsTheAcceptedCommand : Prop :=
  (∀ (s : State) (i : Instr), s.inbox = [] → s.busy = true → decode s.snap.cmd = .ok i → step s = exec i s)
    ∧ (∀ (s : State) (i : Instr) (rest : List Event), s.inbox = .core :: rest → s.busy = true →
        decode s.snap.cmd = .ok i → step s = exec i { s with inbox := rest })
    ∧ (∀ s : State, s.inbox = [] → s.busy = false → step s = .next s)
    ∧ (∀ (s : State) (rest : List Event), s.inbox = .core :: rest → s.busy = false →
        step s = .next { s with inbox := rest })
    ∧ ∀ (s : State) (nbits w : Nat) (i : Instr), decode (BitVec.ofNat 32 (w % 2 ^ nbits)) = .ok i →
        step (s.withFetchWord nbits w)
          = exec i
              { s with
                busy := true
                drop := false
                snap := { cmd := BitVec.ofNat 32 (w % 2 ^ nbits), args := s.args, tune := s.tune }
                inReset := false }

/-- R27, R122, R54: a write to CMD issues the word if BUSY = 0, taking the snapshot and clearing DROP; while BUSY = 1 it only
sets DROP; a read of CMD returns 0. -/
def Obligations.CmdWriteIssuesOrDrops : Prop :=
  ∀ (s : State) (w : Word) (rest : List Event), s.inReset = false →
    (s.inbox = .write 4 0x000 w :: rest → s.busy = false →
        step s = .next
          { s with inbox := rest, busy := true, drop := false, snap := { cmd := w, args := s.args, tune := s.tune } })
      ∧ (s.inbox = .write 4 0x000 w :: rest → s.busy = true → step s = .next { s with inbox := rest, drop := true })
      ∧ (s.inbox = .read 4 0x000 :: rest → step s = .next { s with inbox := rest, rdata := 0x00000000 })

/-- R31, R26: an argument register stores any pattern and reads it back; a write changes no other register and no read changes
anything but the host's word. -/
def Obligations.ArgumentRegistersHoldAnyPattern : Prop :=
  ∀ (s : State) (off : Off) (r : ArgReg) (v : Word) (rest : List Event), s.inReset = false →
    (off, r) ∈ [((0x010 : Off), ArgReg.fc1), (0x014, .fc2), (0x018, .gfreq), (0x01C, .gscale), (0x020, .kf),
      (0x024, .kastop), (0x028, .kdf)] →
    (s.inbox = .write 4 off v :: rest →
        ∃ t, step s = .next t ∧ t = { s with inbox := rest, args := t.args } ∧ t.args.get r = v
          ∧ ∀ r', r' ≠ r → t.args.get r' = s.args.get r')
      ∧ (s.inbox = .read 4 off :: rest → step s = .next { s with inbox := rest, rdata := s.args.get r })

/-- R32, R33, R26: a write to a tuning register stores the legal value, leaves every other register alone, and reads back.
Floats keep the old value on NaN or infinity, else take the clamp, with -0.0 stored as +0.0 where the lower bound is +0.0;
integers take the clamp, the word read as s32 for LMS_STRENGTH and as u32 otherwise; KIM_REF takes bit 0. -/
def Obligations.TuningWritesStoreLegalValues : Prop :=
  ∀ (s : State) (off : Off) (r : TuneReg) (v : Word) (rest : List Event), s.cfg.wf = true → s.inReset = false →
    (off, r) ∈ [((0x040 : Off), TuneReg.lmsStrength), (0x044, .kimK), (0x048, .kimPsi), (0x04C, .kimRef), (0x050, .alpha),
      (0x054, .beta), (0x058, .anrTaps), (0x05C, .anrDelay), (0x060, .anrMu), (0x064, .anrLidxMin),
      (0x068, .anrLidxMax)] →
    (s.inbox = .write 4 off v :: rest →
        ∃ t, step s = .next t ∧ t = { s with inbox := rest, tune := t.tune }
          ∧ (∀ r', r' ≠ r → tuneGet t.tune r' = tuneGet s.tune r')
          ∧ (let f := fun lo hi : F32 =>
              if isFinite v = false then tuneGet s.tune r
              else if lo = fzero ∧ s.env.clamp v lo hi = 0x80000000 then fzero
              else s.env.clamp v lo hi
            match r with
            | .lmsStrength => (tuneGet t.tune r).toInt = min (max v.toInt s.cfg.sMin) s.cfg.sMax
            | .kimRef => (tuneGet t.tune r).toNat = v.toNat % 2
            | .anrTaps => (tuneGet t.tune r).toNat = min (max v.toNat 1) s.cfg.anrTapsMax
            | .anrDelay => (tuneGet t.tune r).toNat = min (max v.toNat 1) s.cfg.anrDelayMax
            | .kimK => tuneGet t.tune r = f fzero s.cfg.kMax
            | .kimPsi => tuneGet t.tune r = f s.cfg.psiMin s.cfg.psiMax
            | .alpha => tuneGet t.tune r = f fzero fone
            | .beta => tuneGet t.tune r = f fzero fhalf
            | .anrMu => tuneGet t.tune r = f fzero s.cfg.muAMax
            | .anrLidxMin => tuneGet t.tune r = f s.cfg.lidxLo s.cfg.lidxHi
            | .anrLidxMax => tuneGet t.tune r = f s.cfg.lidxLo s.cfg.lidxHi))
      ∧ (s.inbox = .read 4 off :: rest → step s = .next { s with inbox := rest, rdata := tuneGet s.tune r })

/-- R45: a read of a reserved offset returns 0 and a write to one is ignored, at every offset outside the map of R26 and at
every buffer slot past B or NMAX. -/
def Obligations.ReservedOffsetsReadZero : Prop :=
  ∀ (s : State) (off : Off) (v : Word) (rest : List Event), s.inReset = false → off.toNat % 4 = 0 →
    ((0x02C ≤ off.toNat ∧ off.toNat < 0x040) ∨ (0x06C ≤ off.toNat ∧ off.toNat < 0x1000)
      ∨ (0x1000 + 4 * s.cfg.blk ≤ off.toNat ∧ off.toNat < 0x2000)
      ∨ (0x2000 + 4 * s.cfg.blk ≤ off.toNat ∧ off.toNat < 0x4000)
      ∨ (0x4000 + 4 * s.cfg.nmax ≤ off.toNat ∧ off.toNat < 0x8000)
      ∨ 0x8000 + 4 * s.cfg.nmax ≤ off.toNat) →
    (s.inbox = .read 4 off :: rest → step s = .next { s with inbox := rest, rdata := 0x00000000 })
      ∧ (s.inbox = .write 4 off v :: rest → step s = .next { s with inbox := rest })

/-- R26, R51, R29, R30, R35, R36: writes to STATUS, GAIN, H_LEN, HCOEF and QCOEF are ignored, and a read returns the value (of
the last four: while BUSY = 0). -/
def Obligations.ResultRegistersAreReadOnly : Prop :=
  ∀ (s : State) (off : Off) (v : Word) (rest : List Event), s.cfg.wf = true → s.inReset = false →
    (s.inbox = .write 4 off v :: rest →
        (off = 0x004 ∨ off = 0x008 ∨ off = 0x00C
          ∨ ∃ n, n < s.cfg.nmax ∧ (off.toNat = 0x4000 + 4 * n ∨ off.toNat = 0x8000 + 4 * n)) →
        step s = .next { s with inbox := rest })
      ∧ (s.inbox = .read 4 off :: rest →
          (off = 0x004 → step s = .next { s with inbox := rest, rdata := s.statusWord })
            ∧ (s.busy = false → off = 0x008 → step s = .next { s with inbox := rest, rdata := s.gain })
            ∧ (s.busy = false → off = 0x00C → step s = .next { s with inbox := rest, rdata := s.hLen })
            ∧ (s.busy = false → ∀ n, n < s.cfg.nmax → off.toNat = 0x4000 + 4 * n ∨ off.toNat = 0x8000 + 4 * n →
                ∃ w, Memory.readWord s.mem off.toNat = some w
                  ∧ step s = .next { s with inbox := rest, rdata := w }))

/-- R28, R102, R134: the fields of STATUS stand where the rule puts them, the reserved bits read 0, ERR never exceeds 5 and SPEC
never reads 3. -/
def Obligations.StatusWordFields : Prop :=
  ∀ s : State,
    let w := s.statusWord.toNat
    w % 2 = (if s.busy then 1 else 0)
      ∧ w / 2 % 2 = (if s.drop then 1 else 0)
      ∧ w / 4 % 4 = 0
      ∧ w / 16 % 16 = (match s.err with
          | .ok => 0 | .illegal => 1 | .range => 2 | .unset => 3 | .badMode => 4 | .unimpl => 5)
      ∧ w / 256 % 8 = (match s.mode with
          | .bypass => 0 | .off => 1 | .lms => 2 | .kim => 3 | .heur1 => 4 | .heur2 => 5 | .mmse => 6 | .anr => 7)
      ∧ w / 2048 % 2 = (if s.notchEn then 1 else 0)
      ∧ w / 16384 = 0
      ∧ (s.mode ≠ .kim → s.mode ≠ .mmse → w / 4096 % 4 = 0)
      ∧ (∀ (warmup cnt : Nat),
          (s.mode = .kim ∧ warmup = s.cfg.kimWarmup ∧ cnt = s.kim.fe.cnt)
            ∨ (s.mode = .mmse ∧ warmup = s.cfg.mmseWarmup ∧ cnt = s.mmse.fe.cnt) →
          (w / 4096 % 4 = 0 ↔ cnt = 0) ∧ (w / 4096 % 4 = 1 ↔ 0 < cnt ∧ cnt < warmup)
            ∧ (w / 4096 % 4 = 2 ↔ max warmup 1 ≤ cnt))

/-- R34, R50, R53: a host write to a sample slot while BUSY = 0 stores the word at its bytes, in either channel, and changes no
other byte and no other state; a read of a written slot returns its word. -/
def Obligations.SampleSlotsReadBack : Prop :=
  ∀ (s : State) (off : Off) (i : Nat) (v : Word) (rest : List Event), LegalMachine s → s.inReset = false →
    s.busy = false → i < s.cfg.blk → (off.toNat = 0x1000 + 4 * i ∨ off.toNat = 0x2000 + 4 * i) →
    (s.inbox = .write 4 off v :: rest →
        ∃ t, step s = .next t ∧ t = { s with inbox := rest, mem := t.mem }
          ∧ Memory.readWord t.mem off.toNat = some v
          ∧ (∀ j, j < 4 → Memory.readByte t.mem (off.toNat + j) = some (BitVec.ofNat 8 (v.toNat / 2 ^ (8 * j))))
          ∧ ∀ a, (a < off.toNat ∨ off.toNat + 4 ≤ a) → Memory.readByte t.mem a = Memory.readByte s.mem a)
      ∧ (s.inbox = .read 4 off :: rest → ∀ w, Memory.readWord s.mem off.toNat = some w →
          step s = .next { s with inbox := rest, rdata := w })

/-- R56: while BUSY = 1, a write to a sample slot and a read of a sample slot, a coefficient, GAIN or H_LEN are races and
refused; reads of STATUS and accesses to argument and tuning registers are not. -/
def Obligations.BusyAccessesAreRaces : Prop :=
  ∀ (s : State) (off : Off) (v : Word) (rest : List Event), s.cfg.wf = true → s.inReset = false → s.busy = true →
    off.toNat % 4 = 0 →
    (s.inbox = .write 4 off v :: rest →
        (∃ i, i < s.cfg.blk ∧ (off.toNat = 0x1000 + 4 * i ∨ off.toNat = 0x2000 + 4 * i)) →
        step s = .refused .race)
      ∧ (s.inbox = .read 4 off :: rest →
          (off = 0x008 ∨ off = 0x00C
            ∨ (∃ i, i < s.cfg.blk ∧ (off.toNat = 0x1000 + 4 * i ∨ off.toNat = 0x2000 + 4 * i))
            ∨ (∃ n, n < s.cfg.nmax ∧ (off.toNat = 0x4000 + 4 * n ∨ off.toNat = 0x8000 + 4 * n))) →
          step s = .refused .race)
      ∧ ((0x010 ≤ off.toNat ∧ off.toNat < 0x02C) ∨ (0x040 ≤ off.toNat ∧ off.toNat < 0x06C) ∨ off = 0x004 →
          (s.inbox = .read 4 off :: rest → Completes (step s)) ∧ (s.inbox = .write 4 off v :: rest → Completes (step s)))

/-- R49, R148: an access that is not one aligned 32-bit word is refused; so is any access while reset is asserted. Asserting
reset gives every piece of state its reset value, and releasing it changes nothing else. The model's choices here: which
refusal wins where several apply, reset before width before race (log 21); the engine state reset leaves, zeros with NT = ND = 1
where R149 leaves it unspecified (log 7); the snapshot it leaves (log 12); and what it leaves of the model's own fields
(log 14). -/
def Obligations.MalformedAccessesAndReset : Prop :=
  ∀ (s : State) (width : Nat) (off : Off) (v : Word) (rest : List Event),
    (s.inReset = false → (width ≠ 4 ∨ off.toNat % 4 ≠ 0) →
        (s.inbox = .read width off :: rest → step s = .refused .accessWidth)
          ∧ (s.inbox = .write width off v :: rest → step s = .refused .accessWidth))
      ∧ (s.inReset = true →
          (s.inbox = .read width off :: rest → step s = .refused .resetAsserted)
            ∧ (s.inbox = .write width off v :: rest → step s = .refused .resetAsserted))
      ∧ (s.inbox = .resetAssert :: rest →
          step s = .next
            { State.resetOf s.cfg with inbox := rest, rdata := s.rdata, inReset := true, epoch := s.epoch + 1 })
      ∧ (s.inbox = .resetRelease :: rest → step s = .next { s with inbox := rest, inReset := false })

/-! ### All commands -/

/-- R54: a command reads arguments and tunables only from the snapshot. Two states that differ in the argument and tuning
registers alone run every command alike. -/
def Obligations.SnapshotIsolatesCommands : Prop :=
  ∀ (i : Instr) (s : State) (a : ArgRegs) (u : TuneRegs),
    match exec i s with
    | .next t => exec i { s with args := a, tune := u } = .next { t with args := a, tune := u }
    | .fault f => exec i { s with args := a, tune := u } = .fault f
    | .refused r => exec i { s with args := a, tune := u } = .refused r

/-- R133, R134, R16: a command that ends with any code but OK and UNIMPL has changed nothing except STATUS.ERR and STATUS.BUSY. -/
def Obligations.FailedCommandsChangeOnlyStatus : Prop :=
  ∀ (i : Instr) (s t : State), exec i s = .next t → t.err ≠ .ok → t.err ≠ .unimpl →
    t = { s with err := t.err, busy := false }

/-- What every command leaves alone: the parameters, the inputs, the argument and tuning registers, the snapshot and DROP
always (R31, R54, R135), the mode, the notch enable and H_LEN unless it is a command that writes them (R126, R127, R128, R76),
and every byte of the window outside what it writes (R76, R84, R132). BUSY returns to 0 (R122). -/
def Obligations.CommandFrames : Prop :=
  ∀ (i : Instr) (s t : State), exec i s = .next t →
    (t.busy = false ∧ t.cfg = s.cfg ∧ t.inbox = s.inbox ∧ t.inReset = s.inReset ∧ t.epoch = s.epoch ∧ t.rdata = s.rdata
        ∧ t.args = s.args ∧ t.tune = s.tune ∧ t.snap = s.snap ∧ t.drop = s.drop)
      ∧ ((∀ c, i ≠ .modeSelect c) → t.mode = s.mode)
      ∧ (i ≠ .notchOn → i ≠ .notchOff → t.notchEn = s.notchEn)
      ∧ (i ≠ .gainQuery → t.gain = s.gain)
      ∧ (¬DesignCommand i → t.hLen = s.hLen)
      ∧ (¬DesignCommand i → i ≠ .gainScale → i ≠ .process → t.mem = s.mem)
      ∧ (DesignCommand i → OnlyDesignBytes s t)
      ∧ (i = .gainScale → s.hLen.toNat ≤ s.cfg.nmax → OnlyDesignBytes s t)
      ∧ (i = .process → OnlySampleBytes s t)

/-- R29: GAIN is +0.0 after reset, a GAIN.QUERY that ends OK leaves the correlation magnitude in it, one that fails leaves it
alone, and so does every other command and every host access. -/
def Obligations.GainIsWrittenByQueryOnly : Prop :=
  (∀ p : Params, (State.resetOf p).gain = 0x00000000)
    ∧ (∀ s t : State, exec .gainQuery s = .next t →
        t.gain = if t.err = .ok then corr s.env s.taps s.snap.args.gfreq else s.gain)
    ∧ (∀ (i : Instr) (s t : State), i ≠ .gainQuery → exec i s = .next t → t.gain = s.gain)
    ∧ ∀ (s t : State) (ev : Event) (rest : List Event), s.inbox = ev :: rest → ev ≠ .core → ev ≠ .resetAssert →
        step s = .next t → t.gain = s.gain

/-- R125, R122, R135: NOP is the word 0, sets ERR to OK and changes nothing else; any other word with OP 0 is ILLEGAL. -/
def Obligations.NopOnlySetsOk : Prop :=
  decode 0x00000000 = .ok .nop
    ∧ (∀ w : Word, opField w = 0 → w ≠ 0 → decode w = .error .nonzeroField)
    ∧ ∀ s : State, exec .nop s = .next { s with err := .ok, busy := false }

/-! ### Designs (40_fir_windowed_sinc.md, 42_fir_kaiser.md) -/

/-- R75, R136: the operand checks of the WSFIR commands in their order; the first that fails gives the code, and nothing but
STATUS changes. -/
def Obligations.WsfirChecksInOrder : Prop :=
  ∀ (s : State) (win : Win) (n : Nat) (c : ErrCode),
    let e := s.env
    let a := s.snap.args
    let inside := fun x : F32 => isFinite x = true ∧ e.lt fzero x = true ∧ e.lt x fhalf = true
    let stopped : Host.Outcome State Fault Refusal := .next { s with err := c, busy := false }
    ((if n = 0 ∨ s.cfg.nmax < n then some ErrCode.range
        else if isZero a.fc2 then some .unset
        else if ¬inside a.fc2 then some .range
        else none) = some c → exec (.wsfirLp win n) s = stopped)
      ∧ ((if n = 0 ∨ s.cfg.nmax < n then some ErrCode.range
          else if n % 2 = 0 then some .range
          else if isZero a.fc1 then some .unset
          else if ¬inside a.fc1 then some .range
          else none) = some c → exec (.wsfirHp win n) s = stopped)
      ∧ ((if n = 0 ∨ s.cfg.nmax < n then some ErrCode.range
          else if n % 2 = 0 then some .range
          else if isZero a.fc1 ∨ isZero a.fc2 then some .unset
          else if ¬(inside a.fc1 ∧ inside a.fc2) then some .range
          else if ¬(e.lt a.fc1 a.fc2 = true) then some .range
          else none) = some c → exec (.wsfirBp win n) s = stopped ∧ exec (.wsfirBs win n) s = stopped)

/-- R88, R136: the operand checks of the KAISER commands in their order. -/
def Obligations.KaiserChecksInOrder : Prop :=
  ∀ (s : State) (n : Nat) (c : ErrCode),
    let e := s.env
    let a := s.snap.args
    let inside := fun x : F32 => isFinite x = true ∧ e.lt fzero x = true ∧ e.lt x fhalf = true
    let stopband := isFinite a.kastop = true ∧ e.lt a.kastop fzero = false ∧ e.lt s.cfg.aMax a.kastop = false
    let band := e.lt fzero (e.sub a.kf a.kdf) = true ∧ e.lt (e.add a.kf a.kdf) fhalf = true
    let stopped : Host.Outcome State Fault Refusal := .next { s with err := c, busy := false }
    ((if n = 0 ∨ s.cfg.nmax < n then some ErrCode.range
        else if ¬stopband then some .range
        else if isZero a.kf then some .unset
        else if ¬inside a.kf then some .range
        else none) = some c → exec (.kaiserLp n) s = stopped)
      ∧ ((if n = 0 ∨ s.cfg.nmax < n then some ErrCode.range
          else if n % 2 = 0 then some .range
          else if ¬stopband then some .range
          else if isZero a.kf then some .unset
          else if ¬inside a.kf then some .range
          else none) = some c → exec (.kaiserHp n) s = stopped)
      ∧ ((if n = 0 ∨ s.cfg.nmax < n then some ErrCode.range
          else if ¬stopband then some .range
          else if isZero a.kf then some .unset
          else if ¬inside a.kf then some .range
          else if isZero a.kdf then some .unset
          else if ¬inside a.kdf then some .range
          else if ¬band then some .range
          else none) = some c → exec (.kaiserBp n) s = stopped)
      ∧ ((if n = 0 ∨ s.cfg.nmax < n then some ErrCode.range
          else if n % 2 = 0 then some .range
          else if ¬stopband then some .range
          else if isZero a.kf then some .unset
          else if ¬inside a.kf then some .range
          else if isZero a.kdf then some .unset
          else if ¬inside a.kdf then some .range
          else if ¬band then some .range
          else none) = some c → exec (.kaiserBs n) s = stopped)
      ∧ ((if n = 0 ∨ s.cfg.nmax < n then some ErrCode.range
          else if n % 4 ≠ 1 then some .range
          else if ¬stopband then some .range
          else none) = some c → exec (.kaiserHilbert n) s = stopped)

/-- R78, R79, R73, R74, R76, R77: WSFIR.LP with a legal FC2 and WSFIR.HP with odd N and a legal FC1 complete, whatever the
window, with these taps. -/
def Obligations.WsfirLowpassAndHighpassDesigns : Prop :=
  ∀ (s : State) (win : Win) (n : Nat), LegalMachine s → 1 ≤ n → n ≤ s.cfg.nmax →
    let e := s.env
    let lp := fun (fc : F32) (i : Nat) => e.mul (idealTap e n fc i) (windowTap e win n i)
    (FreqOk e s.snap.args.fc2 →
        ∃ t, exec (.wsfirLp win n) s = .next t ∧ DesignResult s t n (lp s.snap.args.fc2))
      ∧ (n % 2 = 1 → FreqOk e s.snap.args.fc1 →
          ∃ t, exec (.wsfirHp win n) s = .next t ∧ DesignResult s t n fun i =>
            if i = (n - 1) / 2 then e.add (fneg (lp s.snap.args.fc1 i)) fone else fneg (lp s.snap.args.fc1 i))

/-- R80, R81, R73, R74, R76, R77: WSFIR.BS and WSFIR.BP with odd N and legal edges FC1 < FC2 complete with these taps. -/
def Obligations.WsfirBandDesigns : Prop :=
  ∀ (s : State) (win : Win) (n : Nat), LegalMachine s → 1 ≤ n → n ≤ s.cfg.nmax → n % 2 = 1 →
    FreqOk s.env s.snap.args.fc1 → FreqOk s.env s.snap.args.fc2 →
    s.env.lt s.snap.args.fc1 s.snap.args.fc2 = true →
    let e := s.env
    let lp := fun (fc : F32) (i : Nat) => e.mul (idealTap e n fc i) (windowTap e win n i)
    let inv := fun (g : Nat → F32) (i : Nat) => if i = (n - 1) / 2 then e.add (fneg (g i)) fone else fneg (g i)
    let bs := fun i : Nat => e.add (lp s.snap.args.fc1 i) (inv (lp s.snap.args.fc2) i)
    (∃ t, exec (.wsfirBs win n) s = .next t ∧ DesignResult s t n bs)
      ∧ ∃ t, exec (.wsfirBp win n) s = .next t ∧ DesignResult s t n (inv bs)

/-- R89, R90, R76, R77: KAISER.LP, and with odd N KAISER.HP, complete with these taps where KASTOP and KF are legal. -/
def Obligations.KaiserLowpassAndHighpassDesigns : Prop :=
  ∀ (s : State) (n : Nat), LegalMachine s → 1 ≤ n → n ≤ s.cfg.nmax → StopbandOk s.env s.snap.args.kastop →
    FreqOk s.env s.snap.args.kf →
    let e := s.env
    let a := s.snap.args
    let lp := fun i : Nat =>
      e.mul (idealTap e n a.kf i) (kaiserTap e n (kaiserBeta e a.kastop) (besselI0 e (kaiserBeta e a.kastop)) i)
    (∃ t, exec (.kaiserLp n) s = .next t ∧ DesignResult s t n lp)
      ∧ (n % 2 = 1 →
          ∃ t, exec (.kaiserHp n) s = .next t ∧ DesignResult s t n fun i =>
            if i = (n - 1) / 2 then e.add (fneg (lp i)) fone else fneg (lp i))

/-- R91, R92, R76, R77: KAISER.BP, and with odd N KAISER.BS, complete with these taps where KASTOP, KF, KDF and the band are
legal. -/
def Obligations.KaiserBandDesigns : Prop :=
  ∀ (s : State) (n : Nat), LegalMachine s → 1 ≤ n → n ≤ s.cfg.nmax → StopbandOk s.env s.snap.args.kastop →
    FreqOk s.env s.snap.args.kf → FreqOk s.env s.snap.args.kdf →
    s.env.lt fzero (s.env.sub s.snap.args.kf s.snap.args.kdf) = true →
    s.env.lt (s.env.add s.snap.args.kf s.snap.args.kdf) fhalf = true →
    let e := s.env
    let a := s.snap.args
    let bp := fun i : Nat =>
      e.mul
        (e.mul (idealTap e n a.kdf i) (kaiserTap e n (kaiserBeta e a.kastop) (besselI0 e (kaiserBeta e a.kastop)) i))
        (e.mul ftwo (e.f.cosf (e.mul (e.mul (e.mul ftwo pi32) a.kf) (e.sub (natF i) (e.div (natF (n - 1)) ftwo)))))
    (∃ t, exec (.kaiserBp n) s = .next t ∧ DesignResult s t n bp)
      ∧ (n % 2 = 1 →
          ∃ t, exec (.kaiserBs n) s = .next t ∧ DesignResult s t n fun i =>
            if i = (n - 1) / 2 then e.add (fneg (bp i)) fone else fneg (bp i))

/-- R93, R76, R77: KAISER.HILBERT with N mod 4 = 1 and a legal KASTOP completes: the centre tap is one, the even taps are +0.0 and
each odd tap is (2 / (π·(n − c)))·w. It reads neither KF nor KDF. -/
def Obligations.KaiserHilbertDesigns : Prop :=
  ∀ (s : State) (n : Nat), LegalMachine s → 1 ≤ n → n ≤ s.cfg.nmax → n % 4 = 1 → StopbandOk s.env s.snap.args.kastop →
    let e := s.env
    let a := s.snap.args
    let c := (n - 1) / 2
    ∃ t, exec (.kaiserHilbert n) s = .next t ∧ DesignResult s t n fun i =>
      if i = c then fone
      else if i % 2 = 0 then fzero
      else e.mul (e.div ftwo (e.mul pi32 (intF ((i : Int) - (c : Int)))))
        (kaiserTap e n (kaiserBeta e a.kastop) (besselI0 e (kaiserBeta e a.kastop)) i)

/-- R79, R81, R90, R92: on one set of operands the highpass design is the spectral inversion of the lowpass, WSFIR.BP that of
WSFIR.BS and KAISER.BS that of KAISER.BP, bit for bit in HCOEF as two runs leave it. -/
def Obligations.DesignsInvertTheirPartners : Prop :=
  ∀ (s t t' : State) (win : Win) (n : Nat), LegalMachine s → t.err = .ok → t'.err = .ok →
    ((s.snap.args.fc1 = s.snap.args.fc2 ∧ exec (.wsfirHp win n) s = .next t ∧ exec (.wsfirLp win n) s = .next t')
      ∨ (exec (.wsfirBp win n) s = .next t ∧ exec (.wsfirBs win n) s = .next t')
      ∨ (exec (.kaiserHp n) s = .next t ∧ exec (.kaiserLp n) s = .next t')
      ∨ (exec (.kaiserBs n) s = .next t ∧ exec (.kaiserBp n) s = .next t')) →
    ∀ i, i < n →
      coefAt t i
        = if i = (n - 1) / 2 then s.env.add (fneg (coefAt t' i)) fone else fneg (coefAt t' i)

/-- R77, R36: QUANTIZE rewrites every QCOEF slot from HCOEF and no other byte. A slot holds the sign extension of an s16 value: 0
for a NaN product, the end of the range for an infinite one, else the product rounded and saturated. -/
def Obligations.QuantizeRewritesEverySlot : Prop :=
  ∀ (e : Env) (m : Memory), Memory.wf m = true → e.p.nmax ≤ 4096 →
    (∀ n, n < e.p.nmax → ∃ (h : F32) (q : Word),
        Memory.readWord m (hcoefBase + 4 * n) = some h
          ∧ Memory.readWord (quantizeMem e m) (qcoefBase + 4 * n) = some q
          ∧ (let p := e.mul h e.p.qScale
            q.toInt = if isNaN p then 0
              else if p = 0x7F800000 then 32767
              else if p = 0xFF800000 then -32768
              else min (max (roundAway p) (-32768)) 32767))
      ∧ ∀ a, (a < qcoefBase ∨ qcoefBase + 4 * e.p.nmax ≤ a) →
          Memory.readByte (quantizeMem e m) a = Memory.readByte m a

/-- R74: spectral inversion negates every tap exactly and adds one at the centre; off the NaNs (-h) +f 1 equals 1 -f h. -/
def Obligations.InvertAddsOneAtTheCentre : Prop :=
  ∀ (e : Env) (h : List F32), h.length % 2 = 1 →
    (invert e h).length = h.length
      ∧ (∀ n, n < h.length → n ≠ (h.length - 1) / 2 →
          getF (invert e h) n = fneg (getF h n) ∧ fneg (fneg (getF h n)) = getF h n
            ∧ (isFinite (getF h n) = true → units (fneg (getF h n)) = -units (getF h n)))
      ∧ getF (invert e h) ((h.length - 1) / 2) = e.add (fneg (getF h ((h.length - 1) / 2))) fone
      ∧ (isNaN (getF h ((h.length - 1) / 2)) = false →
          getF (invert e h) ((h.length - 1) / 2) = e.sub fone (getF h ((h.length - 1) / 2)))

/-- R21: `round_away` gives the integer nearest to a finite value, ties away from zero; `sat16` clamps to the s16 range. The value
of a pattern is `units x` / 2^149. -/
def Obligations.RoundAwayIsNearest : Prop :=
  (∀ x : F32, isFinite x = true →
      2 * |roundAway x * 2 ^ 149 - units x| ≤ 2 ^ 149
        ∧ (2 * |roundAway x * 2 ^ 149 - units x| = 2 ^ 149 → |units x| < |roundAway x * 2 ^ 149|))
    ∧ ∀ i : Int, sat16 i = min (max i (-32768)) 32767 ∧ -32768 ≤ sat16 i ∧ sat16 i ≤ 32767

/-- R85, R86, R87, R89: at or below 21 dB the shape parameter is exactly +0.0, at 50 dB it is the closed form, I0(0) is exactly
one, and with the low branch every tap of the Kaiser window is exactly one. -/
def Obligations.KaiserBranchesAndRectangle : Prop :=
  ∀ e : Env, e.p.wf = true →
    besselI0 e fzero = fone
      ∧ kaiserBeta e 0x42480000 = e.mul (litF 1102 10000) (e.sub 0x42480000 (litF 87 10))
      ∧ ∀ a : F32, e.le a 0x41A80000 = true →
          kaiserBeta e a = 0x00000000
            ∧ ∀ taps n, 1 ≤ taps → taps ≤ 4096 → n < taps → kaiserWin e taps a n = fone

/-- R87: the Kaiser window is symmetric bit for bit. -/
def Obligations.KaiserWindowIsSymmetric : Prop :=
  ∀ (e : Env) (taps n : Nat) (beta i0b : F32), taps ≤ 4096 → n < taps →
    kaiserTap e taps beta i0b n = kaiserTap e taps beta i0b (taps - 1 - n)

/-! ### The gain normalizer (41_fir_gain.md) -/

/-- R83, R82: GAIN.QUERY on a stored design with a legal GFREQ and a finite magnitude completes and writes that magnitude to
GAIN, and nothing else changes but STATUS. -/
def Obligations.GainQueryMeasures : Prop :=
  ∀ s : State,
    let e := s.env
    let f := s.snap.args.gfreq
    let angle := fun n : Nat => e.mul (e.mul (e.mul ftwo pi32) f) (natF n)
    let c := e.sum ((List.range s.hLen.toNat).map fun n => e.mul (coefAt s n) (e.f.cosf (angle n)))
    let d := e.sum ((List.range s.hLen.toNat).map fun n => e.mul (coefAt s n) (e.f.sinf (angle n)))
    let g := e.sqrt (e.add (e.mul c c) (e.mul d d))
    s.hLen ≠ 0 → isFinite f = true → e.lt f fzero = false → e.lt fhalf f = false → isFinite g = true →
      exec .gainQuery s = .next { s with gain := g, err := .ok, busy := false }

/-- R84, R77: GAIN.SCALE on a stored design with a finite positive GSCALE and no infinite product completes: each tap is
multiplied by the factor capped at GSCALE_MAX, the slots past H_LEN stay, QCOEF is requantized, and nothing else changes but
STATUS. A NaN product is stored like any other (log 28). -/
def Obligations.GainScaleScales : Prop :=
  ∀ s : State, LegalMachine s → s.hLen ≠ 0 → s.hLen.toNat ≤ s.cfg.nmax →
    let e := s.env
    let m := e.min s.snap.args.gscale s.cfg.gscaleMax
    isFinite s.snap.args.gscale = true → e.lt fzero s.snap.args.gscale = true →
    (∀ n, n < s.hLen.toNat → isInf (e.mul (coefAt s n) m) = false) →
      ∃ t, exec .gainScale s = .next t
        ∧ (∀ n, n < s.cfg.nmax →
            Memory.readWord t.mem (hcoefBase + 4 * n)
                = some (if n < s.hLen.toNat then e.mul (coefAt s n) m else coefAt s n)
              ∧ Memory.readWord t.mem (qcoefBase + 4 * n)
                = some (quantWord e (if n < s.hLen.toNat then e.mul (coefAt s n) m else coefAt s n)))
        ∧ OnlyDesignBytes s t
        ∧ t = { s with mem := t.mem, err := .ok, busy := false }

/-- R83, R84, R134, R136: the checks of the gain commands: no design, the argument, the result. GAIN.SCALE fails on every
infinite product, and so, with legal parameters, on every product of a finite coefficient that is not finite; a NaN coefficient
gives a NaN product, on which it does not fail (log 28). -/
def Obligations.GainChecksInOrder : Prop :=
  ∀ s : State,
    let e := s.env
    let a := s.snap.args
    let stopped : Host.Outcome State Fault Refusal := .next { s with err := .range, busy := false }
    let m := e.min a.gscale s.cfg.gscaleMax
    (s.hLen = 0 ∨ isFinite a.gfreq = false ∨ e.lt a.gfreq fzero = true ∨ e.lt fhalf a.gfreq = true
        ∨ isFinite (corr e s.taps a.gfreq) = false → exec .gainQuery s = stopped)
      ∧ (s.hLen = 0 ∨ isFinite a.gscale = false ∨ e.lt fzero a.gscale = false
          ∨ (∃ n, n < s.hLen.toNat ∧ (isInf (e.mul (coefAt s n) m) = true
              ∨ (s.cfg.wf = true ∧ isFinite (coefAt s n) = true ∧ isFinite (e.mul (coefAt s n) m) = false))) →
        exec .gainScale s = stopped)

/-! ### Modes and the block (48_mode_control.md) -/

/-- R126, R123, R95, R99, R104, R111: MODE.SELECT with a code of 0 to 7 completes in every state, makes that mode active and
gives its engine the initial state; every other engine, the notch and all other state are as before. -/
def Obligations.ModeSelectActivates : Prop :=
  ∀ (s : State) (c : Nat) (m : Mode),
    (c, m) ∈ [(0, Mode.bypass), (1, .off), (2, .lms), (3, .kim), (4, .heur1), (5, .heur2), (6, .mmse), (7, .anr)] →
    let p := s.cfg
    let u := s.snap.tune
    let fe : FrameState := { fin := zeros p.blk, fout := zeros p.blk, cnt := 0 }
    exec (.modeSelect c) s = .next
      { s with
        mode := m
        err := .ok
        busy := false
        lms := if m = .lms then
            { ring := zeros (2 * p.blk), wc := 0, w := zeros p.lmsTaps, hist := zeros (p.lmsTaps - 1)
              mu := s.env.div fone (s.env.f.pow10f (s.env.div (intF u.lmsStrength.toInt) p.muDb)) }
          else s.lms
        kim := if m = .kim then
            { bins := List.replicate (bandLen p) { x := zeros p.kimL, e := zeros p.kimN, gts := fzero }
              xi := 0, ei := 0, fe := fe }
          else s.kim
        mmse := if m = .mmse then
            { bins := List.replicate (bandLen p)
                { nest := fzero, gprev := fzero, gamprev := fzero, gams := fzero, spp := fzero }
              fe := fe }
          else s.mmse
        anrNr := if m = .anr then
            { ring := zeros p.anrDl, idx := 0, w := zeros p.anrTapsMax, lidx := u.anrLidxMin
              leak := s.env.mul p.leakK
                (s.env.mul (s.env.mul u.anrLidxMin u.anrLidxMin) (s.env.mul u.anrLidxMin u.anrLidxMin))
              nt := u.anrTaps.toNat, nd := u.anrDelay.toNat }
          else s.anrNr }

/-- R127, R128, R99: NOTCH.ON completes in every state, enables the notch and reinitializes its instance from the snapshot, also
where it is already enabled; NOTCH.OFF disables it and keeps its state. Neither touches the mode or the NR instance. -/
def Obligations.NotchCommands : Prop :=
  ∀ s : State,
    let p := s.cfg
    let u := s.snap.tune
    exec .notchOn s = .next
        { s with
          notchEn := true
          err := .ok
          busy := false
          anrNotch :=
            { ring := zeros p.anrDl, idx := 0, w := zeros p.anrTapsMax, lidx := u.anrLidxMin
              leak := s.env.mul p.leakK
                (s.env.mul (s.env.mul u.anrLidxMin u.anrLidxMin) (s.env.mul u.anrLidxMin u.anrLidxMin))
              nt := u.anrTaps.toNat, nd := u.anrDelay.toNat } }
      ∧ exec .notchOff s = .next { s with notchEn := false, err := .ok, busy := false }

/-- R132, R130: in BYPASS a PROCESS on an accepted block completes and leaves every byte and every engine as it was, the notch
enabled or not. -/
def Obligations.BypassLeavesTheBlock : Prop :=
  ∀ s : State, BlockReady s → s.mode = .bypass → exec .process s = .next { s with err := .ok, busy := false }

/-- R132, R124: in OFF with OFF_OUTPUT = PASS and the notch disabled a PROCESS leaves the block untouched and ends OK; HEUR1 and
HEUR2 do the same and end UNIMPL. -/
def Obligations.OffAndHeuristicModesPass : Prop :=
  ∀ s : State, BlockReady s → s.cfg.offOutput = .pass → s.notchEn = false →
    (s.mode = .off → exec .process s = .next { s with err := .ok, busy := false })
      ∧ (s.mode = .heur1 ∨ s.mode = .heur2 → exec .process s = .next { s with err := .unimpl, busy := false })

/-- R130: PROCESS refuses where a slot of either channel is unwritten; where all are written and one value is NaN, infinite or
above X_MAX in magnitude it fails RANGE and leaves both buffers and all engine state unchanged. -/
def Obligations.ProcessChecksItsInput : Prop :=
  ∀ s : State,
    ((∃ i base, i < s.cfg.blk ∧ (base = sampLBase ∨ base = sampRBase) ∧ Memory.readWord s.mem (base + 4 * i) = none) →
        exec .process s = .refused .unwritten)
      ∧ ((∀ i base, i < s.cfg.blk → (base = sampLBase ∨ base = sampRBase) →
            ∃ v, Memory.readWord s.mem (base + 4 * i) = some v) →
          (∃ i base v, i < s.cfg.blk ∧ (base = sampLBase ∨ base = sampRBase)
              ∧ Memory.readWord s.mem (base + 4 * i) = some v
              ∧ (isFinite v = false ∨ s.env.lt s.cfg.xMax (fabs v) = true)) →
          exec .process s = .next { s with err := .range, busy := false })

/-- R132, R129, R131, R43: on an accepted block, in any mode but BYPASS and where R132 does not pass the block untouched, PROCESS
folds the block, runs the active mode's engine and then, if enabled, the notch, and mirrors the result to both channels. It
completes exactly where every value written is finite, and refuses otherwise. Nothing but the buffers, the engines that ran and
STATUS changes. Which written values the overflow clauses count, values overwritten later in the block among them, is the
model's reading of R131 (log 15). -/
def Obligations.ProcessRunsModeThenNotch : Prop :=
  ∀ s : State, LegalMachine s → EngineShapes s → BlockReady s → s.mode ≠ .bypass →
    (s.notchEn = true ∨ s.cfg.offOutput = .fold ∨ (s.mode ≠ .off ∧ s.mode ≠ .heur1 ∧ s.mode ≠ .heur2)) →
    let e := s.env
    let u := s.snap.tune
    let m := (List.range s.cfg.blk).map fun i =>
      match s.cfg.fold with
      | .left => sampAt s sampLBase i
      | .mean => e.mul (e.add (sampAt s sampLBase i) (sampAt s sampRBase i)) fhalf
    let l := nlmsBlock e s.lms m
    let k := frameKim e u s.kim m
    let w := frameMmse e u s.mmse m
    let a := anrBlock e .nr u s.anrNr m
    let engine : List F32 × Bool := match s.mode with
      | .lms => (l.out, l.ok)
      | .kim => (k.out, k.ok)
      | .mmse => (w.out, w.ok)
      | .anr => (a.out, a.ok)
      | .bypass | .off | .heur1 | .heur2 => (m, true)
    let q := anrBlock e .notch u s.anrNotch engine.1
    let out := if s.notchEn then q.out else engine.1
    let fine := engine.2 = true ∧ (s.notchEn = true → q.ok = true) ∧ ∀ x ∈ out, isFinite x = true
    (fine → ∃ t, exec .process s = .next t ∧ BlockWritten s t out
        ∧ t = { s with
            mem := t.mem
            lms := if s.mode = .lms then l.st else s.lms
            kim := if s.mode = .kim then k.st else s.kim
            mmse := if s.mode = .mmse then w.st else s.mmse
            anrNr := if s.mode = .anr then a.st else s.anrNr
            anrNotch := if s.notchEn then q.st else s.anrNotch
            err := if s.mode = .heur1 ∨ s.mode = .heur2 then .unimpl else .ok
            busy := false })
      ∧ (¬fine → exec .process s = .refused .overflow)

/-- R43, R132, R126: an engine's state changes only in PROCESS while its mode is active or in the MODE.SELECT that activates it;
the notch instance's only in NOTCH.ON or in a PROCESS, outside BYPASS, while it is enabled. -/
def Obligations.InactiveEnginesAreRetained : Prop :=
  ∀ (i : Instr) (s t : State), exec i s = .next t →
    (i ≠ .modeSelect 2 → ¬(i = .process ∧ s.mode = .lms) → t.lms = s.lms)
      ∧ (i ≠ .modeSelect 3 → ¬(i = .process ∧ s.mode = .kim) → t.kim = s.kim)
      ∧ (i ≠ .modeSelect 6 → ¬(i = .process ∧ s.mode = .mmse) → t.mmse = s.mmse)
      ∧ (i ≠ .modeSelect 7 → ¬(i = .process ∧ s.mode = .anr) → t.anrNr = s.anrNr)
      ∧ (i ≠ .notchOn → ¬(i = .process ∧ s.notchEn = true ∧ s.mode ≠ .bypass) → t.anrNotch = s.anrNotch)

/-! ### Engines (43_nlms.md to 47_frame_engine.md) -/

/-- R97, R132: an all-zero block through a freshly initialized normalized-LMS filter with a finite step size completes with an
all-zero output and unchanged weights. -/
def Obligations.LmsZeroBlock : Prop :=
  ∀ s : State, LegalMachine s → s.mode = .lms → s.notchEn = false → isFinite s.lms.mu = true →
    s.lms = { ring := zeros (2 * s.cfg.blk), wc := 0, w := zeros s.cfg.lmsTaps, hist := zeros (s.cfg.lmsTaps - 1)
              mu := s.lms.mu } →
    (∀ i, i < s.cfg.blk → Memory.readWord s.mem (sampLBase + 4 * i) = some fzero
      ∧ Memory.readWord s.mem (sampRBase + 4 * i) = some fzero) →
    ∃ t, exec .process s = .next t ∧ t.err = .ok ∧ t.lms.w = s.lms.w
      ∧ ∀ i, i < s.cfg.blk → Memory.readWord t.mem (sampLBase + 4 * i) = some fzero
        ∧ Memory.readWord t.mem (sampRBase + 4 * i) = some fzero

/-- R96, R97: after a block the write cursor has moved by B around the ring, the slots at the new read cursor hold that block,
and the history is the last LMS_TAPS - 1 inputs, newest first. -/
def Obligations.LmsReferenceIsThePreviousBlock : Prop :=
  ∀ (e : Env) (st : LmsState) (x : List F32), e.p.wf = true → LmsShape e.p st → x.length = e.p.blk →
    let st' := (nlmsBlock e st x).st
    st'.wc = (st.wc + e.p.blk) % (2 * e.p.blk)
      ∧ (st'.ring.drop ((st'.wc + e.p.blk) % (2 * e.p.blk))).take e.p.blk = x
      ∧ st'.hist = (x.reverse ++ st.hist).take (e.p.lmsTaps - 1)
      ∧ st'.mu = st.mu

/-- R101, R100, R99: right after ANR_INIT, with step size 0, a block of finite samples that overflows nothing leaves the weights
at +0.0; the NR output is zero and the NOTCH output is the input, up to the sign of zero (under FTZ, the input as arithmetic
reads it, log 6). -/
def Obligations.AnrZeroStepSize : Prop :=
  ∀ (e : Env) (kind : AnrOut) (u : TuneRegs) (x : List F32), e.p.wf = true → legalTune e.p u = true →
    isZero u.anrMu = true → (∀ v ∈ x, isFinite v = true) →
    let b := anrBlock e kind u (anrInit e u) x
    b.ok = true →
      b.st.w = zeros e.p.anrTapsMax ∧ b.out.length = x.length
        ∧ ∀ i, i < x.length →
            match kind with
            | .nr => isZero (getF b.out i) = true
            | .notch => getF b.out i = operandF e.p.ftz (getF x i)
                ∨ (isZero (getF b.out i) = true ∧ isZero (operandF e.p.ftz (getF x i)) = true)

/-- R106, R110: the tracked minimum of a history of numbers is one of its elements and none is below it. -/
def Obligations.KimMinimumIsExact : Prop :=
  ∀ (e : Env) (l : List F32), l ≠ [] → (∀ x ∈ l, isNaN x = false) →
    minF e l ∈ l ∧ ∀ x ∈ l, leF (minF e l) x = true

/-- R107, R110: from non-negative power, average, minimum and strength the raw Kim gain is finite and lies in [0, 1], a
zero-power frame included. -/
def Obligations.KimGainInUnitInterval : Prop :=
  ∀ (e : Env) (u : TuneRegs) (power average minimum : F32), e.p.wf = true → legalTune e.p u = true →
    leF fzero power = true → leF fzero average = true → leF fzero minimum = true →
    isFinite (kimGain e u power average minimum) = true
      ∧ leF fzero (kimGain e u power average minimum) = true
      ∧ leF (kimGain e u power average minimum) fone = true

/-- R115, R113: whatever the powers and the previous state, a steady MMSE frame leaves the gain of a bin in [GM_MIN, GM_MAX] and
its a-posteriori SNR in [GAMMA_MIN, GAMMA_MAX]. -/
def Obligations.MmseValuesStayInBounds : Prop :=
  ∀ (e : Env) (alpha : F32) (b : MmseBin) (power : F32), e.p.wf = true →
    let b' := mmseSteadyBin e alpha b power
    leF e.p.gmMin b'.gprev = true ∧ leF b'.gprev e.p.gmMax = true
      ∧ leF e.p.gammaMin b'.gamprev = true ∧ leF b'.gamprev e.p.gammaMax = true

/-- R119, R118: K_LO and K_HI are the rounded band edges kept inside [1, NFFT/2 − 1], K_LO ≤ K_HI, and the gain stage leaves the DC
and the Nyquist bin alone. -/
def Obligations.BandLiesInsideTheSpectrum : Prop :=
  ∀ p : Params, p.wf = true →
    nfft p = 2 * p.blk
      ∧ (kLo p : Int) = min (max ⌊p.fLo * (nfft p : Rat) / p.fs + 1 / 2⌋ 1) ((nfft p : Int) / 2 - 1)
      ∧ (kHi p : Int) = min (max ⌊p.fHi * (nfft p : Rat) / p.fs + 1 / 2⌋ 1) ((nfft p : Int) / 2 - 1)
      ∧ 1 ≤ kLo p ∧ kLo p ≤ kHi p ∧ kHi p ≤ nfft p / 2 - 1
      ∧ ∀ (f : Fns) (g : List F32) (c : Cplx),
          applyGain { p := p, f := f } g 0 c = c ∧ applyGain { p := p, f := f } g (nfft p / 2) c = c

/-- R102: the frame count of a spectral mode is 0 after its MODE.SELECT, moves to min(count + 1, max(warm-up, 1)) in a PROCESS that
completes in the mode, and nothing else the core or the host does changes it. -/
def Obligations.FrameCountTransitions : Prop :=
  (∀ (i : Instr) (s t : State), exec i s = .next t →
      t.kim.fe.cnt = (if i = .modeSelect 3 then 0
          else if i = .process ∧ s.mode = .kim ∧ t.err = .ok then min (s.kim.fe.cnt + 1) (max s.cfg.kimWarmup 1)
          else s.kim.fe.cnt)
        ∧ t.mmse.fe.cnt = (if i = .modeSelect 6 then 0
          else if i = .process ∧ s.mode = .mmse ∧ t.err = .ok then min (s.mmse.fe.cnt + 1) (max s.cfg.mmseWarmup 1)
          else s.mmse.fe.cnt))
    ∧ ∀ (s t : State) (ev : Event) (rest : List Event), s.inbox = ev :: rest → ev ≠ .core → ev ≠ .resetAssert →
        step s = .next t → t.kim.fe.cnt = s.kim.fe.cnt ∧ t.mmse.fe.cnt = s.mmse.fe.cnt

/-- R121, R110, R117, R19: an all-zero block through a freshly initialized spectral mode, KIM or MMSE, completes: no division by
zero arises, the output is zero, and the frame is counted. -/
def Obligations.SpectralZeroFrame : Prop :=
  ∀ s : State, LegalMachine s → TuningLegal s → s.notchEn = false →
    ((s.mode = .kim ∧ s.kim = kimInit s.cfg) ∨ (s.mode = .mmse ∧ s.mmse = mmseInit s.cfg)) →
    (∀ i, i < s.cfg.blk → Memory.readWord s.mem (sampLBase + 4 * i) = some fzero
      ∧ Memory.readWord s.mem (sampRBase + 4 * i) = some fzero) →
    ∃ t, exec .process s = .next t ∧ t.err = .ok
      ∧ (s.mode = .kim → t.kim.fe.cnt = 1) ∧ (s.mode = .mmse → t.mmse.fe.cnt = 1)
      ∧ ∀ i, i < s.cfg.blk → Memory.readWord t.mem (sampLBase + 4 * i) = some fzero
        ∧ Memory.readWord t.mem (sampRBase + 4 * i) = some fzero

/-! ### Reset and invariants -/

/-- R149, R75, R88, R83, R84: the state after reset. The registers hold the table's values, the coefficients read zero, every sample
slot is unwritten, and the core is idle. (Engine state is unspecified there, so nothing is said of it.) A gain command accepted
then fails RANGE, and a design command UNSET or RANGE, but for KAISER.HILBERT with a legal N: it ends OK, the model's choice of
R88 and R93 over R149's sentence (log 30). -/
def Obligations.ResetState : Prop :=
  ∀ p : Params, p.wf = true →
    let s := State.resetOf p
    s.busy = false ∧ s.drop = false ∧ s.err = .ok ∧ s.mode = .bypass ∧ s.notchEn = false
      ∧ s.statusWord = 0x00000000 ∧ s.gain = 0x00000000 ∧ s.hLen = 0
      ∧ (∀ r : ArgReg, s.args.get r = 0x00000000)
      ∧ s.tune = p.rst ∧ legalTune p s.tune = true
      ∧ (∀ n, n < p.nmax → Memory.readWord s.mem (hcoefBase + 4 * n) = some 0x00000000
          ∧ Memory.readWord s.mem (qcoefBase + 4 * n) = some 0x00000000)
      ∧ (∀ i, i < p.blk → Memory.readWord s.mem (sampLBase + 4 * i) = none
          ∧ Memory.readWord s.mem (sampRBase + 4 * i) = none)
      ∧ step s = .next s
      ∧ (∀ (i : Instr) (w : Word), DesignCommand i → (∀ n, i ≠ .kaiserHilbert n) →
          ∃ c, (c = .unset ∨ c = .range) ∧ exec i (s.accept w) = .next { s.accept w with err := c, busy := false })
      ∧ (∀ w : Word, exec .gainQuery (s.accept w) = .next { s.accept w with err := .range, busy := false }
          ∧ exec .gainScale (s.accept w) = .next { s.accept w with err := .range, busy := false })
      ∧ ∀ (n : Nat) (w : Word), n ≤ p.nmax → n % 4 = 1 →
          ∃ t, exec (.kaiserHilbert n) (s.accept w) = .next t ∧ t.err = .ok ∧ t.hLen = BitVec.ofNat 32 n

/-- Every step, of the core, of the host or of reset, keeps the window's canonical form and the parameters. Both are the model's
choices: the canonical form is how it holds the buffers (log 13), the constant parameter record how it holds the fixed
constants of R7 and R8 (log 1). -/
def Obligations.StepKeepsCanonicalMemory : Prop :=
  ∀ s t : State, Memory.wf s.mem = true → step s = .next t → Memory.wf t.mem = true ∧ t.cfg = s.cfg

/-- R32, R33, R54: with legal parameters every step keeps the tuning registers and the snapshot's copies of them legal. -/
def Obligations.StepKeepsTuningLegal : Prop :=
  ∀ s t : State, s.cfg.wf = true → TuningLegal s → step s = .next t → TuningLegal t

/-- R156, R77, R35, R30: every step keeps the design consistent: at most NMAX taps, +0.0 past them, QCOEF the quantized HCOEF. -/
def Obligations.StepKeepsDesignConsistent : Prop :=
  ∀ s t : State, LegalMachine s → DesignConsistent s → step s = .next t → DesignConsistent t

/-- R38, R39, R40, R41, R42: every step keeps the shape of every engine's state: the lengths of its arrays, its cursors and
indices in range, its latched tap counts and delays legal. -/
def Obligations.StepKeepsEngineShapes : Prop :=
  ∀ s t : State, s.cfg.wf = true → TuningLegal s → EngineShapes s → step s = .next t → EngineShapes t

/-- R149: the reset state meets every invariant above, for the parameter set of the machine's own reset (log 1) too. The engines'
shapes at reset are the model's choice (log 7), and so are the snapshot's copies of the tuning registers, RST_* (log 12). -/
def Obligations.ResetMeetsTheInvariants : Prop :=
  Params.vectors.wf = true ∧ State.reset = State.resetOf Params.vectors
    ∧ ∀ p : Params, p.wf = true →
        LegalMachine (State.resetOf p) ∧ TuningLegal (State.resetOf p) ∧ DesignConsistent (State.resetOf p)
          ∧ EngineShapes (State.resetOf p)

/-! ### Arithmetic (00_scope.md) -/

/-- R17, R13: without FTZ, the result of `+f`, `-f`, `*f`, `/f` or `sqrtf` on finite operands, where finite, is a finite value no
other finite value is closer to, and where another is as close the result's encoding is even. In units of 2^-149 the exact
results are `units a + units b`, `units a - units b`, `units a · units b / 2^149`, `units a · 2^149 / units b` and the root of
`units a · 2^149`. With FTZ, an operation is the one without it on flushed operands, its result flushed, and a comparison is that
of the flushed operands; how far FTZ reaches is the model's reading (log 6). -/
def Obligations.ArithmeticRoundsToNearestEven : Prop :=
  (∀ (e : Env) (a b c : F32), e.p.ftz = false → isFinite a = true → isFinite b = true → isFinite c = true →
    (isFinite (e.add a b) = true →
        let r := e.add a b
        |units a + units b - units r| ≤ |units a + units b - units c|
          ∧ (|units a + units b - units r| = |units a + units b - units c| → units c ≠ units r → fbits r % 2 = 0))
      ∧ (isFinite (e.sub a b) = true →
          let r := e.sub a b
          |units a - units b - units r| ≤ |units a - units b - units c|
            ∧ (|units a - units b - units r| = |units a - units b - units c| → units c ≠ units r → fbits r % 2 = 0))
      ∧ (isFinite (e.mul a b) = true →
          let r := e.mul a b
          |units a * units b - units r * 2 ^ 149| ≤ |units a * units b - units c * 2 ^ 149|
            ∧ (|units a * units b - units r * 2 ^ 149| = |units a * units b - units c * 2 ^ 149| →
                units c ≠ units r → fbits r % 2 = 0))
      ∧ (isFinite (e.div a b) = true → isZero b = false →
          let r := e.div a b
          |units a * 2 ^ 149 - units r * units b| ≤ |units a * 2 ^ 149 - units c * units b|
            ∧ (|units a * 2 ^ 149 - units r * units b| = |units a * 2 ^ 149 - units c * units b| →
                units c ≠ units r → fbits r % 2 = 0))
      ∧ (isFinite (e.sqrt a) = true →
          let r := e.sqrt a
          let root := Real.sqrt ((units a : ℝ) * 2 ^ 149)
          |root - (units r : ℝ)| ≤ |root - (units c : ℝ)|
            ∧ (|root - (units r : ℝ)| = |root - (units c : ℝ)| → units c ≠ units r → fbits r % 2 = 0)))
    ∧ ∀ (e : Env) (a b : F32), e.p.ftz = true →
      let e' : Env := { p := { e.p with ftz := false }, f := e.f }
      let q := operandF true
      e.add a b = q (e'.add (q a) (q b)) ∧ e.sub a b = q (e'.sub (q a) (q b)) ∧ e.mul a b = q (e'.mul (q a) (q b))
        ∧ e.div a b = q (e'.div (q a) (q b)) ∧ e.sqrt a = q (e'.sqrt (q a))
        ∧ e.lt a b = e'.lt (q a) (q b) ∧ e.le a b = e'.le (q a) (q b)

/-! ### Configuration functions (00_scope.md) -/

/-- R19, R94: the machine's configuration functions have their stated properties under every parameter set, and the step size of
R94 is finite and above zero for every strength. The bound FFT_TOL holds of each transform result of finite operands wherever
the rounded exact result meets it: that proviso, the sign of a zero transform and the properties outside R19's domains are the
model's readings (log 3, log 26, log 22), and so is laying the condition of R94 on POW10F (log 5). -/
def Obligations.ConfigurationFunctionsKeepTheirProperties : Prop :=
  ∀ p : Params,
    let f := configFns p
    (∀ x, isFinite x = true →
        (isFinite (f.sinf x) = true ∧ leF 0xBF800000 (f.sinf x) = true ∧ leF (f.sinf x) fone = true)
          ∧ isFinite (f.cosf x) = true ∧ leF 0xBF800000 (f.cosf x) = true ∧ leF (f.cosf x) fone = true)
      ∧ (∀ x, leF fzero (f.expf x) = true)
      ∧ (∀ x y, leF fzero x = true →
          leF fzero (f.powf x y) = true ∧ f.powf x fone = x
            ∧ (isZero x = true → ltF fzero y = true → isZero (f.powf x y) = true))
      ∧ (∀ x, ltF fzero (f.pow10f x) = true ∧ (isZero x = true → f.pow10f x = fone))
      ∧ (∀ r, leF fzero r = true →
          leF fzero (f.sppMap r) = true ∧ leF (f.sppMap r) fone = true
            ∧ (isZero r = true → isZero (f.sppMap r) = true))
      ∧ (∀ x g, isFinite x = true → isFinite g = true → isFinite (f.mmseGain x g) = true)
      ∧ (∀ rho, f.mnWidth rho % 2 = 1)
      ∧ (∀ z, (f.fft z).length = z.length ∧ (f.ifft z).length = z.length
          ∧ ((∀ c ∈ z, isZero c.re = true ∧ isZero c.im = true) →
              ∀ c ∈ f.fft z ++ f.ifft z, isZero c.re = true ∧ isZero c.im = true)
          ∧ ((∀ c ∈ z, isFinite c.re = true ∧ isFinite c.im = true) → ∀ k, k < z.length →
              (WithinTol p false z k (nearestTransform p false z k) →
                  WithinTol p false z k ((f.fft z).getD k ⟨fzero, fzero⟩))
                ∧ (WithinTol p true z k (nearestTransform p true z k) →
                  WithinTol p true z k ((f.ifft z).getD k ⟨fzero, fzero⟩))))
      ∧ ∀ strength : Word,
          isFinite (lmsMu { p := p, f := f } strength) = true ∧ ltF fzero (lmsMu { p := p, f := f } strength) = true
end

