-- ==== Sys2Proof/Laws/Float.lean ====
section
/-! SUPPORT. The laws of the binary32 arithmetic: fields of packed patterns, and that narrowing is exact on binary32
values and monotone. -/

namespace Sys2Proof

theorem packF_toNat (neg : Bool) {b : Nat} (h : b < 2 ^ 31) :
    (packF neg b).toNat = (if neg then 2 ^ 31 else 0) + b := by
  unfold packF
  rw [BitVec.toNat_ofNat]
  cases neg
  all_goals simp
  all_goals omega

theorem fsign_packF (neg : Bool) {b : Nat} (h : b < 2 ^ 31) : fsign (packF neg b) = neg := by
  unfold fsign
  rw [packF_toNat neg h]
  cases neg
  all_goals simp
  all_goals omega

theorem fbits_packF (neg : Bool) {b : Nat} (h : b < 2 ^ 31) : fbits (packF neg b) = b := by
  unfold fbits
  rw [packF_toNat neg h]
  cases neg <;> simp
  all_goals omega

theorem fexp_packF (neg : Bool) {b : Nat} (h : b < 2 ^ 31) : fexp (packF neg b) = b / 2 ^ 23 := by
  unfold fexp
  rw [packF_toNat neg h]
  cases neg
  all_goals simp
  all_goals omega

theorem ffrac_packF (neg : Bool) {b : Nat} (h : b < 2 ^ 31) : ffrac (packF neg b) = b % 2 ^ 23 := by
  unfold ffrac
  rw [packF_toNat neg h]
  cases neg
  all_goals simp
  all_goals omega

theorem fbits_lt (x : F32) : fbits x < 2 ^ 31 := Nat.mod_lt _ (by norm_num)

/-- A pattern is its sign and its magnitude bits. -/
theorem packF_fields (x : F32) : packF (fsign x) (fbits x) = x := by
  apply BitVec.eq_of_toNat_eq
  rw [packF_toNat _ (fbits_lt x)]
  have := x.isLt
  unfold fsign fbits
  split_ifs with h <;> simp at h <;> omega

theorem fexp_eq (x : F32) : fexp x = fbits x / 2 ^ 23 := by
  have := x.isLt
  unfold fexp fbits
  omega

theorem ffrac_eq (x : F32) : ffrac x = fbits x % 2 ^ 23 := by
  unfold ffrac fbits
  omega

@[simp] theorem fsign_fneg (x : F32) : fsign (fneg x) = !fsign x := fsign_packF _ (fbits_lt x)

@[simp] theorem fbits_fneg (x : F32) : fbits (fneg x) = fbits x := fbits_packF _ (fbits_lt x)

@[simp] theorem fneg_fneg (x : F32) : fneg (fneg x) = x := by
  rw [fneg, fsign_fneg, fbits_fneg, Bool.not_not, packF_fields]

@[simp] theorem fsign_fabs (x : F32) : fsign (fabs x) = false := fsign_packF _ (fbits_lt x)

@[simp] theorem fbits_fabs (x : F32) : fbits (fabs x) = fbits x := fbits_packF _ (fbits_lt x)

/-! ### Kinds of values -/

theorem isNaN_iff (x : F32) : isNaN x = true ↔ 0x7F800000 < fbits x := by
  have := fbits_lt x
  simp only [isNaN, fexp_eq, ffrac_eq, Bool.and_eq_true, beq_iff_eq, bne_iff_ne]
  omega

theorem isInf_iff (x : F32) : isInf x = true ↔ fbits x = 0x7F800000 := by
  have := fbits_lt x
  simp only [isInf, fexp_eq, ffrac_eq, Bool.and_eq_true, beq_iff_eq]
  omega

theorem isFinite_iff (x : F32) : isFinite x = true ↔ fbits x < 0x7F800000 := by
  have := fbits_lt x
  simp only [isFinite, fexp_eq, bne_iff_ne]
  omega

theorem isZero_iff (x : F32) : isZero x = true ↔ fbits x = 0 := by
  simp [isZero]

/-- A value is finite, infinite or NaN. -/
theorem kind_cases (x : F32) : isFinite x = true ∨ isInf x = true ∨ isNaN x = true := by
  rw [isFinite_iff, isInf_iff, isNaN_iff]
  omega

theorem not_isNaN_of_isFinite {x : F32} (h : isFinite x = true) : isNaN x = false := by
  rw [isFinite_iff] at h
  by_contra hn
  rw [Bool.not_eq_false, isNaN_iff] at hn
  omega

theorem not_isInf_of_isFinite {x : F32} (h : isFinite x = true) : isInf x = false := by
  rw [isFinite_iff] at h
  by_contra hn
  rw [Bool.not_eq_false, isInf_iff] at hn
  omega

/-- The NaN an operation delivers is a NaN, whatever the free pattern. -/
theorem isNaN_nanF (f : Fns) (op : NanOp) (a b : F32) : isNaN (nanF f op a b) = true := by
  unfold nanF
  split_ifs with h
  · exact h
  · decide

@[simp] theorem isFinite_fneg (x : F32) : isFinite (fneg x) = isFinite x := by
  rw [Bool.eq_iff_iff, isFinite_iff, isFinite_iff, fbits_fneg]

@[simp] theorem isNaN_fneg (x : F32) : isNaN (fneg x) = isNaN x := by
  rw [Bool.eq_iff_iff, isNaN_iff, isNaN_iff, fbits_fneg]

@[simp] theorem isZero_fneg (x : F32) : isZero (fneg x) = isZero x := by
  rw [Bool.eq_iff_iff, isZero_iff, isZero_iff, fbits_fneg]

/-! ### Magnitudes -/

theorem fmag_eq (x : F32) :
    fmag x = if fbits x < 2 ^ 23 then fbits x else (2 ^ 23 + fbits x % 2 ^ 23) * 2 ^ (fbits x / 2 ^ 23 - 1) := by
  unfold fmag
  rw [fexp_eq, ffrac_eq]
  by_cases h : fbits x < 2 ^ 23
  · rw [if_pos h, if_pos (Nat.div_eq_of_lt h), Nat.mod_eq_of_lt h]
  · rw [if_neg h, if_neg (by omega)]

@[simp] theorem fmag_fneg (x : F32) : fmag (fneg x) = fmag x := by rw [fmag_eq, fmag_eq, fbits_fneg]

theorem fmag_eq_zero_iff (x : F32) : fmag x = 0 ↔ isZero x = true := by
  rw [isZero_iff, fmag_eq]
  split_ifs with h
  · rfl
  · constructor
    · intro h0
      rcases Nat.mul_eq_zero.mp h0 with h1 | h1
      · omega
      · exact absurd h1 (by positivity)
    · intro h0; omega

@[simp] theorem units_fneg (x : F32) : units (fneg x) = -units x := by
  unfold units
  rw [fsign_fneg, fmag_fneg]
  cases fsign x <;> simp

theorem natAbs_units (x : F32) : (units x).natAbs = fmag x := by
  unfold units
  cases fsign x <;> simp

/-! ### Narrowing -/

theorem roundBits_le (n d : Nat) : roundBits n d ≤ 0x7F800000 := Nat.min_le_right _ _

theorem flushBits_le (ftz : Bool) {b k : Nat} (h : b ≤ k) : flushBits ftz b ≤ k := by
  unfold flushBits
  split_ifs
  · omega
  · exact h

@[simp] theorem fsign_roundF (ftz neg : Bool) (n d : Nat) : fsign (roundF ftz neg n d) = neg :=
  fsign_packF neg (lt_of_le_of_lt (flushBits_le ftz (roundBits_le n d)) (by norm_num))

@[simp] theorem fbits_roundF (ftz neg : Bool) (n d : Nat) :
    fbits (roundF ftz neg n d) = flushBits ftz (roundBits n d) :=
  fbits_packF neg (lt_of_le_of_lt (flushBits_le ftz (roundBits_le n d)) (by norm_num))

/-- A narrowed value is never NaN. -/
@[simp] theorem isNaN_roundF (ftz neg : Bool) (n d : Nat) : isNaN (roundF ftz neg n d) = false := by
  by_contra h
  rw [Bool.not_eq_false, isNaN_iff, fbits_roundF] at h
  exact absurd (flushBits_le ftz (roundBits_le n d)) (by omega)

/-- The unclipped magnitude bits: the kept step and the rounded multiple of it. -/
theorem roundBits_eq (n d sh : Nat) (hs : Nat.log2 (n / d) - 23 = sh) :
    roundBits n d =
      min (sh * 2 ^ 23 + (if d * 2 ^ sh < 2 * (n % (d * 2 ^ sh)) ∨
        (2 * (n % (d * 2 ^ sh)) = d * 2 ^ sh ∧ n / (d * 2 ^ sh) % 2 = 1)
        then n / (d * 2 ^ sh) + 1 else n / (d * 2 ^ sh))) 0x7F800000 := by
  subst hs
  rfl

/-- An exact multiple of the kept step is not rounded. -/
theorem roundBits_exact {k sh : Nat} (h : Nat.log2 (k * 2 ^ sh) - 23 = sh) :
    roundBits (k * 2 ^ sh) 1 = min (sh * 2 ^ 23 + k) 0x7F800000 := by
  rw [roundBits_eq _ _ sh (by simpa using h)]
  have hp : 0 < 2 ^ sh := by positivity
  have hm : k * 2 ^ sh % 2 ^ sh = 0 := Nat.mul_mod_left _ _
  have hdv : k * 2 ^ sh / 2 ^ sh = k := Nat.mul_div_cancel _ hp
  rw [one_mul, hm, hdv, if_neg (by omega)]

theorem log2_mul_two_pow {k : Nat} (hk : k ≠ 0) (sh : Nat) : Nat.log2 (k * 2 ^ sh) = Nat.log2 k + sh := by
  rw [Nat.log2_eq_iff (by positivity)]
  have h1 := Nat.log2_self_le hk
  have h2 := Nat.lt_log2_self (n := k)
  constructor
  · rw [pow_add]; exact Nat.mul_le_mul_right _ h1
  · rw [show Nat.log2 k + sh + 1 = (Nat.log2 k + 1) + sh by ring, pow_add]
    exact Nat.mul_lt_mul_of_pos_right h2 (by positivity)

/-- Narrowing a finite binary32 value gives that value. -/
theorem roundBits_fmag {x : F32} (h : isFinite x = true) : roundBits (fmag x) 1 = fbits x := by
  rw [isFinite_iff] at h
  rw [fmag_eq]
  by_cases hs : fbits x < 2 ^ 23
  · rw [if_pos hs]
    have hl : Nat.log2 (fbits x * 2 ^ 0) - 23 = 0 := by
      by_cases h0 : fbits x = 0
      · simp [h0]
      · have : Nat.log2 (fbits x) < 23 := (Nat.log2_lt h0).mpr hs
        simp only [pow_zero, mul_one]; omega
    have := roundBits_exact hl
    simp only [pow_zero, mul_one, zero_mul, zero_add] at this
    rw [this]; omega
  · rw [if_neg hs]
    set e := fbits x / 2 ^ 23 with he
    set f := fbits x % 2 ^ 23 with hf
    have hlog : Nat.log2 (2 ^ 23 + f) = 23 := by
      rw [Nat.log2_eq_iff (by omega)]; omega
    have hl : Nat.log2 ((2 ^ 23 + f) * 2 ^ (e - 1)) - 23 = e - 1 := by
      rw [log2_mul_two_pow (by omega), hlog]; omega
    rw [roundBits_exact hl]
    omega

/-- Narrowing the exact value of a finite pattern gives the pattern, when nothing is flushed. -/
theorem roundF_fmag {x : F32} (h : isFinite x = true) : roundF false (fsign x) (fmag x) 1 = x := by
  unfold roundF flushBits
  simp only [Bool.false_and, Bool.false_eq_true, if_false]
  rw [roundBits_fmag h, packF_fields]

/-- Rounding to the multiple of a step is monotone. -/
theorem roundStep_mono {n n' u : Nat} (h : n ≤ n') :
    (if u < 2 * (n % u) ∨ (2 * (n % u) = u ∧ n / u % 2 = 1) then n / u + 1 else n / u)
      ≤ (if u < 2 * (n' % u) ∨ (2 * (n' % u) = u ∧ n' / u % 2 = 1) then n' / u + 1 else n' / u) := by
  have hd : n / u ≤ n' / u := Nat.div_le_div_right h
  rcases Nat.lt_or_eq_of_le hd with hlt | heq
  · split_ifs <;> omega
  · have h1 := Nat.div_add_mod n u
    have h2 := Nat.div_add_mod n' u
    rw [← heq] at h2
    have hr : n % u ≤ n' % u := by omega
    rw [← heq]
    split_ifs <;> omega

/-- Narrowing is monotone. -/
theorem roundBits_mono {n n' d : Nat} (h : n ≤ n') : roundBits n d ≤ roundBits n' d := by
  have hq : n / d ≤ n' / d := Nat.div_le_div_right h
  have hlog : Nat.log2 (n / d) ≤ Nat.log2 (n' / d) := by
    by_cases h0 : n / d = 0
    · simp [h0]
    · have h0' : n' / d ≠ 0 := fun h' => h0 (Nat.le_zero.mp (h' ▸ hq))
      rw [Nat.le_log2 h0']
      exact le_trans (Nat.log2_self_le h0) hq
  rw [roundBits_eq n d _ rfl, roundBits_eq n' d _ rfl]
  apply min_le_min_right
  set s := Nat.log2 (n / d) - 23 with hs
  set s' := Nat.log2 (n' / d) - 23 with hs'
  have hss : s ≤ s' := by omega
  rcases Nat.lt_or_eq_of_le hss with hlt | heq
  · have hup : n / (d * 2 ^ s) < 2 ^ 24 := by
      rw [← Nat.div_div_eq_div_mul, Nat.div_lt_iff_lt_mul (by positivity), ← pow_add]
      exact lt_of_lt_of_le Nat.lt_log2_self (Nat.pow_le_pow_right (by norm_num) (by omega))
    have h0' : n' / d ≠ 0 := by
      intro h0
      rw [h0] at hs'
      simp at hs'
      omega
    have hlow : 2 ^ 23 ≤ n' / (d * 2 ^ s') := by
      rw [← Nat.div_div_eq_div_mul, Nat.le_div_iff_mul_le (by positivity), ← pow_add]
      exact le_trans (Nat.pow_le_pow_right (by norm_num) (by omega)) (Nat.log2_self_le h0')
    have : (s + 1) * 2 ^ 23 ≤ s' * 2 ^ 23 := Nat.mul_le_mul_right _ hlt
    split_ifs <;> omega
  · rw [← heq]
    have := roundStep_mono (u := d * 2 ^ s) h
    omega

/-! ### NaN factors -/

@[simp] theorem operandF_nan (ftz : Bool) {x : F32} (h : isNaN x = true) : operandF ftz x = x := by
  have : isSubnormal x = false := by
    simp only [isNaN, isSubnormal, Bool.and_eq_true, beq_iff_eq, Bool.and_eq_false_iff, beq_eq_false_iff_ne] at h ⊢
    omega
  unfold operandF
  simp [this]

/-- A NaN factor gives a NaN, of a free pattern. -/
theorem Env.mul_nan_left (e : Env) {a b : F32} (h : isNaN a = true) :
    e.mul a b = nanF e.f .mul a (operandF e.p.ftz b) := by
  unfold Env.mul mulCore
  simp [h]

/-! ### Zero factors -/

@[simp] theorem roundBits_zero (d : Nat) : roundBits 0 d = 0 := by
  rw [roundBits_eq 0 d 0 (by simp)]
  simp

theorem isFinite_operandF {x : F32} (ftz : Bool) (h : isFinite x = true) : isFinite (operandF ftz x) = true := by
  unfold operandF
  split_ifs
  · rw [isFinite_iff, fbits_packF _ (by norm_num)]; norm_num
  · exact h

/-- +0.0 times a finite value is a zero of some sign. -/
theorem Env.mul_fzero (e : Env) {y : F32} (h : isFinite y = true) :
    e.mul fzero y = packF false 0 ∨ e.mul fzero y = packF true 0 := by
  have hy := isFinite_operandF e.p.ftz h
  have h0 : operandF e.p.ftz fzero = fzero := by unfold operandF; split_ifs <;> decide
  have hz : isNaN fzero = false ∧ isInf fzero = false ∧ fmag fzero = 0 := by decide
  unfold Env.mul mulCore
  rw [h0]
  simp only [hz.1, hz.2.1, hz.2.2, not_isNaN_of_isFinite hy, not_isInf_of_isFinite hy, Bool.or_self,
    Bool.false_eq_true, if_false, Nat.zero_mul]
  have : ∀ b, roundF e.p.ftz b 0 (2 ^ 149) = packF b 0 := by
    intro b
    unfold roundF flushBits
    rw [roundBits_zero]
    split_ifs <;> rfl
  rw [this]
  cases (fsign fzero != fsign (operandF e.p.ftz y)) <;> simp

/-- A product of finite factors is never a NaN: it is finite or it has overflowed to an infinity. -/
theorem Env.mul_finite (e : Env) {a b : F32} (ha : isFinite a = true) (hb : isFinite b = true) :
    isNaN (e.mul a b) = false := by
  have ha := isFinite_operandF e.p.ftz ha
  have hb := isFinite_operandF e.p.ftz hb
  unfold Env.mul mulCore
  simp [not_isNaN_of_isFinite ha, not_isNaN_of_isFinite hb, not_isInf_of_isFinite ha, not_isInf_of_isFinite hb]

/-! ### Orders -/

/-- fmin and fmax deliver one of two non-NaN operands. -/
theorem Env.min_mem (e : Env) {a b : F32} (ha : isNaN a = false) (hb : isNaN b = false) :
    e.min a b = a ∨ e.min a b = b := by
  unfold Env.min
  simp only [ha, hb, Bool.false_eq_true, if_false]
  split_ifs <;> simp

theorem Env.max_mem (e : Env) {a b : F32} (ha : isNaN a = false) (hb : isNaN b = false) :
    e.max a b = a ∨ e.max a b = b := by
  unfold Env.max
  simp only [ha, hb, Bool.false_eq_true, if_false]
  split_ifs <;> simp

theorem ordKey_le_of_totalKey_le {a b : F32} (h : totalKey a ≤ totalKey b) : ordKey a ≤ ordKey b := by
  unfold totalKey at h
  unfold ordKey
  split_ifs at h ⊢ <;> omega

theorem Env.min_le_left (e : Env) {a b : F32} (ha : isNaN a = false) (hb : isNaN b = false) :
    ordKey (e.min a b) ≤ ordKey a ∧ ordKey (e.min a b) ≤ ordKey b := by
  unfold Env.min
  simp only [ha, hb, Bool.false_eq_true, if_false]
  split_ifs with h
  · exact ⟨le_refl _, ordKey_le_of_totalKey_le h⟩
  · exact ⟨ordKey_le_of_totalKey_le (by omega), le_refl _⟩

theorem Env.le_max_left (e : Env) {a b : F32} (ha : isNaN a = false) (hb : isNaN b = false) :
    ordKey a ≤ ordKey (e.max a b) ∧ ordKey b ≤ ordKey (e.max a b) := by
  unfold Env.max
  simp only [ha, hb, Bool.false_eq_true, if_false]
  split_ifs with h
  · exact ⟨ordKey_le_of_totalKey_le h, le_refl _⟩
  · exact ⟨le_refl _, ordKey_le_of_totalKey_le (by omega)⟩

/-- A clamp lies between its bounds, whatever the value (R20): a NaN is replaced by a bound. -/
theorem Env.clamp_bounds (e : Env) (x : F32) {lo hi : F32} (hlo : isNaN lo = false) (hhi : isNaN hi = false)
    (h : ordKey lo ≤ ordKey hi) :
    isNaN (e.clamp x lo hi) = false ∧ ordKey lo ≤ ordKey (e.clamp x lo hi) ∧ ordKey (e.clamp x lo hi) ≤ ordKey hi := by
  have hm : isNaN (e.max x lo) = false ∧ ordKey lo ≤ ordKey (e.max x lo) := by
    by_cases hx : isNaN x = true
    · have : e.max x lo = lo := by unfold Env.max; simp [hx, hlo]
      rw [this]; exact ⟨hlo, le_refl _⟩
    · rw [Bool.not_eq_true] at hx
      exact ⟨by rcases e.max_mem hx hlo with h | h <;> rw [h] <;> assumption, (e.le_max_left hx hlo).2⟩
  unfold Env.clamp
  refine ⟨by rcases e.min_mem hm.1 hhi with h | h <;> rw [h] <;> [exact hm.1; exact hhi], ?_, (e.min_le_left hm.1 hhi).2⟩
  rcases e.min_mem hm.1 hhi with h' | h' <;> rw [h']
  · exact hm.2
  · exact h

end Sys2Proof
end

