-- ==== Sys2Proof/Laws/Memory.lean ====
section
/-! SUPPORT. The laws of the window's bytes: what a read gives after a write, and that every write keeps the canonical
form. -/

namespace Sys2Proof.Machine

/-! ### Cells -/

theorem findCell_putCell_same (m : Memory) (a : Nat) (v : Byte) : Memory.findCell (Memory.putCell m a v) a = some v := by
  induction m with
  | nil => simp [Memory.putCell, Memory.findCell]
  | cons c m ih =>
    obtain ⟨b, u⟩ := c
    simp only [Memory.putCell]
    split_ifs with h1 h2 <;> simp_all [Memory.findCell]

theorem findCell_putCell_ne (m : Memory) {a b : Nat} (v : Byte) (h : b ≠ a) :
    Memory.findCell (Memory.putCell m a v) b = Memory.findCell m b := by
  induction m with
  | nil => simp [Memory.putCell, Memory.findCell, h]
  | cons c m ih =>
    obtain ⟨k, u⟩ := c
    simp only [Memory.putCell]
    split_ifs with h1 h2
    · simp [Memory.findCell, h]
    · subst h2; simp [Memory.findCell, h]
    · simp only [Memory.findCell, ih]

theorem findCell_dropCell_ne (m : Memory) {a b : Nat} (h : b ≠ a) :
    Memory.findCell (Memory.dropCell m a) b = Memory.findCell m b := by
  induction m with
  | nil => rfl
  | cons c m ih =>
    obtain ⟨k, u⟩ := c
    simp only [Memory.dropCell]
    split_ifs with h1
    · subst h1; simp [Memory.findCell, h]
    · simp only [Memory.findCell, ih]

theorem rising_mono {lo lo' : Nat} {m : Memory} (h : Memory.rising lo m = true) (hl : lo' ≤ lo) :
    Memory.rising lo' m = true := by
  cases m with
  | nil => rfl
  | cons c m =>
    obtain ⟨a, v⟩ := c
    simp only [Memory.rising, Bool.and_eq_true, decide_eq_true_eq] at h ⊢
    exact ⟨le_trans hl h.1, h.2⟩

theorem findCell_below {lo a : Nat} {m : Memory} (h : Memory.rising lo m = true) (ha : a < lo) :
    Memory.findCell m a = none := by
  induction m generalizing lo with
  | nil => rfl
  | cons c m ih =>
    obtain ⟨b, v⟩ := c
    simp only [Memory.rising, Bool.and_eq_true, decide_eq_true_eq] at h
    have : a ≠ b := by omega
    simp only [Memory.findCell, this, if_false]
    exact ih h.2 (by omega)

theorem rising_putCell {lo : Nat} {m : Memory} {a : Nat} (v : Byte) (h : Memory.rising lo m = true) (ha : lo ≤ a) :
    Memory.rising lo (Memory.putCell m a v) = true := by
  induction m generalizing lo with
  | nil => simp [Memory.putCell, Memory.rising, ha]
  | cons c m ih =>
    obtain ⟨b, u⟩ := c
    simp only [Memory.rising, Bool.and_eq_true, decide_eq_true_eq] at h
    simp only [Memory.putCell]
    split_ifs with h1 h2
    · simp only [Memory.rising, Bool.and_eq_true, decide_eq_true_eq]; exact ⟨ha, by omega, h.2⟩
    · subst h2; simp only [Memory.rising, Bool.and_eq_true, decide_eq_true_eq]; exact ⟨h.1, h.2⟩
    · simp only [Memory.rising, Bool.and_eq_true, decide_eq_true_eq]
      exact ⟨h.1, ih h.2 (by omega)⟩

theorem rising_dropCell {lo : Nat} {m : Memory} (a : Nat) (h : Memory.rising lo m = true) :
    Memory.rising lo (Memory.dropCell m a) = true := by
  induction m generalizing lo with
  | nil => rfl
  | cons c m ih =>
    obtain ⟨b, u⟩ := c
    simp only [Memory.rising, Bool.and_eq_true, decide_eq_true_eq] at h
    simp only [Memory.dropCell]
    split_ifs with h1
    · exact rising_mono h.2 (by omega)
    · simp only [Memory.rising, Bool.and_eq_true, decide_eq_true_eq]; exact ⟨h.1, ih h.2⟩

theorem mem_putCell {m : Memory} {a : Nat} {v : Byte} {c : Host.Cell} (h : c ∈ Memory.putCell m a v) :
    c = (a, v) ∨ c ∈ m := by
  induction m with
  | nil => simpa [Memory.putCell] using h
  | cons d m ih =>
    obtain ⟨b, u⟩ := d
    simp only [Memory.putCell] at h
    split_ifs at h with h1 h2
    · simpa using h
    · rcases List.mem_cons.mp h with h | h
      · exact .inl h
      · exact .inr (List.mem_cons_of_mem _ h)
    · rcases List.mem_cons.mp h with h | h
      · exact .inr (h ▸ List.mem_cons_self)
      · rcases ih h with h | h
        · exact .inl h
        · exact .inr (List.mem_cons_of_mem _ h)

theorem mem_dropCell {m : Memory} {a : Nat} {c : Host.Cell} (h : c ∈ Memory.dropCell m a) : c ∈ m := by
  induction m with
  | nil => exact h
  | cons d m ih =>
    obtain ⟨b, u⟩ := d
    simp only [Memory.dropCell] at h
    split_ifs at h with h1
    · exact List.mem_cons_of_mem _ h
    · rcases List.mem_cons.mp h with h | h
      · exact h ▸ List.mem_cons_self
      · exact List.mem_cons_of_mem _ (ih h)

theorem findCell_dropCell_same {lo : Nat} {m : Memory} (a : Nat) (h : Memory.rising lo m = true) :
    Memory.findCell (Memory.dropCell m a) a = none := by
  induction m generalizing lo with
  | nil => rfl
  | cons c m ih =>
    obtain ⟨b, u⟩ := c
    simp only [Memory.rising, Bool.and_eq_true, decide_eq_true_eq] at h
    simp only [Memory.dropCell]
    split_ifs with h1
    · subst h1; exact findCell_below h.2 (Nat.lt_succ_self _)
    · simp only [Memory.findCell, h1, if_false]; exact ih h.2

/-! ### The canonical form -/

theorem Memory.wf_iff (m : Memory) :
    Memory.wf m = true ↔ Memory.rising 0 m = true ∧ ∀ c ∈ m, Memory.unlisted c.1 ≠ some c.2 := by
  simp [Memory.wf, List.all_eq_true]

@[simp] theorem Memory.wf_nil : Memory.wf [] = true := rfl

/-- Writing a byte keeps the canonical form. -/
theorem Memory.wf_writeByte {m : Memory} (a : Nat) (v : Byte) (h : Memory.wf m = true) :
    Memory.wf (Memory.writeByte m a v) = true := by
  rw [Memory.wf_iff] at h ⊢
  unfold Memory.writeByte
  split_ifs with hu
  · exact ⟨rising_dropCell a h.1, fun c hc => h.2 c (mem_dropCell hc)⟩
  · refine ⟨rising_putCell v h.1 (Nat.zero_le a), fun c hc => ?_⟩
    rcases mem_putCell hc with rfl | hc
    · exact hu
    · exact h.2 c hc

theorem Memory.wf_writeWord {m : Memory} (a : Nat) (w : Word) (h : Memory.wf m = true) :
    Memory.wf (Memory.writeWord m a w) = true := by
  unfold Memory.writeWord
  exact Memory.wf_writeByte _ _ (Memory.wf_writeByte _ _ (Memory.wf_writeByte _ _ (Memory.wf_writeByte _ _ h)))

theorem Memory.wf_writeWords {m : Memory} (a : Nat) (ws : List Word) (h : Memory.wf m = true) :
    Memory.wf (Memory.writeWords m a ws) = true := by
  induction ws generalizing m a with
  | nil => exact h
  | cons w ws ih => exact ih (a + 4) (Memory.wf_writeWord a w h)

/-! ### Reading back -/

theorem Memory.readByte_writeByte_same {m : Memory} (a : Nat) (v : Byte) (h : Memory.wf m = true) :
    Memory.readByte (Memory.writeByte m a v) a = some v := by
  have hr := ((Memory.wf_iff m).mp h).1
  unfold Memory.readByte Memory.writeByte
  split_ifs with hu
  · rw [findCell_dropCell_same a hr]; exact hu
  · rw [findCell_putCell_same]

/-- Writing a byte leaves every other byte alone. -/
theorem Memory.readByte_writeByte_ne (m : Memory) {a b : Nat} (v : Byte) (h : b ≠ a) :
    Memory.readByte (Memory.writeByte m a v) b = Memory.readByte m b := by
  unfold Memory.readByte Memory.writeByte
  split_ifs with hu
  · rw [findCell_dropCell_ne m h]
  · rw [findCell_putCell_ne m v h]

/-- Writing a word leaves every byte outside its four alone. -/
theorem Memory.readByte_writeWord_outside (m : Memory) {a b : Nat} (w : Word) (h : b < a ∨ a + 4 ≤ b) :
    Memory.readByte (Memory.writeWord m a w) b = Memory.readByte m b := by
  unfold Memory.writeWord
  rw [Memory.readByte_writeByte_ne _ _ (by omega), Memory.readByte_writeByte_ne _ _ (by omega),
    Memory.readByte_writeByte_ne _ _ (by omega), Memory.readByte_writeByte_ne _ _ (by omega)]

theorem byteOf_toNat (w : Word) (j : Nat) : (byteOf w j).toNat = w.toNat / 256 ^ j % 256 := by
  simp [byteOf, BitVec.toNat_ofNat]

theorem wordOf_bytes (w : Word) : wordOf (byteOf w 0) (byteOf w 1) (byteOf w 2) (byteOf w 3) = w := by
  apply BitVec.eq_of_toNat_eq
  have := w.isLt
  simp only [wordOf, byteOf_toNat, BitVec.toNat_ofNat]
  norm_num
  omega

/-- A word reads back as written. -/
theorem Memory.readWord_writeWord_same {m : Memory} (a : Nat) (w : Word) (h : Memory.wf m = true) :
    Memory.readWord (Memory.writeWord m a w) a = some w := by
  have h1 := Memory.wf_writeByte a (byteOf w 0) h
  have h2 := Memory.wf_writeByte (a + 1) (byteOf w 1) h1
  have h3 := Memory.wf_writeByte (a + 2) (byteOf w 2) h2
  have r0 : Memory.readByte (Memory.writeWord m a w) a = some (byteOf w 0) := by
    unfold Memory.writeWord
    rw [Memory.readByte_writeByte_ne _ _ (by omega), Memory.readByte_writeByte_ne _ _ (by omega),
      Memory.readByte_writeByte_ne _ _ (by omega), Memory.readByte_writeByte_same _ _ h]
  have r1 : Memory.readByte (Memory.writeWord m a w) (a + 1) = some (byteOf w 1) := by
    unfold Memory.writeWord
    rw [Memory.readByte_writeByte_ne _ _ (by omega), Memory.readByte_writeByte_ne _ _ (by omega),
      Memory.readByte_writeByte_same _ _ h1]
  have r2 : Memory.readByte (Memory.writeWord m a w) (a + 2) = some (byteOf w 2) := by
    unfold Memory.writeWord
    rw [Memory.readByte_writeByte_ne _ _ (by omega), Memory.readByte_writeByte_same _ _ h2]
  have r3 : Memory.readByte (Memory.writeWord m a w) (a + 3) = some (byteOf w 3) := by
    unfold Memory.writeWord
    rw [Memory.readByte_writeByte_same _ _ h3]
  simp only [Memory.readWord, r0, r1, r2, r3, wordOf_bytes]

/-- Two states of memory with the same four bytes hold the same word. -/
theorem Memory.readWord_congr {m m' : Memory} {a : Nat}
    (h : ∀ b, a ≤ b → b < a + 4 → Memory.readByte m b = Memory.readByte m' b) :
    Memory.readWord m a = Memory.readWord m' a := by
  unfold Memory.readWord
  rw [h a (by omega) (by omega), h (a + 1) (by omega) (by omega), h (a + 2) (by omega) (by omega),
    h (a + 3) (by omega) (by omega)]

theorem Memory.readWord_writeWord_disjoint (m : Memory) {a b : Nat} (w : Word) (h : b + 4 ≤ a ∨ a + 4 ≤ b) :
    Memory.readWord (Memory.writeWord m a w) b = Memory.readWord m b :=
  Memory.readWord_congr fun c h1 h2 => Memory.readByte_writeWord_outside m w (by omega)

/-- Writing consecutive words leaves every byte outside them alone. -/
theorem Memory.readByte_writeWords_outside (m : Memory) {a b : Nat} (ws : List Word)
    (h : b < a ∨ a + 4 * ws.length ≤ b) :
    Memory.readByte (Memory.writeWords m a ws) b = Memory.readByte m b := by
  induction ws generalizing m a with
  | nil => rfl
  | cons w ws ih =>
    simp only [List.length_cons] at h
    simp only [Memory.writeWords]
    rw [ih _ (by omega), Memory.readByte_writeWord_outside m w (by omega)]

theorem Memory.readWord_writeWords_outside (m : Memory) {a b : Nat} (ws : List Word)
    (h : b + 4 ≤ a ∨ a + 4 * ws.length ≤ b) :
    Memory.readWord (Memory.writeWords m a ws) b = Memory.readWord m b :=
  Memory.readWord_congr fun c h1 h2 => Memory.readByte_writeWords_outside m ws (by omega)

/-- Consecutive words read back as written. -/
theorem Memory.readWord_writeWords {m : Memory} (a : Nat) (ws : List Word) (h : Memory.wf m = true) (i : Nat)
    (hi : i < ws.length) : Memory.readWord (Memory.writeWords m a ws) (a + 4 * i) = some ws[i] := by
  induction ws generalizing m a i with
  | nil => simp at hi
  | cons w ws ih =>
    simp only [Memory.writeWords]
    cases i with
    | zero =>
      have h0 := Memory.readWord_writeWords_outside (Memory.writeWord m a w) (a := a + 4) (b := a) ws (by omega)
      simpa [Memory.readWord_writeWord_same a w h] using h0
    | succ i =>
      have hi' : i < ws.length := by simpa using hi
      have := ih (a + 4) (Memory.wf_writeWord a w h) i hi'
      rw [show a + 4 * (i + 1) = a + 4 + 4 * i by ring, this]
      rfl

theorem Memory.readWords_writeWords {m : Memory} (a : Nat) (ws : List Word) (h : Memory.wf m = true) :
    Memory.readWords (Memory.writeWords m a ws) a ws.length = ws := by
  apply List.ext_getElem
  · simp [Memory.readWords]
  · intro i h1 h2
    simp [Memory.readWords, Memory.readWord_writeWords a ws h i h2]

@[simp] theorem Memory.readWords_length (m : Memory) (a n : Nat) : (Memory.readWords m a n).length = n := by
  simp [Memory.readWords]

@[simp] theorem Memory.readSlots_length (m : Memory) (a n : Nat) : (Memory.readSlots m a n).length = n := by
  simp [Memory.readSlots]

/-- An unwritten byte lies in a sample buffer. -/
theorem Memory.readByte_isSome (m : Memory) {a : Nat} (h : a < 0x1000 ∨ 0x3000 ≤ a) :
    (Memory.readByte m a).isSome = true := by
  unfold Memory.readByte
  cases hf : Memory.findCell m a with
  | some v => rfl
  | none =>
    have : ¬ (0x1000 ≤ a ∧ a < 0x3000) := by omega
    simp [Memory.unlisted, sampLBase, this]

/-- Every word outside the sample buffers has a value. -/
theorem Memory.readWord_isSome (m : Memory) {a : Nat} (h : a + 4 ≤ 0x1000 ∨ 0x3000 ≤ a) :
    ∃ w, Memory.readWord m a = some w := by
  obtain ⟨b0, h0⟩ := Option.isSome_iff_exists.mp (Memory.readByte_isSome m (a := a) (by omega))
  obtain ⟨b1, h1⟩ := Option.isSome_iff_exists.mp (Memory.readByte_isSome m (a := a + 1) (by omega))
  obtain ⟨b2, h2⟩ := Option.isSome_iff_exists.mp (Memory.readByte_isSome m (a := a + 2) (by omega))
  obtain ⟨b3, h3⟩ := Option.isSome_iff_exists.mp (Memory.readByte_isSome m (a := a + 3) (by omega))
  exact ⟨_, by simp only [Memory.readWord, h0, h1, h2, h3]; rfl⟩

end Sys2Proof.Machine
end

