-- ==== Sys2Proof/Laws/State.lean ====
section
/-! SUPPORT. One lemma per field and update of State, so that no proof unfolds a record update. -/

namespace Sys2Proof.Machine

variable (s : State)

/-! ### finish -/

@[simp] theorem finish_cfg (c : ErrCode) : (s.finish c).cfg = s.cfg := rfl
@[simp] theorem finish_inbox (c : ErrCode) : (s.finish c).inbox = s.inbox := rfl
@[simp] theorem finish_inReset (c : ErrCode) : (s.finish c).inReset = s.inReset := rfl
@[simp] theorem finish_epoch (c : ErrCode) : (s.finish c).epoch = s.epoch := rfl
@[simp] theorem finish_rdata (c : ErrCode) : (s.finish c).rdata = s.rdata := rfl
@[simp] theorem finish_busy (c : ErrCode) : (s.finish c).busy = false := rfl
@[simp] theorem finish_drop (c : ErrCode) : (s.finish c).drop = s.drop := rfl
@[simp] theorem finish_err (c : ErrCode) : (s.finish c).err = c := rfl
@[simp] theorem finish_mode (c : ErrCode) : (s.finish c).mode = s.mode := rfl
@[simp] theorem finish_notchEn (c : ErrCode) : (s.finish c).notchEn = s.notchEn := rfl
@[simp] theorem finish_gain (c : ErrCode) : (s.finish c).gain = s.gain := rfl
@[simp] theorem finish_hLen (c : ErrCode) : (s.finish c).hLen = s.hLen := rfl
@[simp] theorem finish_args (c : ErrCode) : (s.finish c).args = s.args := rfl
@[simp] theorem finish_tune (c : ErrCode) : (s.finish c).tune = s.tune := rfl
@[simp] theorem finish_snap (c : ErrCode) : (s.finish c).snap = s.snap := rfl
@[simp] theorem finish_mem (c : ErrCode) : (s.finish c).mem = s.mem := rfl
@[simp] theorem finish_lms (c : ErrCode) : (s.finish c).lms = s.lms := rfl
@[simp] theorem finish_anrNr (c : ErrCode) : (s.finish c).anrNr = s.anrNr := rfl
@[simp] theorem finish_anrNotch (c : ErrCode) : (s.finish c).anrNotch = s.anrNotch := rfl
@[simp] theorem finish_kim (c : ErrCode) : (s.finish c).kim = s.kim := rfl
@[simp] theorem finish_mmse (c : ErrCode) : (s.finish c).mmse = s.mmse := rfl

/-! ### done -/

@[simp] theorem done_cfg : (s.done).cfg = s.cfg := rfl
@[simp] theorem done_inbox : (s.done).inbox = s.inbox := rfl
@[simp] theorem done_inReset : (s.done).inReset = s.inReset := rfl
@[simp] theorem done_epoch : (s.done).epoch = s.epoch := rfl
@[simp] theorem done_rdata : (s.done).rdata = s.rdata := rfl
@[simp] theorem done_busy : (s.done).busy = false := rfl
@[simp] theorem done_drop : (s.done).drop = s.drop := rfl
@[simp] theorem done_err : (s.done).err = .ok := rfl
@[simp] theorem done_mode : (s.done).mode = s.mode := rfl
@[simp] theorem done_notchEn : (s.done).notchEn = s.notchEn := rfl
@[simp] theorem done_gain : (s.done).gain = s.gain := rfl
@[simp] theorem done_hLen : (s.done).hLen = s.hLen := rfl
@[simp] theorem done_args : (s.done).args = s.args := rfl
@[simp] theorem done_tune : (s.done).tune = s.tune := rfl
@[simp] theorem done_snap : (s.done).snap = s.snap := rfl
@[simp] theorem done_mem : (s.done).mem = s.mem := rfl
@[simp] theorem done_lms : (s.done).lms = s.lms := rfl
@[simp] theorem done_anrNr : (s.done).anrNr = s.anrNr := rfl
@[simp] theorem done_anrNotch : (s.done).anrNotch = s.anrNotch := rfl
@[simp] theorem done_kim : (s.done).kim = s.kim := rfl
@[simp] theorem done_mmse : (s.done).mmse = s.mmse := rfl

/-! ### fail -/

@[simp] theorem fail_cfg (c : ErrCode) : (s.fail c).cfg = s.cfg := rfl
@[simp] theorem fail_inbox (c : ErrCode) : (s.fail c).inbox = s.inbox := rfl
@[simp] theorem fail_inReset (c : ErrCode) : (s.fail c).inReset = s.inReset := rfl
@[simp] theorem fail_epoch (c : ErrCode) : (s.fail c).epoch = s.epoch := rfl
@[simp] theorem fail_rdata (c : ErrCode) : (s.fail c).rdata = s.rdata := rfl
@[simp] theorem fail_busy (c : ErrCode) : (s.fail c).busy = false := rfl
@[simp] theorem fail_drop (c : ErrCode) : (s.fail c).drop = s.drop := rfl
@[simp] theorem fail_err (c : ErrCode) : (s.fail c).err = c := rfl
@[simp] theorem fail_mode (c : ErrCode) : (s.fail c).mode = s.mode := rfl
@[simp] theorem fail_notchEn (c : ErrCode) : (s.fail c).notchEn = s.notchEn := rfl
@[simp] theorem fail_gain (c : ErrCode) : (s.fail c).gain = s.gain := rfl
@[simp] theorem fail_hLen (c : ErrCode) : (s.fail c).hLen = s.hLen := rfl
@[simp] theorem fail_args (c : ErrCode) : (s.fail c).args = s.args := rfl
@[simp] theorem fail_tune (c : ErrCode) : (s.fail c).tune = s.tune := rfl
@[simp] theorem fail_snap (c : ErrCode) : (s.fail c).snap = s.snap := rfl
@[simp] theorem fail_mem (c : ErrCode) : (s.fail c).mem = s.mem := rfl
@[simp] theorem fail_lms (c : ErrCode) : (s.fail c).lms = s.lms := rfl
@[simp] theorem fail_anrNr (c : ErrCode) : (s.fail c).anrNr = s.anrNr := rfl
@[simp] theorem fail_anrNotch (c : ErrCode) : (s.fail c).anrNotch = s.anrNotch := rfl
@[simp] theorem fail_kim (c : ErrCode) : (s.fail c).kim = s.kim := rfl
@[simp] theorem fail_mmse (c : ErrCode) : (s.fail c).mmse = s.mmse := rfl

/-! ### accept -/

@[simp] theorem accept_cfg (w : Word) : (s.accept w).cfg = s.cfg := rfl
@[simp] theorem accept_inbox (w : Word) : (s.accept w).inbox = s.inbox := rfl
@[simp] theorem accept_inReset (w : Word) : (s.accept w).inReset = s.inReset := rfl
@[simp] theorem accept_epoch (w : Word) : (s.accept w).epoch = s.epoch := rfl
@[simp] theorem accept_rdata (w : Word) : (s.accept w).rdata = s.rdata := rfl
@[simp] theorem accept_busy (w : Word) : (s.accept w).busy = true := rfl
@[simp] theorem accept_drop (w : Word) : (s.accept w).drop = false := rfl
@[simp] theorem accept_err (w : Word) : (s.accept w).err = s.err := rfl
@[simp] theorem accept_mode (w : Word) : (s.accept w).mode = s.mode := rfl
@[simp] theorem accept_notchEn (w : Word) : (s.accept w).notchEn = s.notchEn := rfl
@[simp] theorem accept_gain (w : Word) : (s.accept w).gain = s.gain := rfl
@[simp] theorem accept_hLen (w : Word) : (s.accept w).hLen = s.hLen := rfl
@[simp] theorem accept_args (w : Word) : (s.accept w).args = s.args := rfl
@[simp] theorem accept_tune (w : Word) : (s.accept w).tune = s.tune := rfl
@[simp] theorem accept_snap (w : Word) : (s.accept w).snap = s.snapshot w := rfl
@[simp] theorem accept_mem (w : Word) : (s.accept w).mem = s.mem := rfl
@[simp] theorem accept_lms (w : Word) : (s.accept w).lms = s.lms := rfl
@[simp] theorem accept_anrNr (w : Word) : (s.accept w).anrNr = s.anrNr := rfl
@[simp] theorem accept_anrNotch (w : Word) : (s.accept w).anrNotch = s.anrNotch := rfl
@[simp] theorem accept_kim (w : Word) : (s.accept w).kim = s.kim := rfl
@[simp] theorem accept_mmse (w : Word) : (s.accept w).mmse = s.mmse := rfl

/-! ### withCommand -/

@[simp] theorem withCommand_cfg (w : Word) : (s.withCommand w).cfg = s.cfg := rfl
@[simp] theorem withCommand_inbox (w : Word) : (s.withCommand w).inbox = .core :: s.inbox := rfl
@[simp] theorem withCommand_inReset (w : Word) : (s.withCommand w).inReset = false := rfl
@[simp] theorem withCommand_epoch (w : Word) : (s.withCommand w).epoch = s.epoch := rfl
@[simp] theorem withCommand_rdata (w : Word) : (s.withCommand w).rdata = s.rdata := rfl
@[simp] theorem withCommand_busy (w : Word) : (s.withCommand w).busy = true := rfl
@[simp] theorem withCommand_drop (w : Word) : (s.withCommand w).drop = false := rfl
@[simp] theorem withCommand_err (w : Word) : (s.withCommand w).err = s.err := rfl
@[simp] theorem withCommand_mode (w : Word) : (s.withCommand w).mode = s.mode := rfl
@[simp] theorem withCommand_notchEn (w : Word) : (s.withCommand w).notchEn = s.notchEn := rfl
@[simp] theorem withCommand_gain (w : Word) : (s.withCommand w).gain = s.gain := rfl
@[simp] theorem withCommand_hLen (w : Word) : (s.withCommand w).hLen = s.hLen := rfl
@[simp] theorem withCommand_args (w : Word) : (s.withCommand w).args = s.args := rfl
@[simp] theorem withCommand_tune (w : Word) : (s.withCommand w).tune = s.tune := rfl
@[simp] theorem withCommand_snap (w : Word) : (s.withCommand w).snap = s.snapshot w := rfl
@[simp] theorem withCommand_mem (w : Word) : (s.withCommand w).mem = s.mem := rfl
@[simp] theorem withCommand_lms (w : Word) : (s.withCommand w).lms = s.lms := rfl
@[simp] theorem withCommand_anrNr (w : Word) : (s.withCommand w).anrNr = s.anrNr := rfl
@[simp] theorem withCommand_anrNotch (w : Word) : (s.withCommand w).anrNotch = s.anrNotch := rfl
@[simp] theorem withCommand_kim (w : Word) : (s.withCommand w).kim = s.kim := rfl
@[simp] theorem withCommand_mmse (w : Word) : (s.withCommand w).mmse = s.mmse := rfl

/-! ### commit -/

@[simp] theorem commit_cfg (h : List F32) (n : Nat) : (s.commit h n).cfg = s.cfg := rfl
@[simp] theorem commit_inbox (h : List F32) (n : Nat) : (s.commit h n).inbox = s.inbox := rfl
@[simp] theorem commit_inReset (h : List F32) (n : Nat) : (s.commit h n).inReset = s.inReset := rfl
@[simp] theorem commit_epoch (h : List F32) (n : Nat) : (s.commit h n).epoch = s.epoch := rfl
@[simp] theorem commit_rdata (h : List F32) (n : Nat) : (s.commit h n).rdata = s.rdata := rfl
@[simp] theorem commit_busy (h : List F32) (n : Nat) : (s.commit h n).busy = false := rfl
@[simp] theorem commit_drop (h : List F32) (n : Nat) : (s.commit h n).drop = s.drop := rfl
@[simp] theorem commit_err (h : List F32) (n : Nat) : (s.commit h n).err = .ok := rfl
@[simp] theorem commit_mode (h : List F32) (n : Nat) : (s.commit h n).mode = s.mode := rfl
@[simp] theorem commit_notchEn (h : List F32) (n : Nat) : (s.commit h n).notchEn = s.notchEn := rfl
@[simp] theorem commit_gain (h : List F32) (n : Nat) : (s.commit h n).gain = s.gain := rfl
@[simp] theorem commit_hLen (h : List F32) (n : Nat) : (s.commit h n).hLen = BitVec.ofNat 32 n := rfl
@[simp] theorem commit_args (h : List F32) (n : Nat) : (s.commit h n).args = s.args := rfl
@[simp] theorem commit_tune (h : List F32) (n : Nat) : (s.commit h n).tune = s.tune := rfl
@[simp] theorem commit_snap (h : List F32) (n : Nat) : (s.commit h n).snap = s.snap := rfl
@[simp] theorem commit_mem (h : List F32) (n : Nat) : (s.commit h n).mem = quantizeMem s.env (storeTaps s.cfg s.mem h) := rfl
@[simp] theorem commit_lms (h : List F32) (n : Nat) : (s.commit h n).lms = s.lms := rfl
@[simp] theorem commit_anrNr (h : List F32) (n : Nat) : (s.commit h n).anrNr = s.anrNr := rfl
@[simp] theorem commit_anrNotch (h : List F32) (n : Nat) : (s.commit h n).anrNotch = s.anrNotch := rfl
@[simp] theorem commit_kim (h : List F32) (n : Nat) : (s.commit h n).kim = s.kim := rfl
@[simp] theorem commit_mmse (h : List F32) (n : Nat) : (s.commit h n).mmse = s.mmse := rfl

/-! ### mirror -/

@[simp] theorem mirror_cfg (m : List F32) : (s.mirror m).cfg = s.cfg := rfl
@[simp] theorem mirror_inbox (m : List F32) : (s.mirror m).inbox = s.inbox := rfl
@[simp] theorem mirror_inReset (m : List F32) : (s.mirror m).inReset = s.inReset := rfl
@[simp] theorem mirror_epoch (m : List F32) : (s.mirror m).epoch = s.epoch := rfl
@[simp] theorem mirror_rdata (m : List F32) : (s.mirror m).rdata = s.rdata := rfl
@[simp] theorem mirror_busy (m : List F32) : (s.mirror m).busy = s.busy := rfl
@[simp] theorem mirror_drop (m : List F32) : (s.mirror m).drop = s.drop := rfl
@[simp] theorem mirror_err (m : List F32) : (s.mirror m).err = s.err := rfl
@[simp] theorem mirror_mode (m : List F32) : (s.mirror m).mode = s.mode := rfl
@[simp] theorem mirror_notchEn (m : List F32) : (s.mirror m).notchEn = s.notchEn := rfl
@[simp] theorem mirror_gain (m : List F32) : (s.mirror m).gain = s.gain := rfl
@[simp] theorem mirror_hLen (m : List F32) : (s.mirror m).hLen = s.hLen := rfl
@[simp] theorem mirror_args (m : List F32) : (s.mirror m).args = s.args := rfl
@[simp] theorem mirror_tune (m : List F32) : (s.mirror m).tune = s.tune := rfl
@[simp] theorem mirror_snap (m : List F32) : (s.mirror m).snap = s.snap := rfl
@[simp] theorem mirror_mem (m : List F32) : (s.mirror m).mem = Memory.writeWords (Memory.writeWords s.mem sampLBase m) sampRBase m := rfl
@[simp] theorem mirror_lms (m : List F32) : (s.mirror m).lms = s.lms := rfl
@[simp] theorem mirror_anrNr (m : List F32) : (s.mirror m).anrNr = s.anrNr := rfl
@[simp] theorem mirror_anrNotch (m : List F32) : (s.mirror m).anrNotch = s.anrNotch := rfl
@[simp] theorem mirror_kim (m : List F32) : (s.mirror m).kim = s.kim := rfl
@[simp] theorem mirror_mmse (m : List F32) : (s.mirror m).mmse = s.mmse := rfl

/-! ### finishMode -/

@[simp] theorem finishMode_cfg : (s.finishMode).cfg = s.cfg := rfl
@[simp] theorem finishMode_inbox : (s.finishMode).inbox = s.inbox := rfl
@[simp] theorem finishMode_inReset : (s.finishMode).inReset = s.inReset := rfl
@[simp] theorem finishMode_epoch : (s.finishMode).epoch = s.epoch := rfl
@[simp] theorem finishMode_rdata : (s.finishMode).rdata = s.rdata := rfl
@[simp] theorem finishMode_busy : (s.finishMode).busy = false := rfl
@[simp] theorem finishMode_drop : (s.finishMode).drop = s.drop := rfl
@[simp] theorem finishMode_err : (s.finishMode).err = if s.mode.undeveloped then .unimpl else .ok := rfl
@[simp] theorem finishMode_mode : (s.finishMode).mode = s.mode := rfl
@[simp] theorem finishMode_notchEn : (s.finishMode).notchEn = s.notchEn := rfl
@[simp] theorem finishMode_gain : (s.finishMode).gain = s.gain := rfl
@[simp] theorem finishMode_hLen : (s.finishMode).hLen = s.hLen := rfl
@[simp] theorem finishMode_args : (s.finishMode).args = s.args := rfl
@[simp] theorem finishMode_tune : (s.finishMode).tune = s.tune := rfl
@[simp] theorem finishMode_snap : (s.finishMode).snap = s.snap := rfl
@[simp] theorem finishMode_mem : (s.finishMode).mem = s.mem := rfl
@[simp] theorem finishMode_lms : (s.finishMode).lms = s.lms := rfl
@[simp] theorem finishMode_anrNr : (s.finishMode).anrNr = s.anrNr := rfl
@[simp] theorem finishMode_anrNotch : (s.finishMode).anrNotch = s.anrNotch := rfl
@[simp] theorem finishMode_kim : (s.finishMode).kim = s.kim := rfl
@[simp] theorem finishMode_mmse : (s.finishMode).mmse = s.mmse := rfl

/-! ### the arithmetic of a state -/

@[simp] theorem finish_env (c : ErrCode) : (s.finish c).env = s.env := rfl
@[simp] theorem fail_env (c : ErrCode) : (s.fail c).env = s.env := rfl
@[simp] theorem accept_env (w : Word) : (s.accept w).env = s.env := rfl
@[simp] theorem mirror_env (m : List F32) : (s.mirror m).env = s.env := rfl
@[simp] theorem env_p : s.env.p = s.cfg := rfl
@[simp] theorem env_f : s.env.f = configFns s.cfg := rfl
@[simp] theorem snapshot_cmd (w : Word) : (s.snapshot w).cmd = w := rfl
@[simp] theorem snapshot_args (w : Word) : (s.snapshot w).args = s.args := rfl
@[simp] theorem snapshot_tune (w : Word) : (s.snapshot w).tune = s.tune := rfl

/-- A fetched word is a command accepted by the core, with a core move next. -/
@[simp] theorem withFetchWord_eq (nbits w : Nat) :
    s.withFetchWord nbits w = s.withCommand (BitVec.ofNat 32 (w % 2 ^ nbits)) := rfl

end Sys2Proof.Machine
end

