-- ==== Sys2Proof/Laws/Ops.lean ====
section
/-! SUPPORT. What the shared operations can do, each said once: the checks, a design command, activation, the engines inside
PROCESS, and one step. -/

namespace Sys2Proof.Machine

/-! ### Checks -/

@[simp] theorem firstErr_nil : firstErr [] = none := rfl

@[simp] theorem firstErr_cons_none (l : List (Option ErrCode)) : firstErr (none :: l) = firstErr l := rfl

@[simp] theorem firstErr_cons_some (c : ErrCode) (l : List (Option ErrCode)) : firstErr (some c :: l) = some c := rfl

@[simp] theorem failIf_true (c : ErrCode) : failIf true c = some c := rfl

@[simp] theorem failIf_false (c : ErrCode) : failIf false c = none := rfl

theorem failIf_eq_none (b : Bool) (c : ErrCode) : failIf b c = none ↔ b = false := by cases b <;> simp

/-- All checks pass exactly if each passes. -/
theorem firstErr_eq_none (l : List (Option ErrCode)) : firstErr l = none ↔ ∀ o ∈ l, o = none := by
  induction l with
  | nil => simp
  | cons o l ih => cases o <;> simp [ih]

/-- The first failing check decides. -/
theorem firstErr_cons (o : Option ErrCode) (l : List (Option ErrCode)) :
    firstErr (o :: l) = match o with
      | some c => some c
      | none => firstErr l := by cases o <;> rfl

/-! ### A design command -/

@[simp] theorem design_some (s : State) (c : ErrCode) (h : List F32) (n : Nat) : s.design (some c) h n = s.fail c := rfl

@[simp] theorem design_none (s : State) (h : List F32) (n : Nat) : s.design none h n = s.commit h n := rfl

/-- A design command fails with the code of its first failing check, or commits. -/
theorem design_cases (s : State) (o : Option ErrCode) (h : List F32) (n : Nat) :
    (∃ c, o = some c ∧ s.design o h n = s.fail c) ∨ (o = none ∧ s.design o h n = s.commit h n) := by
  cases o with
  | some c => exact .inl ⟨c, rfl, rfl⟩
  | none => exact .inr ⟨rfl, rfl⟩

/-! ### Activation -/

@[simp] theorem activate_cfg (s : State) (m : Mode) : (s.activate m).cfg = s.cfg := by cases m <;> rfl
@[simp] theorem activate_inbox (s : State) (m : Mode) : (s.activate m).inbox = s.inbox := by cases m <;> rfl
@[simp] theorem activate_inReset (s : State) (m : Mode) : (s.activate m).inReset = s.inReset := by cases m <;> rfl
@[simp] theorem activate_epoch (s : State) (m : Mode) : (s.activate m).epoch = s.epoch := by cases m <;> rfl
@[simp] theorem activate_rdata (s : State) (m : Mode) : (s.activate m).rdata = s.rdata := by cases m <;> rfl
@[simp] theorem activate_busy (s : State) (m : Mode) : (s.activate m).busy = s.busy := by cases m <;> rfl
@[simp] theorem activate_drop (s : State) (m : Mode) : (s.activate m).drop = s.drop := by cases m <;> rfl
@[simp] theorem activate_err (s : State) (m : Mode) : (s.activate m).err = s.err := by cases m <;> rfl
@[simp] theorem activate_notchEn (s : State) (m : Mode) : (s.activate m).notchEn = s.notchEn := by cases m <;> rfl
@[simp] theorem activate_gain (s : State) (m : Mode) : (s.activate m).gain = s.gain := by cases m <;> rfl
@[simp] theorem activate_hLen (s : State) (m : Mode) : (s.activate m).hLen = s.hLen := by cases m <;> rfl
@[simp] theorem activate_args (s : State) (m : Mode) : (s.activate m).args = s.args := by cases m <;> rfl
@[simp] theorem activate_tune (s : State) (m : Mode) : (s.activate m).tune = s.tune := by cases m <;> rfl
@[simp] theorem activate_snap (s : State) (m : Mode) : (s.activate m).snap = s.snap := by cases m <;> rfl
@[simp] theorem activate_mem (s : State) (m : Mode) : (s.activate m).mem = s.mem := by cases m <;> rfl
@[simp] theorem activate_anrNotch (s : State) (m : Mode) : (s.activate m).anrNotch = s.anrNotch := by cases m <;> rfl
@[simp] theorem activate_mode (s : State) (m : Mode) : (s.activate m).mode = m := by cases m <;> rfl
theorem activate_lms_of_ne (s : State) (m : Mode) (h : m ≠ .lms) : (s.activate m).lms = s.lms := by
  cases m <;> first | rfl | exact absurd rfl h
theorem activate_anrNr_of_ne (s : State) (m : Mode) (h : m ≠ .anr) : (s.activate m).anrNr = s.anrNr := by
  cases m <;> first | rfl | exact absurd rfl h
theorem activate_kim_of_ne (s : State) (m : Mode) (h : m ≠ .kim) : (s.activate m).kim = s.kim := by
  cases m <;> first | rfl | exact absurd rfl h
theorem activate_mmse_of_ne (s : State) (m : Mode) (h : m ≠ .mmse) : (s.activate m).mmse = s.mmse := by
  cases m <;> first | rfl | exact absurd rfl h

/-! ### The engines inside PROCESS -/

@[simp] theorem runMode_cfg (s : State) (m : List F32) : (runMode s m).st.cfg = s.cfg := by
  unfold runMode; split <;> rfl
@[simp] theorem runMode_inbox (s : State) (m : List F32) : (runMode s m).st.inbox = s.inbox := by
  unfold runMode; split <;> rfl
@[simp] theorem runMode_inReset (s : State) (m : List F32) : (runMode s m).st.inReset = s.inReset := by
  unfold runMode; split <;> rfl
@[simp] theorem runMode_epoch (s : State) (m : List F32) : (runMode s m).st.epoch = s.epoch := by
  unfold runMode; split <;> rfl
@[simp] theorem runMode_rdata (s : State) (m : List F32) : (runMode s m).st.rdata = s.rdata := by
  unfold runMode; split <;> rfl
@[simp] theorem runMode_busy (s : State) (m : List F32) : (runMode s m).st.busy = s.busy := by
  unfold runMode; split <;> rfl
@[simp] theorem runMode_drop (s : State) (m : List F32) : (runMode s m).st.drop = s.drop := by
  unfold runMode; split <;> rfl
@[simp] theorem runMode_err (s : State) (m : List F32) : (runMode s m).st.err = s.err := by
  unfold runMode; split <;> rfl
@[simp] theorem runMode_mode (s : State) (m : List F32) : (runMode s m).st.mode = s.mode := by
  unfold runMode; split <;> rfl
@[simp] theorem runMode_notchEn (s : State) (m : List F32) : (runMode s m).st.notchEn = s.notchEn := by
  unfold runMode; split <;> rfl
@[simp] theorem runMode_gain (s : State) (m : List F32) : (runMode s m).st.gain = s.gain := by
  unfold runMode; split <;> rfl
@[simp] theorem runMode_hLen (s : State) (m : List F32) : (runMode s m).st.hLen = s.hLen := by
  unfold runMode; split <;> rfl
@[simp] theorem runMode_args (s : State) (m : List F32) : (runMode s m).st.args = s.args := by
  unfold runMode; split <;> rfl
@[simp] theorem runMode_tune (s : State) (m : List F32) : (runMode s m).st.tune = s.tune := by
  unfold runMode; split <;> rfl
@[simp] theorem runMode_snap (s : State) (m : List F32) : (runMode s m).st.snap = s.snap := by
  unfold runMode; split <;> rfl
@[simp] theorem runMode_mem (s : State) (m : List F32) : (runMode s m).st.mem = s.mem := by
  unfold runMode; split <;> rfl
@[simp] theorem runMode_anrNotch (s : State) (m : List F32) : (runMode s m).st.anrNotch = s.anrNotch := by
  unfold runMode; split <;> rfl
theorem runMode_lms_of_ne (s : State) (m : List F32) (h : s.mode ≠ .lms) : (runMode s m).st.lms = s.lms := by
  unfold runMode; split <;> first | rfl | exact absurd ‹_› h
theorem runMode_anrNr_of_ne (s : State) (m : List F32) (h : s.mode ≠ .anr) : (runMode s m).st.anrNr = s.anrNr := by
  unfold runMode; split <;> first | rfl | exact absurd ‹_› h
theorem runMode_kim_of_ne (s : State) (m : List F32) (h : s.mode ≠ .kim) : (runMode s m).st.kim = s.kim := by
  unfold runMode; split <;> first | rfl | exact absurd ‹_› h
theorem runMode_mmse_of_ne (s : State) (m : List F32) (h : s.mode ≠ .mmse) : (runMode s m).st.mmse = s.mmse := by
  unfold runMode; split <;> first | rfl | exact absurd ‹_› h
@[simp] theorem runNotch_cfg (s : State) (m : List F32) : (runNotch s m).st.cfg = s.cfg := by
  unfold runNotch; split <;> rfl
@[simp] theorem runNotch_inbox (s : State) (m : List F32) : (runNotch s m).st.inbox = s.inbox := by
  unfold runNotch; split <;> rfl
@[simp] theorem runNotch_inReset (s : State) (m : List F32) : (runNotch s m).st.inReset = s.inReset := by
  unfold runNotch; split <;> rfl
@[simp] theorem runNotch_epoch (s : State) (m : List F32) : (runNotch s m).st.epoch = s.epoch := by
  unfold runNotch; split <;> rfl
@[simp] theorem runNotch_rdata (s : State) (m : List F32) : (runNotch s m).st.rdata = s.rdata := by
  unfold runNotch; split <;> rfl
@[simp] theorem runNotch_busy (s : State) (m : List F32) : (runNotch s m).st.busy = s.busy := by
  unfold runNotch; split <;> rfl
@[simp] theorem runNotch_drop (s : State) (m : List F32) : (runNotch s m).st.drop = s.drop := by
  unfold runNotch; split <;> rfl
@[simp] theorem runNotch_err (s : State) (m : List F32) : (runNotch s m).st.err = s.err := by
  unfold runNotch; split <;> rfl
@[simp] theorem runNotch_mode (s : State) (m : List F32) : (runNotch s m).st.mode = s.mode := by
  unfold runNotch; split <;> rfl
@[simp] theorem runNotch_notchEn (s : State) (m : List F32) : (runNotch s m).st.notchEn = s.notchEn := by
  unfold runNotch; split <;> rfl
@[simp] theorem runNotch_gain (s : State) (m : List F32) : (runNotch s m).st.gain = s.gain := by
  unfold runNotch; split <;> rfl
@[simp] theorem runNotch_hLen (s : State) (m : List F32) : (runNotch s m).st.hLen = s.hLen := by
  unfold runNotch; split <;> rfl
@[simp] theorem runNotch_args (s : State) (m : List F32) : (runNotch s m).st.args = s.args := by
  unfold runNotch; split <;> rfl
@[simp] theorem runNotch_tune (s : State) (m : List F32) : (runNotch s m).st.tune = s.tune := by
  unfold runNotch; split <;> rfl
@[simp] theorem runNotch_snap (s : State) (m : List F32) : (runNotch s m).st.snap = s.snap := by
  unfold runNotch; split <;> rfl
@[simp] theorem runNotch_mem (s : State) (m : List F32) : (runNotch s m).st.mem = s.mem := by
  unfold runNotch; split <;> rfl
@[simp] theorem runNotch_lms (s : State) (m : List F32) : (runNotch s m).st.lms = s.lms := by
  unfold runNotch; split <;> rfl
@[simp] theorem runNotch_anrNr (s : State) (m : List F32) : (runNotch s m).st.anrNr = s.anrNr := by
  unfold runNotch; split <;> rfl
@[simp] theorem runNotch_kim (s : State) (m : List F32) : (runNotch s m).st.kim = s.kim := by
  unfold runNotch; split <;> rfl
@[simp] theorem runNotch_mmse (s : State) (m : List F32) : (runNotch s m).st.mmse = s.mmse := by
  unfold runNotch; split <;> rfl

theorem runNotch_anrNotch_of_off (s : State) (m : List F32) (h : s.notchEn = false) :
    (runNotch s m).st.anrNotch = s.anrNotch := by
  unfold runNotch; rw [if_neg (by simp [h])]

theorem runNotch_of_off (s : State) (m : List F32) (h : s.notchEn = false) :
    runNotch s m = { st := s, out := m, ok := true } := by
  unfold runNotch; rw [if_neg (by simp [h])]

theorem runNotch_of_on (s : State) (m : List F32) (h : s.notchEn = true) :
    runNotch s m =
      { st := { s with anrNotch := (anrBlock s.env .notch s.snap.tune s.anrNotch m).st }
        out := (anrBlock s.env .notch s.snap.tune s.anrNotch m).out
        ok := (anrBlock s.env .notch s.snap.tune s.anrNotch m).ok } := by
  unfold runNotch; rw [if_pos h]

/-- What PROCESS can answer, and when (R130, R131, R132). -/
theorem execProcess_cases (s : State) :
    (s.sampsWritten = false ∧ execProcess s = .refused .unwritten)
    ∨ (s.sampsWritten = true ∧ s.sampsOk = false ∧ execProcess s = .next (s.fail .range))
    ∨ (s.sampsWritten = true ∧ s.sampsOk = true ∧ s.mode = .bypass ∧ execProcess s = .next s.done)
    ∨ (s.sampsWritten = true ∧ s.sampsOk = true ∧ s.mode.actsAsOff = true ∧ s.cfg.offOutput = .pass
        ∧ s.notchEn = false ∧ execProcess s = .next s.finishMode)
    ∨ (s.sampsWritten = true ∧ s.sampsOk = true ∧ s.mode ≠ .bypass
        ∧ ¬(s.mode.actsAsOff = true ∧ s.cfg.offOutput = .pass ∧ s.notchEn = false)
        ∧ execProcess s = processBlock s) := by
  unfold execProcess
  split_ifs with h1 h2 h3 h4
  · simp_all
  · simp_all
  · simp_all
  · simp_all
  · right; right; right; right
    refine ⟨by simpa using h1, by simpa using h2, h3, ?_, rfl⟩
    simpa [and_assoc] using h4

/-- The block body of PROCESS completes exactly where every value it writes is finite. -/
theorem processBlock_cases (s : State) :
    let r := runMode s (foldBlock s.env s.left s.right)
    let q := runNotch r.st r.out
    (r.ok = true ∧ q.ok = true ∧ allFinite q.out = true ∧ processBlock s = .next (q.st.mirror q.out).finishMode)
    ∨ (¬(r.ok = true ∧ q.ok = true ∧ allFinite q.out = true) ∧ processBlock s = .refused .overflow) := by
  intro r q
  unfold processBlock
  by_cases h : r.ok = true ∧ q.ok = true ∧ allFinite q.out = true
  · exact .inl ⟨h.1, h.2.1, h.2.2, if_pos (by simpa [and_assoc] using h)⟩
  · exact .inr ⟨h, if_neg (by simpa [and_assoc] using h)⟩

/-! ### GAIN.SCALE -/

/-- Everything GAIN.SCALE can do. -/
theorem execGainScale_eq (s : State) :
    (∃ c, checkScale s = some c ∧ execGainScale s = .next (s.fail c))
      ∨ (checkScale s = none ∧ (scaledTaps s).any isInf = true ∧ execGainScale s = .next (s.fail .range))
      ∨ (checkScale s = none ∧ (scaledTaps s).any isInf = false ∧
          execGainScale s
            = .next { s with mem := quantizeMem s.env (Memory.writeWords s.mem hcoefBase (scaledTaps s)) }.done) := by
  unfold execGainScale
  cases hc : checkScale s with
  | some c => exact .inl ⟨c, rfl, rfl⟩
  | none =>
    cases ha : (scaledTaps s).any isInf
    · exact .inr (.inr ⟨rfl, rfl, by simp⟩)
    · exact .inr (.inl ⟨rfl, rfl, by simp⟩)

/-! ### One step -/

theorem step_nil (s : State) (h : s.inbox = []) : step s = coreMoveWith exec s := by
  unfold step stepWith; rw [h]

theorem step_cons (s : State) (ev : Event) (rest : List Event) (h : s.inbox = ev :: rest) :
    step s = eventWith exec { s with inbox := rest } ev := by
  unfold step stepWith; rw [h]

theorem coreMove_idle (run : Instr → State → Host.Outcome State Fault Refusal) (s : State) (h : s.busy = false) :
    coreMoveWith run s = .next s := by
  unfold coreMoveWith; rw [if_neg (by simp [h])]

theorem coreMove_ok (run : Instr → State → Host.Outcome State Fault Refusal) (s : State) (i : Instr) (h : s.busy = true)
    (hd : decode s.snap.cmd = .ok i) : coreMoveWith run s = run i s := by
  unfold coreMoveWith; rw [if_pos h, hd]

theorem coreMove_illegal (run : Instr → State → Host.Outcome State Fault Refusal) (s : State) (w : Illegal)
    (h : s.busy = true) (hd : decode s.snap.cmd = .error w) : coreMoveWith run s = .next (s.fail .illegal) := by
  unfold coreMoveWith; rw [if_pos h, hd]

/-- A host read that completes changes the host's own word only. -/
theorem hostRead_next {s t : State} {width : Nat} {off : Off} (h : hostRead s width off = .next t) :
    s.inReset = false ∧ accessOk width off = true
      ∧ ¬(s.busy = true ∧ (locate s.cfg off.toNat).readRaces = true)
      ∧ t = { s with rdata := s.readLoc (locate s.cfg off.toNat) } := by
  unfold hostRead at h
  split_ifs at h with h1 h2 h3
  exact ⟨by simpa using h1, by simpa using h2, by simpa using h3, by injection h with h; exact h.symm⟩

/-- A host write that completes does what `writeLoc` does. -/
theorem hostWrite_next {s t : State} {width : Nat} {off : Off} {v : Word} (h : hostWrite s width off v = .next t) :
    s.inReset = false ∧ accessOk width off = true
      ∧ ¬(s.busy = true ∧ (locate s.cfg off.toNat).writeRaces = true)
      ∧ t = s.writeLoc (locate s.cfg off.toNat) v := by
  unfold hostWrite at h
  split_ifs at h with h1 h2 h3
  exact ⟨by simpa using h1, by simpa using h2, by simpa using h3, by injection h with h; exact h.symm⟩

end Sys2Proof.Machine
end

