-- ==== Sys2Proof/Laws/Params.lean ====
section
/-! SUPPORT. What the configuration functions deliver, whatever the free functions behind them (00_scope.md R19). -/

namespace Sys2Proof

theorem isFinite_of_inUnit {x : F32} (h : inUnit x = true) : isFinite x = true := by
  simp only [inUnit, leF, Bool.and_eq_true, Bool.not_eq_true', decide_eq_true_eq] at h
  have h1 : ordKey 0xBF800000 = -0x3F800000 := by decide
  have h2 : ordKey fone = 0x3F800000 := by decide
  obtain ⟨⟨_, hl⟩, _, hu⟩ := h
  rw [h1] at hl
  rw [h2] at hu
  rw [isFinite_iff]
  unfold ordKey at hl hu
  split_ifs at hl hu <;> omega

/-- SINF and COSF: finite for a finite operand. -/
theorem isFinite_unitFn (raw : F32 → F32) {x : F32} (h : isFinite x = true) : isFinite (unitFn raw x) = true := by
  unfold unitFn keepIf
  simp only [h, Bool.not_true, Bool.false_or]
  split_ifs with hu
  · exact isFinite_of_inUnit hu
  · decide

/-! ### The ratio behind the step size (43_nlms.md R94) -/

theorem operandF_fone (ftz : Bool) : operandF ftz fone = fone := by cases ftz <;> decide

theorem stepSizeOk_fone (p : Params) : stepSizeOk p fone = true := by
  have h : isNaN fone = false ∧ isInf fone = false ∧ isZero fone = false := by decide
  unfold stepSizeOk Env.div divCore
  simp only [operandF_fone, h.1, h.2.1, h.2.2, Bool.or_self, Bool.false_eq_true, if_false]
  cases p.ftz <;> decide +kernel

/-- Whatever POW10F delivers, its ratio gives a step size that is finite and above zero. -/
theorem stepSizeOk_pow10f (p : Params) (x : F32) : stepSizeOk p ((configFns p).pow10f x) = true := by
  change stepSizeOk p (pow10Fn (stepSizeOk p) Config.rawPow10 x) = true
  unfold pow10Fn keepIf
  split_ifs with h0 h
  · exact stepSizeOk_fone p
  · exact h
  · exact stepSizeOk_fone p

/-- The step size of R94 is finite and above zero, for every strength. -/
theorem lmsMu_ok (p : Params) (strength : Word) :
    isFinite (Machine.lmsMu { p := p, f := configFns p } strength) = true
      ∧ ltF fzero (Machine.lmsMu { p := p, f := configFns p } strength) = true := by
  have h := stepSizeOk_pow10f p
    (({ p := p, f := configFns p } : Env).div (intF strength.toInt) p.muDb)
  rw [stepSizeOk, Bool.and_eq_true] at h
  exact h

/-! ### The transforms -/

@[simp] theorem length_transformFn (value : List Cplx → Nat → Cplx) (z : List Cplx) :
    (transformFn value z).length = z.length := by simp [transformFn]

/-- A zero vector gives zeros. -/
theorem transformFn_zero (value : List Cplx → Nat → Cplx) {z : List Cplx} (h : z.all Cplx.isZero = true) :
    (transformFn value z).all Cplx.isZero = true := by
  have hz : ∀ x, isZero (zeroOf x) = true := by
    intro x
    unfold zeroOf keepIf
    split_ifs with hx
    · exact hx
    · decide
  simp [transformFn, h, Cplx.isZero, hz]

/-- Any other vector gives the values behind the transform. -/
theorem getD_transformFn (value : List Cplx → Nat → Cplx) {z : List Cplx} (h : z.all Cplx.isZero = false) {k : Nat}
    (hk : k < z.length) (d : Cplx) : (transformFn value z).getD k d = value z k := by
  simp [transformFn, h, List.getD, hk]

/-- Result k of a transform meets the bound of R19 wherever the rounded exact result meets it. -/
theorem freeTransform_within (p : Params) (inverse : Bool) {z : List Cplx} {k : Nat} (hz : finiteVector z = true)
    (h : WithinTol p inverse z k (nearestTransform p inverse z k)) :
    WithinTol p inverse z k (freeTransform p inverse z k) :=
  (@Config.rawTransform (TransformValue p inverse z k) ⟨⟨nearestTransform p inverse z k, fun _ h => h⟩⟩ p inverse z
    k).2 hz h

end Sys2Proof
end

