-- ==== Sys2Proof/Laws/PerInstr.lean ====
section
/-! SUPPORT. What holds of every command as syntax, one lemma per constructor. -/

namespace Sys2Proof.Laws.EncodeFits

/-- A well-formed command's word is its encoding number, unwrapped, and its OP is an assigned one (30_encoding.md R62,
R63). -/
def Statement (i : Instr) : Prop :=
  i.wf = true → (encode i).toNat = encodeNat i ∧ opField (encode i) ≤ 0x0A

theorem of_lt (i : Instr) (h : i.wf = true → encodeNat i < 0x0B000000) : Statement i := by
  intro hw
  have h := h hw
  have ht : (encode i).toNat = encodeNat i := by
    unfold encode
    rw [BitVec.toNat_ofNat]
    exact Nat.mod_eq_of_lt (by omega)
  refine ⟨ht, ?_⟩
  unfold opField
  rw [ht]
  omega

theorem winCode_le (w : Win) : winCode w ≤ 2 := by cases w <;> decide

theorem nop : Statement .nop := of_lt _ fun _ => by decide
theorem wsfirLp (w : Win) (n : Nat) : Statement (.wsfirLp w n) :=
  of_lt _ fun h => by simp [Instr.wf] at h; have := winCode_le w; simp only [encodeNat]; omega
theorem wsfirHp (w : Win) (n : Nat) : Statement (.wsfirHp w n) :=
  of_lt _ fun h => by simp [Instr.wf] at h; have := winCode_le w; simp only [encodeNat]; omega
theorem wsfirBp (w : Win) (n : Nat) : Statement (.wsfirBp w n) :=
  of_lt _ fun h => by simp [Instr.wf] at h; have := winCode_le w; simp only [encodeNat]; omega
theorem wsfirBs (w : Win) (n : Nat) : Statement (.wsfirBs w n) :=
  of_lt _ fun h => by simp [Instr.wf] at h; have := winCode_le w; simp only [encodeNat]; omega
theorem kaiserLp (n : Nat) : Statement (.kaiserLp n) :=
  of_lt _ fun h => by simp [Instr.wf] at h; simp only [encodeNat]; omega
theorem kaiserHp (n : Nat) : Statement (.kaiserHp n) :=
  of_lt _ fun h => by simp [Instr.wf] at h; simp only [encodeNat]; omega
theorem kaiserBp (n : Nat) : Statement (.kaiserBp n) :=
  of_lt _ fun h => by simp [Instr.wf] at h; simp only [encodeNat]; omega
theorem kaiserBs (n : Nat) : Statement (.kaiserBs n) :=
  of_lt _ fun h => by simp [Instr.wf] at h; simp only [encodeNat]; omega
theorem kaiserHilbert (n : Nat) : Statement (.kaiserHilbert n) :=
  of_lt _ fun h => by simp [Instr.wf] at h; simp only [encodeNat]; omega
theorem gainQuery : Statement .gainQuery := of_lt _ fun _ => by decide
theorem gainScale : Statement .gainScale := of_lt _ fun _ => by decide
theorem modeSelect (c : Nat) : Statement (.modeSelect c) :=
  of_lt _ fun h => by simp [Instr.wf] at h; simp only [encodeNat]; omega
theorem notchOff : Statement .notchOff := of_lt _ fun _ => by decide
theorem notchOn : Statement .notchOn := of_lt _ fun _ => by decide
theorem process : Statement .process := of_lt _ fun _ => by decide

end Sys2Proof.Laws.EncodeFits
end

