-- ==== Sys2Proof/Tests/Slice0.lean ====
section
/-! SUPPORT. The model's own tests: well-formedness, decoding of words written out from the spec's encoding, one step of each
command on a small state with values of spec/95_test_vectors.md, and a witness for every statement's hypotheses. -/

namespace Sys2Proof.Tests

-- Kernel evaluations run one after another: all at once they need more memory than the checks allow.
set_option Elab.async false

open Sys2Proof.Machine

/-! ### Well-formedness (R62) -/

theorem test_wf_refuses_wide_tap_counts :
    Instr.wf (.wsfirLp .blackman 65536) = false ∧ Instr.wf (.wsfirHp .hanning 65536) = false
      ∧ Instr.wf (.wsfirBp .hamming 65536) = false ∧ Instr.wf (.wsfirBs .hamming 65536) = false
      ∧ Instr.wf (.kaiserLp 65536) = false ∧ Instr.wf (.kaiserHp 65536) = false ∧ Instr.wf (.kaiserBp 65536) = false
      ∧ Instr.wf (.kaiserBs 65536) = false ∧ Instr.wf (.kaiserHilbert 65536) = false
      ∧ Instr.wf (.kaiserHilbert 65535) = true := by decide

theorem test_wf_refuses_wide_mode_codes :
    Instr.wf (.modeSelect 256) = false ∧ Instr.wf (.modeSelect 255) = true := by decide

/-! ### Decoding: the words of V-ENC-1, one per constructor and window -/

theorem test_decode_nop : decode 0x00000000 = .ok .nop := by decide
theorem test_decode_wsfir_lp :
    decode 0x01000005 = .ok (.wsfirLp .blackman 5) ∧ decode 0x01010005 = .ok (.wsfirLp .hanning 5)
      ∧ decode 0x01020004 = .ok (.wsfirLp .hamming 4) := by decide
theorem test_decode_wsfir_hp : decode 0x01120005 = .ok (.wsfirHp .hamming 5) := by decide
theorem test_decode_wsfir_bp : decode 0x01210005 = .ok (.wsfirBp .hanning 5) := by decide
theorem test_decode_wsfir_bs : decode 0x01310005 = .ok (.wsfirBs .hanning 5) := by decide
theorem test_decode_kaiser_lp : decode 0x02000005 = .ok (.kaiserLp 5) := by decide
theorem test_decode_kaiser_hp : decode 0x02100005 = .ok (.kaiserHp 5) := by decide
theorem test_decode_kaiser_bp : decode 0x02200005 = .ok (.kaiserBp 5) := by decide
theorem test_decode_kaiser_bs : decode 0x02300005 = .ok (.kaiserBs 5) := by decide
theorem test_decode_kaiser_hilbert : decode 0x02400009 = .ok (.kaiserHilbert 9) := by decide
theorem test_decode_gain_query : decode 0x03000000 = .ok .gainQuery := by decide
theorem test_decode_gain_scale : decode 0x03100000 = .ok .gainScale := by decide
theorem test_decode_mode_select :
    decode 0x08000007 = .ok (.modeSelect 7) ∧ decode 0x080000FF = .ok (.modeSelect 255) := by decide
theorem test_decode_notch_off : decode 0x09000000 = .ok .notchOff := by decide
theorem test_decode_notch_on : decode 0x09100000 = .ok .notchOn := by decide
theorem test_decode_process : decode 0x0A000000 = .ok .process := by decide

/-- V-ENC-2: every row of it is ILLEGAL. -/
theorem test_decode_illegal :
    ([0x00000001, 0x01030005, 0x010F0005, 0x01400005, 0x01F00005, 0x02010005, 0x02500005, 0x03000001, 0x03200000,
      0x04000000, 0x05000000, 0x06000000, 0x07000000, 0x08000100, 0x08100002, 0x09200000, 0x09100001, 0x0A000001,
      0x0B000000, 0x80000000, 0xFFFFFFFF] : List Nat).all (fun w => (decodeTableWord 32 w).isNone) = true := by
  decide

/-! ### One step -/

/-- Issue a word to a state and look at the state its step answers. -/
def runs (s : State) (w : Nat) (p : State → Bool) : Bool :=
  match step (s.withFetchWord 32 w) with
  | .next t => p t
  | _ => false

/-- The reset state with arguments. -/
def withArgs (a : ArgRegs) : State := { State.reset with args := a }

/-- The reset state with both channels written. -/
def withBlock (l r : List F32) : State :=
  { State.reset with mem := Memory.writeWords (Memory.writeWords [] sampLBase l) sampRBase r }

/-- The reset state with the design of V-WS-1. -/
def designed : State :=
  { State.reset with
    mem := quantizeMem State.reset.env
      (storeTaps Params.vectors [] [0xB098FBC7, 0x3E30033C, 0x3F000000, 0x3E30033C, 0xB098FBC7])
    hLen := 5 }

theorem test_nop : runs { State.reset with err := .range, drop := true } 0x00000000
    (fun t => t.err == .ok && !t.busy && !t.drop) = true := by decide +kernel

/-- V-WS-4. -/
theorem test_wsfir_lp : runs (withArgs { resetArgs with fc2 := 0x3EFAE148 }) 0x01020001
    (fun t => t.hcoef 2 == [0x3F7AE148, 0] && t.qcoef 2 == [32112, 0] && t.hLen == 1 && t.err == .ok) = true := by
  decide +kernel

/-- V-ERR-1. -/
theorem test_wsfir_lp_checks :
    runs State.reset 0x01020005 (fun t => t.err == .unset && t.mem == []) = true
      ∧ runs (withArgs { resetArgs with fc2 := 0x3F000000 }) 0x01020005 (fun t => t.err == .range) = true
      ∧ runs (withArgs { resetArgs with fc2 := 0x3E800000 }) 0x0102000A (fun t => t.err == .range) = true := by
  decide +kernel

/-- V-WS-4. -/
theorem test_wsfir_hp : runs (withArgs { resetArgs with fc1 := 0x3EFAE148 }) 0x01120001
    (fun t => t.hcoef 2 == [0x3CA3D700, 0] && t.qcoef 2 == [655, 0] && t.err == .ok) = true := by decide +kernel

/-- R80's centre tap 2·FC1 + 1 - 2·FC2 with FC1 = 0.125, FC2 = 0.375. -/
theorem test_wsfir_bs : runs (withArgs { resetArgs with fc1 := 0x3E000000, fc2 := 0x3EC00000 }) 0x01310001
    (fun t => t.hcoef 1 == [0x3F000000] && t.qcoef 1 == [16384]) = true := by decide +kernel

/-- V-ERR-2 and V-ERR-1. -/
theorem test_wsfir_bp_checks :
    runs State.reset 0x01220004 (fun t => t.err == .range) = true
      ∧ runs (withArgs { resetArgs with fc1 := 0x3E000000 }) 0x01210005 (fun t => t.err == .unset) = true
      ∧ runs (withArgs { resetArgs with fc1 := 0x3EC00000, fc2 := 0x3E000000 }) 0x01210005
          (fun t => t.err == .range) = true := by decide +kernel

/-- N = 1: the centre tap 2·KF and the window 1 (R89, R87). -/
theorem test_kaiser_lp : runs (withArgs { resetArgs with kf := 0x3E800000, kastop := 0x42480000 }) 0x02000001
    (fun t => t.hcoef 1 == [0x3F000000] && t.err == .ok) = true := by decide +kernel

/-- V-ERR-3: even N comes first. -/
theorem test_kaiser_hp_checks : runs State.reset 0x02100004 (fun t => t.err == .range) = true := by decide +kernel

/-- V-ERR-3. -/
theorem test_kaiser_bp_checks :
    runs (withArgs { resetArgs with kf := 0x3E800000, kdf := 0x3E800000 }) 0x02200005 (fun t => t.err == .range) = true
      ∧ runs (withArgs { resetArgs with kdf := 0x3F19999A }) 0x02200005 (fun t => t.err == .unset) = true := by
  decide +kernel

/-- V-ERR-3. -/
theorem test_kaiser_bs_checks : runs (withArgs { resetArgs with kf := 0x3E800000, kdf := 0x3E000000 }) 0x02300004
    (fun t => t.err == .range) = true := by decide +kernel

/-- V-K-6, N = 9 with KASTOP = 0. -/
theorem test_kaiser_hilbert : runs State.reset 0x02400009
    (fun t => t.hcoef 9 == [0, 0xBE594CAF, 0, 0xBF22F983, 0x3F800000, 0x3F22F983, 0, 0x3E594CAF, 0]
      && t.qcoef 9 == [0, 0xFFFFE4D7, 0, 0xFFFFAE84, 32767, 20860, 0, 6953, 0]) = true := by decide +kernel

/-- Readings of the configuration functions for a zero angle, where COSF is 1 and SINF 0, with the test readings of
V-MMSE. -/
def testFns : Fns :=
  { configFns Params.vectors with
    cosf := fun _ => fone
    sinf := fun _ => fzero
    sppMap := fun r => if leF (litF 4 1) r then fone else fzero
    mmseGain := fun xi _ => State.reset.env.div xi (State.reset.env.add fone xi)
    mnWidth := fun _ => 3 }

def testEnv : Env := { p := Params.vectors, f := testFns }

/-- V-G-1 at GFREQ = 0, and V-G-5 after reset. -/
theorem test_gain_query :
    corr testEnv [0xB098FBC7, 0x3E30033C, 0x3F000000, 0x3E30033C, 0xB098FBC7] fzero = 0x3F58019E
      ∧ runs State.reset 0x03000000 (fun t => t.err == .range && t.gain == 0) = true := by decide +kernel

/-- V-G-3: the centre saturates. -/
theorem test_gain_scale : runs { designed with args := { resetArgs with gscale := 0x40400000 } } 0x03100000
    (fun t => (t.hcoef 3).drop 1 == [0x3F04026D, 0x3FC00000] && t.qcoef 5 == [0, 16897, 32767, 16897, 0]
      && t.hLen == 5) = true := by decide +kernel

/-- V-G-6: above GSCALE_MAX (3 here) the factor is capped. -/
theorem test_gain_scale_caps : runs { designed with args := { resetArgs with gscale := 0x41200000 } } 0x03100000
    (fun t => (t.hcoef 4).drop 1 == [0x3F04026D, 0x3FC00000, 0x3F04026D]) = true := by decide +kernel

/-- V-ANR-0: ANR_LIDX_MIN = 1.0; and V-PR-6. -/
theorem test_mode_select :
    runs { State.reset with tune := { State.reset.tune with anrLidxMin := 0x3F800000 } } 0x08000007
        (fun t => t.mode == .anr && t.anrNr.leak == 0x3C23D70A && t.anrNr.nt == 2 && t.anrNr.nd == 1
          && t.statusWord == 0x00000700) = true
      ∧ runs { State.reset with mode := .lms } 0x08000009
          (fun t => t.mode == .lms && t.statusWord == 0x00000240) = true := by decide +kernel

theorem test_notch_on : runs { State.reset with mode := .off } 0x09100000
    (fun t => t.statusWord == 0x00000900 && t.anrNotch.nt == 2 && t.anrNotch.idx == 0) = true := by decide +kernel

theorem test_notch_off : runs { State.reset with mode := .off, notchEn := true } 0x09000000
    (fun t => t.statusWord == 0x00000100) = true := by decide +kernel

/-- V-PR-1: the block is bit-identical, -0.0 included. -/
theorem test_process_bypass :
    runs { withBlock [0x3F800000, 0x80000000, 0x3E99999A, 0xBF800000] [0x3F000000, 0x3E800000, 0xBE000000, 0] with
        notchEn := true } 0x0A000000
      (fun t => t.err == .ok
        && t.sampL == [some 0x3F800000, some 0x80000000, some 0x3E99999A, some 0xBF800000]
        && t.sampR == [some 0x3F000000, some 0x3E800000, some 0xBE000000, some 0]) = true := by decide +kernel

/-- V-LMS-2, the second block: from a ring whose first half holds the block of 0.5. -/
theorem test_process_lms :
    runs { withBlock (List.replicate 4 0x3F000000) (List.replicate 4 0x3F000000) with
        mode := .lms
        lms :=
          { ring := List.replicate 4 0x3F000000 ++ zeros 4, wc := 4, w := zeros 2, hist := [0x3F000000], mu := fone } }
      0x0A000000
      (fun t => t.sampL == [some 0x3F000000, some 0x35880000, some 0, some 0] && t.sampR == t.sampL
        && t.lms.w == [0x3F000000, 0x3F000000] && t.lms.wc == 0 && t.statusWord == 0x00000200) = true := by
  decide +kernel

/-! ### Shared operations and engines -/

/-- V-REG-1. -/
theorem test_warl_alpha :
    legalize testEnv .alpha 0x3F000000 0x40000000 = 0x3F800000
      ∧ legalize testEnv .alpha 0x3F800000 0x7FC00000 = 0x3F800000
      ∧ legalize testEnv .alpha 0x3F800000 0x80000000 = 0x00000000
      ∧ legalize testEnv .alpha 0x3F800000 0xBF800000 = 0x00000000
      ∧ legalize testEnv .kimRef 0 0xFFFFFFFE = 0
      ∧ legalize testEnv .anrTaps 2 0 = 1
      ∧ legalize testEnv .lmsStrength 0 0xFFFFFFFF = 0 := by decide +kernel

/-- V-ANR-2, first block. -/
theorem test_anr_block :
    (let t := State.reset.tune
    let b := anrBlock testEnv .nr t (anrInit testEnv t) [0x3F800000, 0xBF800000, 0x3F800000, 0xBF800000]
    b.out == [0, 0, 0x3F000000, 0xBF400000] && b.st.w.take 2 == [0xBF300000, 0x3E400000] && b.st.idx == 4 && b.ok)
      = true := by decide +kernel

/-- V-ANR-3. -/
theorem test_anr_notch_block :
    (let t := { State.reset.tune with anrLidxMin := 0x3F800000, anrLidxMax := 0x40400000 }
    let b := anrBlock testEnv .notch t (anrInit testEnv t) [0x3F800000, 0x3F000000, 0xBE800000, 0x3F000000]
    b.out == [0x3F800000, 0x3F000000, 0xBEC00000, 0x3F1D1EB8] && b.st.leak == 0x3F4F5C29) = true := by decide +kernel

/-- V-KIM-1, the second frame from the state of the first, α = 0.5. -/
theorem test_kim_bin :
    kimBinStep testEnv State.reset.tune 1 1 { x := [0x40800000, 0], e := [0x40000000, 0], gts := 0x3F000000 } 0x40800000
      = { x := [0x40800000, 0x40800000], e := [0x40000000, 0x40800000], gts := 0x3E800004 } := by decide +kernel

/-- V-KIM-2. -/
theorem test_freq_smooth :
    freqSmooth testEnv (litF 1 10) [0x3F800000, 0x3F000000, 0x3E800000, 0]
      = [0x3F733333, 0x3F066666, 0x3E800000, 0x3CCCCCCD] := by decide +kernel

/-- V-MMSE-2, frame 3. -/
theorem test_mmse_steady_bin :
    mmseSteadyBin testEnv 0x3F000000 { nest := 0x40400000, gprev := 0, gamprev := 0, gams := 0, spp := 0 } 0x41400000
      = { nest := 0x40A80000, gprev := 0x3F199998, gamprev := 0x407FFFFB, gams := 0x3FFFFFFB, spp := 0 } := by
  decide +kernel

/-- V-MMSE-3, with a threshold above its energy ratio. -/
theorem test_musical_noise :
    musicalNoise { testEnv with p := { Params.vectors with mnThresh := fone } }
        [0x3F800000, litF 2 10, 0x3F800000, litF 2 10, 0x3F800000] (List.replicate 5 fone)
      = [0x3F19999A, 0x3F3BBBBC, 0x3EEEEEF0, 0x3F3BBBBC, 0x3F19999A] := by decide +kernel

/-! ### Witnesses: states and operands that meet the hypotheses of the statements in Certificates/Slice0/Obligations.lean -/

/-- Run one command on a state as it stands and look at the state it answers. -/
def execs (i : Instr) (s : State) (p : State → Bool) : Bool :=
  match exec i s with
  | .next t => p t
  | _ => false

/-- The reset state with inputs to come. -/
def withInbox (l : List Event) : State := { State.reset with inbox := l }

/-- The reset state with the snapshot's arguments. -/
def snapped (a : ArgRegs) : State := { State.reset with snap := { State.reset.snap with args := a } }

/-- Legal arguments of every design command. -/
def goodArgs : ArgRegs :=
  { fc1 := 0x3E000000, fc2 := 0x3EC00000, gfreq := 0x3F000000, gscale := 0x3F800000, kf := 0x3E800000
    kastop := 0x42480000, kdf := 0x3E000000 }

/-- Both channels all 0.5. -/
def halves : State := withBlock (List.replicate 4 0x3F000000) (List.replicate 4 0x3F000000)

/-- Both channels all +0.0. -/
def silence : State := withBlock (zeros 4) (zeros 4)

theorem test_witness_legal_machine :
    LegalMachine State.reset ∧ LegalMachine halves ∧ LegalMachine silence ∧ LegalMachine designed
      ∧ LegalMachine (snapped goodArgs) := by
  unfold LegalMachine; decide +kernel

theorem test_witness_DecodeAndEncodeAgree :
    Instr.wf (.wsfirBs .hamming 65535) = true ∧ decode 0x0132FFFF = .ok (.wsfirBs .hamming 65535) := by decide

/-- A word of each illegal kind, and a busy state that holds one, with and without a listed core move. -/
theorem test_witness_IllegalWordsChangeOnlyStatus :
    (opField 0x04000000 = 4 ∧ opField 0x07000000 = 7 ∧ opField 0x0B000000 = 0x0B)
      ∧ (opField 0x01030005 = 1 ∧ winField 0x01030005 = 3 ∧ typeField 0x01400005 = 4)
      ∧ (typeField 0x02500005 = 5 ∧ winField 0x02010005 = 1)
      ∧ (State.reset.accept 0x04000000).busy = true
      ∧ decode (State.reset.accept 0x04000000).snap.cmd = .error .reservedOp
      ∧ (State.reset.accept 0x04000000).inbox = []
      ∧ ((withInbox [.core]).accept 0x04000000).inbox = [.core] := by decide +kernel

theorem test_witness_UnknownModeCodesDoNothing : 8 ≤ 8 ∧ 8 < 256 ∧ 8 ≤ 255 ∧ 255 < 256 := by decide

theorem test_witness_StepRunsTheAcceptedCommand :
    ((State.reset.accept 0).inbox = [] ∧ (State.reset.accept 0).busy = true
        ∧ decode (State.reset.accept 0).snap.cmd = .ok .nop)
      ∧ ((withInbox [.core]).accept 0).inbox = [.core]
      ∧ (State.reset.inbox = [] ∧ State.reset.busy = false)
      ∧ (withInbox [.core]).busy = false
      ∧ decode (BitVec.ofNat 32 (0x0A000000 % 2 ^ 32)) = .ok .process := by decide +kernel

theorem test_witness_CmdWriteIssuesOrDrops :
    ((withInbox [.write 4 0x000 0]).inReset = false ∧ (withInbox [.write 4 0x000 0]).busy = false)
      ∧ ((withInbox [.write 4 0x000 0]).accept 0).busy = true
      ∧ (withInbox [.read 4 0x000]).inbox = [.read 4 0x000] := by decide +kernel

theorem test_witness_ArgumentRegistersHoldAnyPattern :
    (withInbox [.write 4 0x010 0x7FC00000]).inReset = false
      ∧ ((0x010 : Off), ArgReg.fc1) ∈ [((0x010 : Off), ArgReg.fc1), (0x028, .kdf)]
      ∧ (withInbox [.read 4 0x028]).inbox = [.read 4 0x028] := by decide +kernel

theorem test_witness_TuningWritesStoreLegalValues :
    (withInbox [.write 4 0x068 0x7FC00000]).cfg.wf = true ∧ (withInbox [.write 4 0x068 0x7FC00000]).inReset = false
      ∧ ((0x068 : Off), TuneReg.anrLidxMax) ∈ [((0x040 : Off), TuneReg.lmsStrength), (0x068, .anrLidxMax)] := by
  decide +kernel

/-- The first and last offset of every reserved range, with B = 4 and NMAX = 9. -/
theorem test_witness_ReservedOffsetsReadZero :
    State.reset.cfg.blk = 4 ∧ State.reset.cfg.nmax = 9
      ∧ ([0x02C, 0x03C, 0x06C, 0xFFC, 0x1010, 0x1FFC, 0x2010, 0x3FFC, 0x4024, 0x7FFC, 0x8024, 0xFFFC] : List Nat).all
          (fun a => a % 4 == 0 && locate State.reset.cfg a == .reserved) = true := by decide +kernel

theorem test_witness_ResultRegistersAreReadOnly :
    (withInbox [.write 4 0x4020 1]).cfg.wf = true ∧ (withInbox [.write 4 0x4020 1]).inReset = false
      ∧ (8 < State.reset.cfg.nmax ∧ (0x4020 : Off).toNat = 0x4000 + 4 * 8 ∧ (0x8020 : Off).toNat = 0x8000 + 4 * 8)
      ∧ (withInbox [.read 4 0x008]).busy = false := by decide +kernel

theorem test_witness_StatusWordFields :
    ({ State.reset with mode := .kim }).mode = .kim ∧ ({ State.reset with mode := .mmse }).mode = .mmse
      ∧ State.reset.mode ≠ .kim ∧ State.reset.mode ≠ .mmse := by decide +kernel

theorem test_witness_SampleSlotsReadBack :
    State.reset.inReset = false ∧ State.reset.busy = false ∧ 3 < State.reset.cfg.blk
      ∧ (0x100C : Off).toNat = 0x1000 + 4 * 3 ∧ (0x200C : Off).toNat = 0x2000 + 4 * 3
      ∧ Memory.readWord halves.mem 0x200C = some 0x3F000000 := by decide +kernel

theorem test_witness_BusyAccessesAreRaces :
    ((withInbox [.write 4 0x1000 1]).accept 0).busy = true ∧ ((withInbox [.read 4 0x8020]).accept 0).inReset = false
      ∧ ((withInbox [.read 4 0x004]).accept 0).cfg.wf = true
      ∧ (0x010 : Off).toNat % 4 = 0 ∧ (0x028 : Off).toNat < 0x02C ∧ (0x040 : Off).toNat % 4 = 0
      ∧ (0x068 : Off).toNat < 0x06C := by decide +kernel

theorem test_witness_MalformedAccessesAndReset :
    (withInbox [.read 2 0]).inReset = false ∧ (withInbox [.write 4 0x002 0]).inReset = false
      ∧ (0x002 : Off).toNat % 4 ≠ 0 ∧ ({ withInbox [.read 4 0] with inReset := true }).inReset = true
      ∧ (withInbox [.resetAssert]).inbox = [.resetAssert] ∧ (withInbox [.resetRelease]).inbox = [.resetRelease] := by
  decide +kernel

theorem test_witness_FailedCommandsChangeOnlyStatus :
    execs .gainQuery State.reset (fun t => t.err == .range) = true := by decide +kernel

theorem test_witness_CommandFrames :
    execs .nop State.reset (fun _ => true) = true
      ∧ execs (.kaiserHilbert 9) State.reset (fun t => t.err == .ok) = true
      ∧ (execs .gainScale { designed with snap := { designed.snap with args := goodArgs } } (fun t => t.err == .ok) = true
          ∧ designed.hLen.toNat ≤ designed.cfg.nmax)
      ∧ execs .process halves (fun t => t.err == .ok) = true := by decide +kernel

theorem test_witness_GainIsWrittenByQueryOnly :
    execs .gainQuery State.reset (fun _ => true) = true ∧ execs .gainScale State.reset (fun _ => true) = true
      ∧ Event.write 4 0 0 ≠ .core ∧ Event.write 4 0 0 ≠ .resetAssert := by decide +kernel

theorem test_witness_NopOnlySetsOk : opField 0x00000001 = 0 ∧ opField 0x00FFFFFF = 0 := by decide

/-- Operands for every check of the WSFIR commands, at boundary values (NMAX = 9). -/
theorem test_witness_WsfirChecksInOrder :
    (State.reset.cfg.nmax = 9 ∧ isZero fzero = true ∧ isZero 0x80000000 = true)
      ∧ State.reset.env.lt fhalf fhalf = false ∧ isFinite 0x7FC00000 = false
      ∧ State.reset.env.lt fzero 0xBE800000 = false
      ∧ State.reset.env.lt 0x3E800000 0x3E800000 = false
      ∧ checkWsLp State.reset.env resetArgs 0 = some .range ∧ checkWsLp State.reset.env resetArgs 10 = some .range
      ∧ checkWsLp State.reset.env resetArgs 9 = some .unset
      ∧ checkWsHp State.reset.env resetArgs 8 = some .range
      ∧ checkWsHp State.reset.env { resetArgs with fc1 := fhalf } 9 = some .range
      ∧ checkWsBand State.reset.env { resetArgs with fc1 := 0x3E800000 } 9 = some .unset
      ∧ checkWsBand State.reset.env { resetArgs with fc1 := 0x3E800000, fc2 := 0x3E800000 } 9 = some .range := by
  decide +kernel

/-- Operands for every check of the KAISER commands, at boundary values (A_MAX = 80). -/
theorem test_witness_KaiserChecksInOrder :
    State.reset.cfg.aMax = 0x42A00000
      ∧ checkKaiserLp State.reset.env { goodArgs with kastop := 0x42A00001 } 9 = some .range
      ∧ checkKaiserLp State.reset.env { goodArgs with kastop := 0x80000001 } 9 = some .range
      ∧ checkKaiserLp State.reset.env { goodArgs with kf := 0x80000000 } 9 = some .unset
      ∧ checkKaiserHp State.reset.env goodArgs 8 = some .range
      ∧ checkKaiserBp State.reset.env { goodArgs with kdf := fzero } 9 = some .unset
      ∧ checkKaiserBp State.reset.env { goodArgs with kdf := fhalf } 9 = some .range
      ∧ checkKaiserBp State.reset.env { goodArgs with kdf := 0x3E800000 } 9 = some .range
      ∧ checkKaiserBs State.reset.env { goodArgs with kf := 0x3EC00000 } 9 = some .range
      ∧ checkHilbert State.reset.env goodArgs 7 = some .range := by decide +kernel

/-- The hypotheses of the five statements about successful designs, with N at 1 and at NMAX. -/
theorem test_witness_designs :
    (FreqOk (snapped goodArgs).env goodArgs.fc1 ∧ FreqOk (snapped goodArgs).env goodArgs.fc2
        ∧ (snapped goodArgs).env.lt goodArgs.fc1 goodArgs.fc2 = true)
      ∧ (StopbandOk (snapped goodArgs).env goodArgs.kastop ∧ StopbandOk (snapped goodArgs).env 0x42A00000
        ∧ StopbandOk (snapped goodArgs).env fzero)
      ∧ (FreqOk (snapped goodArgs).env goodArgs.kf ∧ FreqOk (snapped goodArgs).env goodArgs.kdf
        ∧ (snapped goodArgs).env.lt fzero ((snapped goodArgs).env.sub goodArgs.kf goodArgs.kdf) = true
        ∧ (snapped goodArgs).env.lt ((snapped goodArgs).env.add goodArgs.kf goodArgs.kdf) fhalf = true)
      ∧ (1 ≤ 1 ∧ 9 ≤ (snapped goodArgs).cfg.nmax ∧ 9 % 2 = 1 ∧ 9 % 4 = 1) := by
  unfold FreqOk StopbandOk; decide +kernel

theorem test_witness_DesignsInvertTheirPartners :
    (let s : State := snapped { goodArgs with fc1 := goodArgs.fc2 };
      s.snap.args.fc1 = s.snap.args.fc2 ∧ execs (.wsfirHp .hamming 1) s (fun t => t.err == .ok) = true
        ∧ execs (.wsfirLp .hamming 1) s (fun t => t.err == .ok) = true)
      ∧ (execs (.wsfirBp .hamming 1) (snapped goodArgs) (fun t => t.err == .ok) = true
        ∧ execs (.wsfirBs .hamming 1) (snapped goodArgs) (fun t => t.err == .ok) = true)
      ∧ (execs (.kaiserHp 1) (snapped goodArgs) (fun t => t.err == .ok) = true
        ∧ execs (.kaiserLp 1) (snapped goodArgs) (fun t => t.err == .ok) = true)
      ∧ (execs (.kaiserBs 1) (snapped goodArgs) (fun t => t.err == .ok) = true
        ∧ execs (.kaiserBp 1) (snapped goodArgs) (fun t => t.err == .ok) = true) := by decide +kernel

theorem test_witness_QuantizeRewritesEverySlot : Memory.wf [] = true ∧ testEnv.p.nmax ≤ 4096 := by decide +kernel

theorem test_witness_InvertAddsOneAtTheCentre :
    ([fone, ftwo, fone] : List F32).length % 2 = 1 ∧ isNaN (getF [fone, ftwo, fone] 1) = false := by decide +kernel

/-- A tie: 0.5. -/
theorem test_witness_RoundAwayIsNearest :
    isFinite fhalf = true ∧ 2 * |roundAway fhalf * 2 ^ 149 - units fhalf| = 2 ^ 149 := by decide +kernel

theorem test_witness_KaiserBranchesAndRectangle :
    testEnv.p.wf = true ∧ testEnv.le 0x41A80000 0x41A80000 = true := by decide +kernel

theorem test_witness_KaiserWindowIsSymmetric : 4096 ≤ 4096 ∧ 4095 < 4096 ∧ 0 < 1 := by decide

/-- A stored design of one tap 0: COSF and SINF are finite for a finite angle, so both folds are zeros and the magnitude is
0. -/
theorem test_witness_GainQueryMeasures :
    let s : State := { snapped goodArgs with hLen := 1 }
    s.hLen ≠ 0 ∧ isFinite s.snap.args.gfreq = true ∧ s.env.lt s.snap.args.gfreq fzero = false
      ∧ s.env.lt fhalf s.snap.args.gfreq = false
      ∧ isFinite (corr s.env s.taps s.snap.args.gfreq) = true := by
  intro s
  refine ⟨by decide, by decide, by decide, by decide, ?_⟩
  have ht : s.taps = [fzero] := by decide +kernel
  have ha : isFinite (s.env.mul (s.env.mul (twoPi s.env) s.snap.args.gfreq) (natF 0)) = true := by decide +kernel
  have hc := Env.mul_fzero s.env (isFinite_unitFn Config.rawCos ha)
  have hs := Env.mul_fzero s.env (isFinite_unitFn Config.rawSin ha)
  have key : ∀ c d : F32, c = packF false 0 ∨ c = packF true 0 → d = packF false 0 ∨ d = packF true 0 →
      isFinite (s.env.sqrt (s.env.add (s.env.mul c c) (s.env.mul d d))) = true := by
    rintro c d (rfl | rfl) (rfl | rfl) <;> decide +kernel
  rw [ht]
  exact key _ _ hc hs

theorem test_witness_GainScaleScales :
    designed.hLen ≠ 0 ∧ designed.hLen.toNat ≤ designed.cfg.nmax ∧ isFinite goodArgs.gscale = true
      ∧ designed.env.lt fzero goodArgs.gscale = true
      ∧ ∀ n, n < designed.hLen.toNat →
          isFinite (designed.env.mul (coefAt designed n) (designed.env.min goodArgs.gscale designed.cfg.gscaleMax)) = true := by
  decide +kernel

theorem test_witness_GainChecksInOrder :
    State.reset.hLen = 0 ∧ designed.env.lt fhalf 0x3F000001 = true ∧ designed.env.lt 0x80000001 fzero = true
      ∧ designed.env.lt fzero fzero = false ∧ isFinite 0x7F800000 = false
      ∧ isInf (designed.env.mul 0x7F7FFFFF (designed.env.min 0x40400000 designed.cfg.gscaleMax)) = true := by
  decide +kernel

/-- A finite coefficient whose product is not finite, under legal parameters. -/
theorem test_witness_GainChecksInOrder_overflow :
    designed.cfg.wf = true ∧ isFinite 0x7F7FFFFF = true
      ∧ isFinite (designed.env.mul 0x7F7FFFFF (designed.env.min 0x40400000 designed.cfg.gscaleMax)) = false := by
  decide +kernel

/-- A NaN product is no infinite one, so GAIN.SCALE completes on it. -/
theorem test_witness_GainScaleScales_nan : isNaN (designed.env.mul 0x7FC00000 fone) = true := by
  rw [Env.mul_nan_left designed.env (by decide)]
  exact isNaN_nanF ..

theorem test_witness_ModeSelectActivates : (0, Mode.bypass) ∈ [(0, Mode.bypass), (7, .anr)] := by decide

theorem halves_slots : ∀ i, i < 4 → Memory.readWord halves.mem (sampLBase + 4 * i) = some fhalf
    ∧ Memory.readWord halves.mem (sampRBase + 4 * i) = some fhalf := by decide +kernel

theorem half_accepted : isFinite fhalf = true ∧ halves.env.lt halves.cfg.xMax (fabs fhalf) = false := by decide +kernel

theorem halves_ready (m : Mode) : BlockReady { halves with mode := m } := by
  rintro i hi base (rfl | rfl)
  · exact ⟨fhalf, (halves_slots i hi).1, half_accepted⟩
  · exact ⟨fhalf, (halves_slots i hi).2, half_accepted⟩

/-- A legal state whose weight update leaves the finite range: a huge step size. -/
def overflowing : State :=
  { halves with
    mode := .lms
    lms := { halves.lms with w := [fone, fone], hist := [fhalf], mu := 0x7F7FFFFF } }

theorem test_witness_BypassLeavesTheBlock : BlockReady { halves with mode := .bypass } := halves_ready _

theorem test_witness_OffAndHeuristicModesPass :
    BlockReady { halves with mode := .heur2 } ∧ halves.cfg.offOutput = .pass ∧ halves.notchEn = false :=
  ⟨halves_ready _, by decide +kernel⟩

/-- An unwritten slot; all written with one value above X_MAX = 1.0. -/
theorem test_witness_ProcessChecksItsInput :
    (3 < State.reset.cfg.blk ∧ Memory.readWord State.reset.mem (sampRBase + 4 * 3) = none)
      ∧ (let s : State := withBlock (List.replicate 4 0x3F800001) (List.replicate 4 fone);
        Memory.readWord s.mem (sampLBase + 4 * 3) = some 0x3F800001 ∧ s.env.lt s.cfg.xMax (fabs 0x3F800001) = true
          ∧ s.sampsWritten = true) := by decide +kernel

theorem reset_shapes : EngineShapes State.reset := by
  unfold EngineShapes LmsShape AnrShape KimShape MmseShape FrameShape; decide +kernel

/-- A block that completes in each engine a kernel can evaluate, and one that is refused as an overflow. -/
theorem test_witness_ProcessRunsModeThenNotch :
    EngineShapes { halves with mode := .lms } ∧ BlockReady { halves with mode := .lms }
      ∧ execs .process { halves with mode := .lms } (fun t => t.err == .ok) = true
      ∧ execs .process { halves with mode := .anr, notchEn := true } (fun t => t.err == .ok) = true
      ∧ execs .process { halves with mode := .off, notchEn := true } (fun t => t.err == .ok) = true
      ∧ execs .process { halves with mode := .heur1, cfg := { halves.cfg with offOutput := .fold } }
          (fun t => t.err == .unimpl) = true
      ∧ (match exec .process overflowing with
          | .refused .overflow => true
          | _ => false) = true :=
  ⟨reset_shapes, halves_ready _, by decide +kernel, by decide +kernel, by decide +kernel, by decide +kernel,
    by decide +kernel⟩

/-- The same hypotheses in the modes a kernel cannot evaluate, and with OFF_OUTPUT = FOLD and the notch disabled. -/
theorem test_witness_ProcessRunsModeThenNotch_spectral :
    (∀ m, LegalMachine { halves with mode := m } ∧ EngineShapes { halves with mode := m }
        ∧ BlockReady { halves with mode := m })
      ∧ Mode.kim ≠ .bypass ∧ Mode.mmse ≠ .bypass
      ∧ (let s : State := { halves with mode := .off, cfg := { halves.cfg with offOutput := .fold } };
        LegalMachine s ∧ EngineShapes s ∧ BlockReady s ∧ s.mode ≠ .bypass ∧ s.cfg.offOutput = .fold) :=
  ⟨fun m => ⟨test_witness_legal_machine.2.1, reset_shapes, halves_ready m⟩, by decide, by decide,
    by unfold LegalMachine; decide +kernel, reset_shapes, halves_ready .off, by decide, rfl⟩

theorem test_witness_InactiveEnginesAreRetained :
    execs (.modeSelect 2) State.reset (fun _ => true) = true ∧ execs .notchOn State.reset (fun _ => true) = true := by
  decide +kernel

theorem silence_slots : ∀ i, i < silence.cfg.blk → Memory.readWord silence.mem (sampLBase + 4 * i) = some fzero
    ∧ Memory.readWord silence.mem (sampRBase + 4 * i) = some fzero := by decide +kernel

theorem test_witness_LmsZeroBlock :
    let s : State := { silence with mode := .lms }
    LegalMachine s ∧ s.notchEn = false ∧ isFinite s.lms.mu = true
      ∧ s.lms = { ring := zeros (2 * s.cfg.blk), wc := 0, w := zeros s.cfg.lmsTaps, hist := zeros (s.cfg.lmsTaps - 1)
                  mu := s.lms.mu } := by
  unfold LegalMachine; decide +kernel

theorem test_witness_LmsReferenceIsThePreviousBlock :
    testEnv.p.wf = true ∧ LmsShape testEnv.p State.reset.lms ∧ (zeros 4).length = testEnv.p.blk := by
  unfold LmsShape; decide +kernel

/-- V-ANR-1. -/
theorem test_witness_AnrZeroStepSize :
    let u := { State.reset.tune with anrMu := fzero }
    let x : List F32 := [0x3E800000, 0xBF000000, 0x3F400000, 0x3F800000]
    testEnv.p.wf = true ∧ legalTune testEnv.p u = true ∧ isZero u.anrMu = true ∧ x.all isFinite = true
      ∧ (anrBlock testEnv .nr u (anrInit testEnv u) x).ok = true
      ∧ (anrBlock testEnv .notch u (anrInit testEnv u) x).out = x := by decide +kernel

/-- V-KIM-5, after frame 3. -/
theorem test_witness_KimMinimumIsExact :
    ([0x40A00000, 0x40400000, 0x40E00000] : List F32) ≠ []
      ∧ ([0x40A00000, 0x40400000, 0x40E00000] : List F32).all (fun x => !isNaN x) = true
      ∧ minF testEnv [0x40A00000, 0x40400000, 0x40E00000] = 0x40400000 := by decide +kernel

theorem test_witness_KimGainInUnitInterval :
    testEnv.p.wf = true ∧ legalTune testEnv.p State.reset.tune = true ∧ leF fzero fzero = true
      ∧ kimGain testEnv State.reset.tune fzero fzero fzero = fone := by decide +kernel

theorem test_witness_MmseValuesStayInBounds : testEnv.p.wf = true := by decide +kernel

theorem test_witness_BandLiesInsideTheSpectrum :
    Params.vectors.wf = true ∧ kLo Params.vectors = 1 ∧ kHi Params.vectors = 3 := by decide +kernel

theorem test_witness_FrameCountTransitions :
    execs (.modeSelect 3) { State.reset with kim := { State.reset.kim with fe := { State.reset.kim.fe with cnt := 2 } } }
        (fun t => t.kim.fe.cnt == 0) = true
      ∧ Event.read 4 0 ≠ .core ∧ Event.read 4 0 ≠ .resetAssert := by decide +kernel

theorem reset_tuning_legal : TuningLegal State.reset := by unfold TuningLegal; decide +kernel

theorem test_witness_SpectralZeroFrame :
    (let s : State := { silence with mode := .kim };
      LegalMachine s ∧ TuningLegal s ∧ s.notchEn = false ∧ s.kim = kimInit s.cfg)
      ∧ ({ silence with mode := .mmse } : State).mmse = mmseInit silence.cfg := by
  unfold LegalMachine TuningLegal; decide +kernel

theorem test_witness_ResetState :
    Params.vectors.wf = true ∧ DesignCommand (.kaiserBs 9) ∧ (∀ n, Instr.kaiserBs 9 ≠ .kaiserHilbert n)
      ∧ 9 ≤ Params.vectors.nmax ∧ 9 % 4 = 1 :=
  ⟨by decide +kernel, trivial, by simp, by decide, by decide⟩

theorem reset_design_consistent : DesignConsistent State.reset := by
  refine ⟨by decide +kernel, ?_, ?_⟩
  · intro n _ hn
    revert n
    have h : ∀ n, n < State.reset.cfg.nmax → Memory.readWord State.reset.mem (hcoefBase + 4 * n) = some fzero := by
      decide +kernel
    exact fun n _ hn => h n hn
  · intro n hn
    refine ⟨fzero, ?_, ?_⟩
    · revert n; decide +kernel
    · revert n; decide +kernel

/-- The hypotheses of the four statements about a step, with a step that completes. -/
theorem test_witness_step_invariants :
    LegalMachine State.reset ∧ TuningLegal State.reset ∧ DesignConsistent State.reset ∧ EngineShapes State.reset
      ∧ runs State.reset 0x00000000 (fun _ => true) = true :=
  ⟨test_witness_legal_machine.1, reset_tuning_legal, reset_design_consistent, reset_shapes, by decide +kernel⟩

/-- 1 + 2^-24 is a tie between 1 and its neighbour. Under FTZ the smallest subnormal is added as zero. -/
theorem test_witness_ArithmeticRoundsToNearestEven :
    testEnv.p.ftz = false ∧ testEnv.add fone 0x33800000 = fone ∧ testEnv.sub fone 0x33800000 = 0x3F7FFFFF
      ∧ testEnv.mul ftwo fhalf = fone ∧ testEnv.div fone 0x40400000 = 0x3EAAAAAB ∧ testEnv.sqrt ftwo = 0x3FB504F3
      ∧ ({ testEnv with p := { testEnv.p with ftz := true } } : Env).add 1 1 = fzero := by decide +kernel

/-- One value 1.0, which is its own transform: both transforms can meet the bound there, and do. -/
theorem test_witness_ConfigurationFunctionsKeepTheirProperties :
    (∀ inverse, WithinTol Params.vectors inverse [⟨fone, fzero⟩] 0 ⟨fone, fzero⟩)
      ∧ ∀ inverse, nearestTransform Params.vectors inverse [⟨fone, fzero⟩] 0 = ⟨fone, fzero⟩ := by
  have h1 : units fone = 2 ^ 149 := by decide +kernel
  have h0 : units fzero = 0 := by decide
  have ht : (0 : ℝ) ≤ (units Params.vectors.fftTol : ℝ) / 2 ^ 149 :=
    div_nonneg (by exact_mod_cast (by decide +kernel : 0 ≤ units Params.vectors.fftTol)) (by positivity)
  refine ⟨fun inverse => ⟨by decide, by decide, ?_⟩, by decide +kernel⟩
  cases inverse <;> simpa [h0, h1] using mul_nonneg ht (norm_nonneg _)

end Sys2Proof.Tests
end

/-! The window under a step (O54): what a command and a step can do to the buffers and the parameters. -/

namespace Sys2Proof.Machine

/-- What a command can do to the buffers, the parameters kept: leave them, store words from HCOEF[0] up and quantize anew
(R76, R77, R84), or give both sample buffers one block (R132). -/
def BuffersMove (s t : State) : Prop :=
  t.cfg = s.cfg ∧
    (t.mem = s.mem
      ∨ (∃ ws, t.mem = quantizeMem s.env (Memory.writeWords s.mem hcoefBase ws))
      ∨ ∃ m, t.mem = Memory.writeWords (Memory.writeWords s.mem sampLBase m) sampRBase m)

theorem BuffersMove.of_mem_eq {s t : State} (hcfg : t.cfg = s.cfg) (hmem : t.mem = s.mem) : BuffersMove s t :=
  ⟨hcfg, .inl hmem⟩

theorem BuffersMove.of_next {s t u : State} (h : (Host.Outcome.next u : Host.Outcome State Fault Refusal) = .next t)
    (hu : BuffersMove s u) : BuffersMove s t :=
  Host.Outcome.next.inj h ▸ hu

theorem buffersMove_fail (s : State) (c : ErrCode) : BuffersMove s (s.fail c) := .of_mem_eq rfl rfl

theorem buffersMove_commit (s : State) (h : List F32) (n : Nat) : BuffersMove s (s.commit h n) :=
  ⟨rfl, .inr (.inl ⟨_, rfl⟩)⟩

theorem buffersMove_design (s : State) (check : Option ErrCode) (h : List F32) (n : Nat) :
    BuffersMove s (s.design check h n) := by
  rcases design_cases s check h n with ⟨c, -, hd⟩ | ⟨-, hd⟩ <;> rw [hd]
  · exact buffersMove_fail s c
  · exact buffersMove_commit s h n

theorem buffersMove_execGainQuery {s t : State} (h : execGainQuery s = .next t) : BuffersMove s t := by
  unfold execGainQuery at h
  split at h
  · exact .of_next h (buffersMove_fail s _)
  · split_ifs at h
    · exact .of_next h (.of_mem_eq rfl rfl)
    · exact .of_next h (buffersMove_fail s _)

theorem buffersMove_execGainScale {s t : State} (h : execGainScale s = .next t) : BuffersMove s t := by
  rcases execGainScale_eq s with ⟨c, -, he⟩ | ⟨-, -, he⟩ | ⟨-, -, he⟩ <;> rw [he] at h
  · exact .of_next h (buffersMove_fail s c)
  · exact .of_next h (buffersMove_fail s _)
  · exact .of_next h ⟨rfl, .inr (.inl ⟨scaledTaps s, rfl⟩)⟩

theorem buffersMove_execModeSelect {s t : State} {code : Nat} (h : execModeSelect code s = .next t) :
    BuffersMove s t := by
  unfold execModeSelect at h
  split at h
  · exact .of_next h (buffersMove_fail s _)
  · exact .of_next h (.of_mem_eq (by simp) (by simp))

/-- The engines leave the window alone; what PROCESS stores is the mirrored block (R132). -/
theorem buffersMove_engines (s : State) (m n out : List F32) :
    BuffersMove s ((runNotch (runMode s m).st n).st.mirror out).finishMode :=
  ⟨by simp, .inr (.inr ⟨out, by simp⟩)⟩

theorem buffersMove_processBlock {s t : State} (h : processBlock s = .next t) : BuffersMove s t := by
  rcases processBlock_cases s with ⟨-, -, -, he⟩ | ⟨-, he⟩ <;> rw [he] at h
  · exact .of_next h (buffersMove_engines s _ _ _)
  · cases h

theorem buffersMove_execProcess {s t : State} (h : execProcess s = .next t) : BuffersMove s t := by
  rcases execProcess_cases s with ⟨-, he⟩ | ⟨-, -, he⟩ | ⟨-, -, -, he⟩ | ⟨-, -, -, -, -, he⟩ | ⟨-, -, -, -, he⟩ <;>
    rw [he] at h
  · cases h
  · exact .of_next h (buffersMove_fail s _)
  · exact .of_next h (.of_mem_eq rfl rfl)
  · exact .of_next h (.of_mem_eq rfl rfl)
  · exact buffersMove_processBlock h

/-- Every command that completes moves the buffers in one of the three ways. -/
theorem buffersMove_exec {i : Instr} {s t : State} (h : exec i s = .next t) : BuffersMove s t := by
  cases i with
  | nop => exact .of_next h (.of_mem_eq rfl rfl)
  | wsfirLp | wsfirHp | wsfirBp | wsfirBs => exact .of_next h (buffersMove_design s _ _ _)
  | kaiserLp | kaiserHp | kaiserBp | kaiserBs | kaiserHilbert => exact .of_next h (buffersMove_design s _ _ _)
  | gainQuery => exact buffersMove_execGainQuery h
  | gainScale => exact buffersMove_execGainScale h
  | modeSelect => exact buffersMove_execModeSelect h
  | notchOff | notchOn => exact .of_next h (.of_mem_eq rfl rfl)
  | process => exact buffersMove_execProcess h

/-! ### The canonical form -/

theorem wf_quantizeMem (e : Env) {m : Memory} (h : Memory.wf m = true) : Memory.wf (quantizeMem e m) = true :=
  Memory.wf_writeWords _ _ h

theorem BuffersMove.wf {s t : State} (hb : BuffersMove s t) (h : Memory.wf s.mem = true) : Memory.wf t.mem = true := by
  obtain ⟨-, hm | ⟨ws, hm⟩ | ⟨m, hm⟩⟩ := hb <;> rw [hm]
  · exact h
  · exact wf_quantizeMem _ (Memory.wf_writeWords _ _ h)
  · exact Memory.wf_writeWords _ _ (Memory.wf_writeWords _ _ h)

@[simp] theorem writeLoc_cfg (s : State) (l : Loc) (w : Word) : (s.writeLoc l w).cfg = s.cfg := by
  cases l with
  | cmd => simp only [State.writeLoc, State.issue]; split_ifs <;> rfl
  | _ => rfl

@[simp] theorem issue_mem (s : State) (w : Word) : (s.issue w).mem = s.mem := by
  unfold State.issue; split_ifs <;> rfl

theorem wf_writeLoc {s : State} (l : Loc) (w : Word) (h : Memory.wf s.mem = true) :
    Memory.wf (s.writeLoc l w).mem = true := by
  cases l with
  | cmd => simpa [State.writeLoc] using h
  | sampL | sampR => exact Memory.wf_writeWord _ _ h
  | status | gain | hLen | arg | tune | hcoef | qcoef | reserved => exact h

/-! ### One step -/

/-- The state a step starts from: the event it takes is out of the inbox (log 9). -/
def State.popEvent (s : State) : State := { s with inbox := s.inbox.tail }

theorem popEvent_of_nil {s : State} (h : s.inbox = []) : s.popEvent = s := by
  cases s; cases h; rfl

/-- What a core move that completes can be: idle, an ILLEGAL word, or a command (R57, R67, R147). -/
theorem coreMove_next {run : Instr → State → Host.Outcome State Fault Refusal} {s t : State}
    (h : coreMoveWith run s = .next t) :
    (s.busy = false ∧ t = s) ∨ (s.busy = true ∧ t = s.fail .illegal)
      ∨ ∃ i, s.busy = true ∧ decode s.snap.cmd = .ok i ∧ run i s = .next t := by
  cases hb : s.busy with
  | false => rw [coreMove_idle _ _ hb] at h; exact .inl ⟨rfl, (Host.Outcome.next.inj h).symm⟩
  | true =>
    cases hd : decode s.snap.cmd with
    | error w => rw [coreMove_illegal _ _ w hb hd] at h; exact .inr (.inl ⟨rfl, (Host.Outcome.next.inj h).symm⟩)
    | ok i => rw [coreMove_ok _ _ i hb hd] at h; exact .inr (.inr ⟨i, rfl, rfl, h⟩)

/-- Everything a step that completes can be: a core move, a host read, a host write, or an edge of the reset input. -/
theorem step_next {s t : State} (h : step s = .next t) :
    coreMoveWith exec s.popEvent = .next t
      ∨ (∃ width off, hostRead s.popEvent width off = .next t)
      ∨ (∃ width off v, hostWrite s.popEvent width off v = .next t)
      ∨ t = s.popEvent.assertReset
      ∨ t = { s.popEvent with inReset := false } := by
  cases hin : s.inbox with
  | nil => rw [step_nil s hin] at h; exact .inl ((popEvent_of_nil hin).symm ▸ h)
  | cons ev rest =>
    have hpop : s.popEvent = { s with inbox := rest } := by unfold State.popEvent; rw [hin]; rfl
    rw [step_cons s ev rest hin, ← hpop] at h
    cases ev with
    | core => exact .inl h
    | read width off => exact .inr (.inl ⟨width, off, h⟩)
    | write width off v => exact .inr (.inr (.inl ⟨width, off, v, h⟩))
    | resetAssert => exact .inr (.inr (.inr (.inl (Host.Outcome.next.inj h).symm)))
    | resetRelease => exact .inr (.inr (.inr (.inr (Host.Outcome.next.inj h).symm)))

theorem coreMove_keeps_canonical {s t : State} (hw : Memory.wf s.mem = true) (h : coreMoveWith exec s = .next t) :
    Memory.wf t.mem = true ∧ t.cfg = s.cfg := by
  rcases coreMove_next h with ⟨-, rfl⟩ | ⟨-, rfl⟩ | ⟨i, -, -, he⟩
  · exact ⟨hw, rfl⟩
  · exact ⟨hw, rfl⟩
  · exact ⟨(buffersMove_exec he).wf hw, (buffersMove_exec he).1⟩

/-- Settles O54: a core move writes the buffers by whole words only, a host write stores one, and reset empties the list. -/
theorem stepKeepsCanonicalMemory : Obligations.StepKeepsCanonicalMemory := by
  intro s t hw h
  have hpop : Memory.wf s.popEvent.mem = true := hw
  rcases step_next h with hc | ⟨width, off, hr⟩ | ⟨width, off, v, hwr⟩ | rfl | rfl
  · exact coreMove_keeps_canonical (s := s.popEvent) hpop hc
  · obtain ⟨-, -, -, rfl⟩ := hostRead_next hr
    exact ⟨hw, rfl⟩
  · obtain ⟨-, -, -, rfl⟩ := hostWrite_next hwr
    exact ⟨wf_writeLoc _ v hpop, writeLoc_cfg _ _ v⟩
  · exact ⟨Memory.wf_nil, rfl⟩
  · exact ⟨hw, rfl⟩

end Sys2Proof.Machine

/-! The conversions to integers (O31). -/

namespace Sys2Proof

/-- The magnitude `roundAway` delivers (R21): the value plus one half, rounded down. -/
def roundMag (m : Nat) : Nat := (2 * m + 2 ^ 149) / 2 ^ 150

theorem roundAway_eq (x : F32) : roundAway x = if fsign x then -(roundMag (fmag x) : Int) else (roundMag (fmag x) : Int) :=
  rfl

/-- Adding one half and rounding down ends within half a unit, the value half a unit off being the one below. -/
theorem roundMag_bounds (m : Nat) :
    roundMag m * 2 ^ 150 ≤ 2 * m + 2 ^ 149 ∧ 2 * m < roundMag m * 2 ^ 150 + 2 ^ 149 := by
  unfold roundMag
  omega

/-- On magnitudes: within half a unit, and above the value where exactly half a unit off. -/
theorem roundMag_nearest (m : Nat) :
    2 * |(roundMag m : Int) * 2 ^ 149 - m| ≤ 2 ^ 149
      ∧ (2 * |(roundMag m : Int) * 2 ^ 149 - m| = 2 ^ 149 → (m : Int) < roundMag m * 2 ^ 149) := by
  obtain ⟨hle, hlt⟩ := roundMag_bounds m
  rcases abs_cases ((roundMag m : Int) * 2 ^ 149 - m) with ⟨ha, -⟩ | ⟨ha, -⟩ <;> rw [ha] <;> omega

theorem roundAway_nearest (x : F32) :
    2 * |roundAway x * 2 ^ 149 - units x| ≤ 2 ^ 149
      ∧ (2 * |roundAway x * 2 ^ 149 - units x| = 2 ^ 149 → |units x| < |roundAway x * 2 ^ 149|) := by
  obtain ⟨hle, htie⟩ := roundMag_nearest (fmag x)
  have hq : |(roundMag (fmag x) : Int) * 2 ^ 149| = (roundMag (fmag x) : Int) * 2 ^ 149 := abs_of_nonneg (by positivity)
  rw [roundAway_eq]
  unfold units
  cases fsign x with
  | false => simpa [hq] using ⟨hle, htie⟩
  | true =>
    have hneg : -((roundMag (fmag x) : Int) * 2 ^ 149) - -(fmag x : Int) = -(roundMag (fmag x) * 2 ^ 149 - fmag x) := by
      ring
    simpa only [if_true, neg_mul, hneg, abs_neg, hq, Nat.abs_cast] using ⟨hle, htie⟩

theorem sat16_bounds (i : Int) : -32768 ≤ sat16 i ∧ sat16 i ≤ 32767 := by
  unfold sat16 clampInt
  omega

/-- Settles O31: `roundMag` on the magnitude, the sign carried through. -/
theorem roundAwayIsNearest : Obligations.RoundAwayIsNearest :=
  ⟨fun x _ => roundAway_nearest x, fun i => ⟨rfl, sat16_bounds i⟩⟩

end Sys2Proof

/-! The configuration functions and the step size (O60). -/

namespace Sys2Proof

/-! ### Comparison with +0.0 -/

theorem ordKey_fzero : ordKey fzero = 0 := by decide

theorem leF_fzero_iff (x : F32) : leF fzero x = true ↔ isNaN x = false ∧ 0 ≤ ordKey x := by
  have hz : isNaN fzero = false := by decide
  simp [leF, hz, ordKey_fzero]

theorem ltF_fzero_iff (x : F32) : ltF fzero x = true ↔ isNaN x = false ∧ 0 < ordKey x := by
  have hz : isNaN fzero = false := by decide
  simp [ltF, hz, ordKey_fzero]

theorem ordKey_of_isZero {x : F32} (h : isZero x = true) : ordKey x = 0 := by
  rw [isZero_iff] at h
  simp [ordKey, h]

theorem isFinite_of_isZero {x : F32} (h : isZero x = true) : isFinite x = true := by
  rw [isZero_iff] at h
  rw [isFinite_iff, h]
  norm_num

/-- A zero of either sign lies in [0, 1]. -/
theorem leF_of_isZero {x : F32} (h : isZero x = true) : leF fzero x = true ∧ leF x fone = true := by
  have hn := not_isNaN_of_isFinite (isFinite_of_isZero h)
  have h1 : isNaN fone = false ∧ ordKey fone = 0x3F800000 := by decide
  exact ⟨(leF_fzero_iff x).mpr ⟨hn, (ordKey_of_isZero h).ge⟩, by simp [leF, hn, h1, ordKey_of_isZero h]⟩

theorem isZero_zeroOf (x : F32) : isZero (zeroOf x) = true := by
  unfold zeroOf keepIf
  split_ifs with h
  · exact h
  · decide

/-! ### The scalar functions (00_scope.md R19) -/

/-- A value kept only where it has a property has it, if the fallback does. -/
theorem keepIf_has {P : F32 → Prop} {ok : Bool} {v fallback : F32} (hv : ok = true → P v) (hf : P fallback) :
    P (keepIf ok v fallback) := by
  unfold keepIf
  split_ifs with h
  · exact hv h
  · exact hf

theorem inUnit_unitFn (raw : F32 → F32) {x : F32} (h : isFinite x = true) : inUnit (unitFn raw x) = true :=
  keepIf_has (P := fun v => inUnit v = true) (fun hok => by simpa [h] using hok) (by decide)

theorem unitFn_bounds (raw : F32 → F32) {x : F32} (h : isFinite x = true) :
    isFinite (unitFn raw x) = true ∧ leF 0xBF800000 (unitFn raw x) = true ∧ leF (unitFn raw x) fone = true :=
  ⟨isFinite_unitFn raw h, by simpa [inUnit] using inUnit_unitFn raw h⟩

theorem expFn_nonneg (raw : F32 → F32) (x : F32) : leF fzero (expFn raw x) = true :=
  keepIf_has (P := fun v => leF fzero v = true) id (by decide)

theorem powFn_fone (raw : F32 → F32 → F32) {x : F32} (h : leF fzero x = true) : powFn raw x fone = x := by
  simp [powFn, h]

theorem powFn_isZero (raw : F32 → F32 → F32) {x y : F32} (hx : isZero x = true) (hy : ltF fzero y = true) :
    isZero (powFn raw x y) = true := by
  unfold powFn
  rw [(leF_of_isZero hx).1, hx, hy]
  simp only [Bool.not_true, Bool.false_eq_true, if_false, Bool.and_self, if_true]
  split_ifs
  · exact hx
  · exact keepIf_has (P := fun v => isZero v = true) id (by decide)

theorem powFn_nonneg (raw : F32 → F32 → F32) {x : F32} (y : F32) (h : leF fzero x = true) :
    leF fzero (powFn raw x y) = true := by
  by_cases hzero : isZero x = true ∧ ltF fzero y = true
  · exact (leF_of_isZero (powFn_isZero raw hzero.1 hzero.2)).1
  · by_cases hone : y = fone
    · rw [hone, powFn_fone raw h]; exact h
    · unfold powFn
      rw [if_neg (by simp [h]), if_neg hone, if_neg (by simpa using hzero)]
      exact keepIf_has (P := fun v => leF fzero v = true) id (by decide)

theorem sppFn_bounds (raw : F32 → F32) {r : F32} (h : leF fzero r = true) :
    leF fzero (sppFn raw r) = true ∧ leF (sppFn raw r) fone = true
      ∧ (isZero r = true → isZero (sppFn raw r) = true) := by
  unfold sppFn
  rw [if_neg (by simp [h])]
  split_ifs with hz
  · obtain ⟨hlo, hhi⟩ := leF_of_isZero (isZero_zeroOf (raw r))
    exact ⟨hlo, hhi, fun _ => isZero_zeroOf _⟩
  · have hkeep := keepIf_has (P := fun v => leF fzero v = true ∧ leF v fone = true)
      (ok := leF fzero (raw r) && leF (raw r) fone) (v := raw r) (fallback := fzero) (by simp) (by decide)
    exact ⟨hkeep.1, hkeep.2, fun h0 => absurd h0 hz⟩

theorem isFinite_mmseFn (raw : F32 → F32 → F32) {xi g : F32} (hxi : isFinite xi = true) (hg : isFinite g = true) :
    isFinite (mmseFn raw xi g) = true :=
  keepIf_has (P := fun v => isFinite v = true) (fun hok => by simpa [hxi, hg] using hok) (by decide)

theorem widthFn_odd (raw : F32 → Nat) (rho : F32) : widthFn raw rho % 2 = 1 := by
  unfold widthFn
  split_ifs with h
  · exact h
  · rfl

/-! ### POW10F (43_nlms.md R94) -/

theorem operandF_eq_self_or_zero (ftz : Bool) (x : F32) : operandF ftz x = x ∨ isZero (operandF ftz x) = true := by
  unfold operandF
  split_ifs
  · exact .inr ((isZero_iff _).mpr (fbits_packF _ (by norm_num)))
  · exact .inl rfl

theorem isInf_infF (neg : Bool) : isInf (infF neg) = true := by cases neg <;> decide

/-- The inverse of a flushed operand is finite and above zero only for an operand above zero: a NaN, an infinity, a zero and
a negative operand give a NaN, a zero, an infinity and a value that is not above zero. -/
theorem pos_of_divCore_fone {e : Env} {q : F32} (hf : isFinite (divCore e fone q) = true)
    (hp : ltF fzero (divCore e fone q) = true) : isNaN q = false ∧ isZero q = false ∧ 0 < ordKey q := by
  have hone : isNaN fone = false ∧ isInf fone = false ∧ isZero fone = false ∧ fsign fone = false := by decide
  obtain ⟨-, hpos⟩ := (ltF_fzero_iff _).mp hp
  have hnan : isNaN q = false := by
    by_contra hq
    rw [Bool.not_eq_false] at hq
    have := not_isNaN_of_isFinite hf
    simp [divCore, hone, hq, isNaN_nanF] at this
  have hinf : isInf q = false := by
    by_contra hq
    rw [Bool.not_eq_false] at hq
    have hz : isZero (divCore e fone q) = true := by
      simp [divCore, hone, hnan, hq, isZero_iff, fbits_packF]
    exact absurd (ordKey_of_isZero hz) hpos.ne'
  have hzero : isZero q = false := by
    by_contra hq
    rw [Bool.not_eq_false] at hq
    have := not_isInf_of_isFinite hf
    simp [divCore, hone, hnan, hinf, hq, isInf_infF] at this
  have hsign : fsign (divCore e fone q) = fsign q := by simp [divCore, hone, hnan, hinf, hzero]
  refine ⟨hnan, hzero, ?_⟩
  have hbits : fbits q ≠ 0 := (isZero_iff q).not.mp (by simp [hzero])
  cases hs : fsign q with
  | false => simp only [ordKey, hs, Bool.false_eq_true, if_false]; omega
  | true =>
    rw [hs] at hsign
    simp only [ordKey, hsign, if_true] at hpos
    omega

/-- A ratio whose inverse is finite and above zero is above zero. -/
theorem pos_of_stepSizeOk {p : Params} {ratio : F32} (h : stepSizeOk p ratio = true) : ltF fzero ratio = true := by
  simp only [stepSizeOk, Env.div, operandF_fone, Bool.and_eq_true] at h
  obtain ⟨hnan, hzero, hpos⟩ := pos_of_divCore_fone h.1 h.2
  rcases operandF_eq_self_or_zero p.ftz ratio with hq | hq
  · rw [hq] at hnan hpos
    exact (ltF_fzero_iff ratio).mpr ⟨hnan, hpos⟩
  · exact absurd hq (by simp [hzero])

theorem pow10Fn_of_isZero (ok : F32 → Bool) (raw : F32 → F32) {x : F32} (h : isZero x = true) :
    pow10Fn ok raw x = fone := if_pos h

/-! ### The transforms -/

/-- The operands of a zero vector, and those past its end, have the value zero. -/
theorem units_getD_of_zeros {z : List Cplx} (h : z.all Cplx.isZero = true) (n : Nat) :
    units (z.getD n ⟨fzero, fzero⟩).re = 0 ∧ units (z.getD n ⟨fzero, fzero⟩).im = 0 := by
  have hzero : (z.getD n ⟨fzero, fzero⟩).isZero = true := by
    by_cases hn : n < z.length
    · rw [List.getD_eq_getElem _ _ hn]
      exact List.all_eq_true.mp h _ (List.getElem_mem hn)
    · rw [List.getD_eq_default _ _ (by omega)]
      decide
  simpa [Cplx.isZero, ← fmag_eq_zero_iff, ← natAbs_units] using hzero

/-- The exact transform of a zero vector is zero, so zeros of any sign meet the bound of R19. -/
theorem withinTol_of_zeros (p : Params) (inverse : Bool) {z : List Cplx} (k : Nat) {c : Cplx}
    (hz : z.all Cplx.isZero = true) (hc : c.isZero = true) : WithinTol p inverse z k c := by
  simp only [Cplx.isZero, Bool.and_eq_true] at hc
  have hre : units c.re = 0 := by simpa [← fmag_eq_zero_iff, ← natAbs_units] using hc.1
  have him : units c.im = 0 := by simpa [← fmag_eq_zero_iff, ← natAbs_units] using hc.2
  refine ⟨isFinite_of_isZero hc.1, isFinite_of_isZero hc.2, ?_⟩
  have hval : (⟨0, 0⟩ : ℂ) = 0 := rfl
  simp only [hre, him, units_getD_of_zeros hz, Int.cast_zero, zero_div, hval]
  simp

theorem transformFn_within (p : Params) (inverse : Bool) {z : List Cplx} {k : Nat} (hz : finiteVector z = true)
    (hk : k < z.length) (h : WithinTol p inverse z k (nearestTransform p inverse z k)) :
    WithinTol p inverse z k ((transformFn (freeTransform p inverse) z).getD k ⟨fzero, fzero⟩) := by
  cases hzeros : z.all Cplx.isZero with
  | false => rw [getD_transformFn _ hzeros hk]; exact freeTransform_within p inverse hz h
  | true =>
    have hk' : k < (transformFn (freeTransform p inverse) z).length := by simpa using hk
    rw [List.getD_eq_getElem _ _ hk']
    exact withinTol_of_zeros p inverse k hzeros
      (List.all_eq_true.mp (transformFn_zero _ hzeros) _ (List.getElem_mem hk'))

/-- The zero vector gives zeros, result by result (R19, log 26). -/
theorem transformFn_zeros (value : List Cplx → Nat → Cplx) {z : List Cplx}
    (h : ∀ c ∈ z, isZero c.re = true ∧ isZero c.im = true) :
    ∀ c ∈ transformFn value z, isZero c.re = true ∧ isZero c.im = true := by
  have hz : z.all Cplx.isZero = true := by simpa [Cplx.isZero] using h
  simpa [Cplx.isZero] using transformFn_zero value hz

/-- Settles O60: each wrapper of `configFns` keeps a value only where it has its property. -/
theorem configurationFunctionsKeepTheirProperties : Obligations.ConfigurationFunctionsKeepTheirProperties := by
  intro p f
  refine ⟨fun x hx => ⟨unitFn_bounds _ hx, unitFn_bounds _ hx⟩, expFn_nonneg _,
    fun x y hx => ⟨powFn_nonneg _ y hx, powFn_fone _ hx, powFn_isZero _⟩,
    fun x => ⟨pos_of_stepSizeOk (stepSizeOk_pow10f p x), pow10Fn_of_isZero _ _⟩,
    fun r hr => sppFn_bounds _ hr, fun x g hx hg => isFinite_mmseFn _ hx hg, widthFn_odd _,
    fun z => ⟨length_transformFn _ z, length_transformFn _ z, fun hz c hc => ?_, fun hz k hk => ?_⟩, lmsMu_ok p⟩
  · rcases List.mem_append.mp hc with hc | hc
    · exact transformFn_zeros _ hz c hc
    · exact transformFn_zeros _ hz c hc
  · have hfin : finiteVector z = true := by simpa [finiteVector] using hz
    exact ⟨transformFn_within p false hfin hk, transformFn_within p true hfin hk⟩

end Sys2Proof

/-! The rounding of the five operations (O59). Magnitudes first, as natural numbers of units; then the real value rounded; then
signs; then each operation. -/

namespace Sys2Proof

/-! ### The magnitude a pattern of bits 30:0 stands for -/

/-- The magnitude in units of 2^-149 of the bits 30:0 of a finite pattern. -/
def bitsMag (b : Nat) : Nat := if b < 2 ^ 23 then b else (2 ^ 23 + b % 2 ^ 23) * 2 ^ (b / 2 ^ 23 - 1)

theorem fmag_eq_bitsMag (x : F32) : fmag x = bitsMag (fbits x) := fmag_eq x

theorem bitsMag_zero : bitsMag 0 = 0 := rfl

/-- k multiples of the step 2^sh have the exponent bits sh, k counted from there: the fraction's carry included. -/
theorem bitsMag_step {sh k : Nat} (hk : k ≤ 2 ^ 24) (hn : sh = 0 ∨ 2 ^ 23 ≤ k) :
    bitsMag (sh * 2 ^ 23 + k) = k * 2 ^ sh := by
  unfold bitsMag
  by_cases hsub : k < 2 ^ 23
  · obtain rfl : sh = 0 := by omega
    rw [if_pos (by omega)]
    omega
  · rw [if_neg (by omega)]
    by_cases hcarry : k = 2 ^ 24
    · rw [show sh * 2 ^ 23 + k = (sh + 2) * 2 ^ 23 by omega, Nat.mul_mod_left,
        Nat.mul_div_cancel _ (by norm_num), show sh + 2 - 1 = sh + 1 by omega, hcarry, pow_succ 2 sh]
      ring
    · have hmod : (sh * 2 ^ 23 + k) % 2 ^ 23 = k - 2 ^ 23 := by omega
      have hdiv : (sh * 2 ^ 23 + k) / 2 ^ 23 = sh + 1 := by omega
      rw [hmod, hdiv, Nat.add_sub_cancel' (by omega), Nat.add_sub_cancel]

theorem bitsMag_lt_succ (b : Nat) : bitsMag b < bitsMag (b + 1) := by
  by_cases hsub : b < 2 ^ 23
  · have h0 := bitsMag_step (sh := 0) (k := b) (by omega) (.inl rfl)
    have h1 := bitsMag_step (sh := 0) (k := b + 1) (by omega) (.inl rfl)
    simp only [zero_mul, zero_add, pow_zero, mul_one] at h0 h1
    omega
  · obtain ⟨sh, k, hb, hlo, hhi⟩ : ∃ sh k, b = sh * 2 ^ 23 + k ∧ 2 ^ 23 ≤ k ∧ k < 2 ^ 24 :=
      ⟨b / 2 ^ 23 - 1, b - (b / 2 ^ 23 - 1) * 2 ^ 23, by omega, by omega, by omega⟩
    rw [hb, bitsMag_step (by omega) (.inr hlo), add_assoc, bitsMag_step (by omega) (.inr (by omega))]
    exact Nat.mul_lt_mul_of_pos_right (by omega) (by positivity)

theorem bitsMag_strictMono : StrictMono bitsMag := strictMono_nat_of_lt_succ bitsMag_lt_succ

/-! ### The bracket of a value and the choice between its ends -/

/-- Of the ends m and m + 1 of a bracket, counted in steps, the one `roundBits` takes for n steps of u: the nearer, or the even
one where both are as near. -/
def roundStep (n u : Nat) : Nat := if u < 2 * (n % u) ∨ (2 * (n % u) = u ∧ n / u % 2 = 1) then n / u + 1 else n / u

/-- The step `roundBits` keeps: 24 bits of the integer part, or single units (R17). -/
def keptShift (n d : Nat) : Nat := Nat.log2 (n / d) - 23

theorem roundBits_eq_step (n d : Nat) :
    roundBits n d = min (keptShift n d * 2 ^ 23 + roundStep n (d * 2 ^ keptShift n d)) 0x7F800000 := rfl

/-- The lower end of the bracket has 24 bits, or the step is one unit. -/
theorem keptShift_bracket (n : Nat) {d : Nat} :
    n / (d * 2 ^ keptShift n d) < 2 ^ 24 ∧ (keptShift n d = 0 ∨ 2 ^ 23 ≤ n / (d * 2 ^ keptShift n d)) := by
  rw [← Nat.div_div_eq_div_mul]
  unfold keptShift
  constructor
  · rw [Nat.div_lt_iff_lt_mul (by positivity), ← pow_add]
    exact lt_of_lt_of_le Nat.lt_log2_self (Nat.pow_le_pow_right (by norm_num) (by omega))
  · by_cases hs : Nat.log2 (n / d) - 23 = 0
    · exact .inl hs
    · have h0 : n / d ≠ 0 := fun h => hs (by simp [h])
      rw [Nat.le_div_iff_mul_le (by positivity), ← pow_add]
      exact .inr (le_trans (Nat.pow_le_pow_right (by norm_num) (by omega)) (Nat.log2_self_le h0))

/-- Which end of the bracket is taken, by the midpoint (2m + 1) / 2 of the bracket. -/
theorem roundStep_cases {n u : Nat} (hu : 0 < u) :
    (roundStep n u = n / u ∧ 2 * n ≤ (2 * (n / u) + 1) * u
        ∧ ((2 * (n / u) + 1) * u ≤ 2 * n → roundStep n u % 2 = 0))
      ∨ (roundStep n u = n / u + 1 ∧ (2 * (n / u) + 1) * u ≤ 2 * n
        ∧ (2 * n ≤ (2 * (n / u) + 1) * u → roundStep n u % 2 = 0)) := by
  have hdiv := Nat.div_add_mod n u
  have hmod := Nat.mod_lt n hu
  have hmid : (2 * (n / u) + 1) * u = 2 * (u * (n / u)) + u := by ring
  rw [hmid]
  unfold roundStep
  split_ifs with h
  · right; omega
  · left; omega

/-! ### Rounding a real value -/

/-- The halves of the step 2^sh split x as they split n/d: what rounding compares n/d with, x stands on the same side of. For
x = n/d it is plain; for a root it is what makes its integer part and one sticky bit enough. -/
def SameSide (x : ℝ) (n d sh : Nat) : Prop :=
  ∀ j : Nat, (j * (d * 2 ^ sh) ≤ 2 * n ↔ (j : ℝ) * 2 ^ sh ≤ 2 * x)
    ∧ (2 * n ≤ j * (d * 2 ^ sh) ↔ 2 * x ≤ (j : ℝ) * 2 ^ sh)

theorem sameSide_div (n sh : Nat) {d : Nat} (hd : 0 < d) : SameSide ((n : ℝ) / d) n d sh := by
  have hd' : (0 : ℝ) < d := by exact_mod_cast hd
  intro j
  have hassoc : (j : ℝ) * (d * 2 ^ sh) = j * 2 ^ sh * d := by ring
  rw [← mul_div_assoc, le_div_iff₀ hd', div_le_iff₀ hd', ← hassoc]
  exact ⟨by exact_mod_cast Iff.rfl, by exact_mod_cast Iff.rfl⟩

/-- Bits b round the magnitude x: no bits stand for a nearer value, and b is even where others stand for one as near (R17). -/
def NearestBits (x : ℝ) (b : Nat) : Prop :=
  ∀ c : Nat, |x - bitsMag b| ≤ |x - bitsMag c|
    ∧ (|x - bitsMag b| = |x - bitsMag c| → bitsMag c ≠ bitsMag b → b % 2 = 0)

/-- The lower end b of a bracket [b, b + 1] rounds a value at or below its midpoint. -/
theorem nearestBits_lower {x : ℝ} {b : Nat} (hlo : (bitsMag b : ℝ) ≤ x) (hmid : 2 * x ≤ bitsMag b + bitsMag (b + 1))
    (heven : (bitsMag b + bitsMag (b + 1) : ℝ) ≤ 2 * x → b % 2 = 0) : NearestBits x b := by
  intro c
  rw [abs_of_nonneg (sub_nonneg.mpr hlo)]
  rcases Nat.lt_trichotomy c b with h | rfl | h
  · have hc : (bitsMag c : ℝ) < bitsMag b := by exact_mod_cast bitsMag_strictMono h
    rw [abs_of_nonneg (by linarith)]
    exact ⟨by linarith, fun htie => absurd htie (by linarith)⟩
  · exact ⟨by rw [abs_of_nonneg (sub_nonneg.mpr hlo)], fun _ hne => absurd rfl hne⟩
  · have hc : (bitsMag (b + 1) : ℝ) ≤ bitsMag c := by exact_mod_cast bitsMag_strictMono.monotone h
    have habs := neg_abs_le (x - bitsMag c)
    exact ⟨by linarith, fun htie _ => heven (by linarith)⟩

/-- The upper end b + 1 rounds a value at or above the midpoint. -/
theorem nearestBits_upper {x : ℝ} {b : Nat} (hhi : x ≤ bitsMag (b + 1)) (hmid : (bitsMag b + bitsMag (b + 1) : ℝ) ≤ 2 * x)
    (heven : 2 * x ≤ bitsMag b + bitsMag (b + 1) → (b + 1) % 2 = 0) : NearestBits x (b + 1) := by
  intro c
  rw [abs_of_nonpos (sub_nonpos.mpr hhi)]
  rcases Nat.lt_trichotomy c (b + 1) with h | rfl | h
  · have hc : (bitsMag c : ℝ) ≤ bitsMag b := by exact_mod_cast bitsMag_strictMono.monotone (Nat.le_of_lt_succ h)
    have habs := le_abs_self (x - bitsMag c)
    exact ⟨by linarith, fun htie _ => heven (by linarith)⟩
  · exact ⟨by rw [abs_of_nonpos (sub_nonpos.mpr hhi)], fun _ hne => absurd rfl hne⟩
  · have hc : (bitsMag (b + 1) : ℝ) < bitsMag c := by exact_mod_cast bitsMag_strictMono h
    rw [abs_of_nonpos (by linarith)]
    exact ⟨by linarith, fun htie => absurd htie (by linarith)⟩

/-- The end of the bracket `roundStep` takes rounds every value on the same side of the halves of the step as n/d. -/
theorem nearestBits_roundStep {x : ℝ} {n d sh : Nat} (hd : 0 < d) (hx : SameSide x n d sh)
    (hm : n / (d * 2 ^ sh) < 2 ^ 24) (hnorm : sh = 0 ∨ 2 ^ 23 ≤ n / (d * 2 ^ sh)) :
    NearestBits x (sh * 2 ^ 23 + roundStep n (d * 2 ^ sh)) := by
  have hu : 0 < d * 2 ^ sh := by positivity
  have hcases := roundStep_cases (n := n) hu
  have hle := Nat.div_mul_le_self n (d * 2 ^ sh)
  have hlt := Nat.lt_mul_of_div_lt (Nat.lt_add_one (n / (d * 2 ^ sh))) hu
  generalize n / (d * 2 ^ sh) = m at *
  have hlo : (bitsMag (sh * 2 ^ 23 + m) : ℝ) = m * 2 ^ sh := by
    exact_mod_cast bitsMag_step (by omega) hnorm
  have hup : (bitsMag (sh * 2 ^ 23 + m + 1) : ℝ) = (m + 1) * 2 ^ sh := by
    rw [add_assoc]
    exact_mod_cast bitsMag_step (sh := sh) (k := m + 1) (by omega) (by omega)
  have hbelow := (hx (2 * m)).1.mp (by rw [mul_assoc]; omega)
  have habove := (hx (2 * (m + 1))).2.mp (by rw [mul_assoc]; omega)
  have hmid := hx (2 * m + 1)
  push_cast at hbelow habove hmid
  have hparity : ∀ k, (sh * 2 ^ 23 + k) % 2 = k % 2 := by omega
  rcases hcases with ⟨hr, hhalf, heven⟩ | ⟨hr, hhalf, heven⟩ <;> rw [hr] at heven ⊢
  · refine nearestBits_lower (by linarith) ?_ fun h => ?_
    · rw [hlo, hup]; linarith [hmid.2.mp hhalf]
    · rw [hparity]; exact heven (hmid.1.mpr (by rw [hlo, hup] at h; linarith))
  · rw [← add_assoc]
    refine nearestBits_upper (by rw [hup]; linarith) ?_ fun h => ?_
    · rw [hlo, hup]; linarith [hmid.1.mp hhalf]
    · rw [add_assoc, hparity]; exact heven (hmid.2.mpr (by rw [hlo, hup] at h; linarith))

theorem nearestBits_roundBits {x : ℝ} {n d : Nat} (hd : 0 < d) (hx : SameSide x n d (keptShift n d))
    (hfin : roundBits n d < 0x7F800000) : NearestBits x (roundBits n d) := by
  rw [roundBits_eq_step] at hfin ⊢
  rw [min_eq_left (by omega)]
  obtain ⟨hm, hnorm⟩ := keptShift_bracket n (d := d)
  exact nearestBits_roundStep hd hx hm hnorm

/-! ### Signs -/

/-- r rounds the real number x of units (R17): no finite value is nearer, and r's encoding is even where another is as near. -/
def NearestEven (x : ℝ) (r : F32) : Prop :=
  ∀ c : F32, isFinite c = true → |x - units r| ≤ |x - units c|
    ∧ (|x - units r| = |x - units c| → units c ≠ units r → fbits r % 2 = 0)

/-- A sign as a factor. -/
def signed (neg : Bool) (x : ℝ) : ℝ := if neg then -x else x

theorem abs_signed (neg : Bool) (x : ℝ) : |signed neg x| = |x| := by cases neg <;> simp [signed]

theorem signed_sub (neg : Bool) (x y : ℝ) : signed neg x - signed neg y = signed neg (x - y) := by
  cases neg
  · rfl
  · simp only [signed, if_true]; ring

theorem signed_not (neg : Bool) (x : ℝ) : signed (!neg) x = signed neg (-x) := by cases neg <;> simp [signed]

theorem units_eq_signed (x : F32) : (units x : ℝ) = signed (fsign x) (bitsMag (fbits x)) := by
  unfold units signed
  rw [fmag_eq_bitsMag]
  split_ifs <;> simp

/-- Bits that round a magnitude, under its sign, round the signed value: a value of the other sign is no nearer than zero is. -/
theorem nearestEven_signed {x : ℝ} {r : F32} (hx : 0 ≤ x) (h : NearestBits x (fbits r)) :
    NearestEven (signed (fsign r) x) r := by
  intro c _
  have hr : |signed (fsign r) x - units r| = |x - bitsMag (fbits r)| := by
    rw [units_eq_signed, signed_sub, abs_signed]
  by_cases hs : fsign c = fsign r
  · have hc : |signed (fsign r) x - units c| = |x - bitsMag (fbits c)| := by
      rw [units_eq_signed, hs, signed_sub, abs_signed]
    rw [hr, hc]
    refine ⟨(h (fbits c)).1, fun htie hne => (h (fbits c)).2 htie fun heq => hne ?_⟩
    rw [← Int.cast_inj (α := ℝ), units_eq_signed, units_eq_signed, hs, heq]
  · have hneg : (units c : ℝ) = signed (fsign r) (-bitsMag (fbits c)) := by
      rw [units_eq_signed, Bool.eq_not.mpr hs, signed_not]
    have hc : |signed (fsign r) x - units c| = x + bitsMag (fbits c) := by
      rw [hneg, signed_sub, abs_signed, sub_neg_eq_add, abs_of_nonneg (by positivity)]
    obtain ⟨hzero, heven⟩ := h 0
    rw [bitsMag_zero, Nat.cast_zero, sub_zero, abs_of_nonneg hx] at hzero heven
    have hmag : (0 : ℝ) ≤ bitsMag (fbits c) := Nat.cast_nonneg _
    rw [hr, hc]
    refine ⟨by linarith, fun htie hne => heven (by linarith) fun hb => hne ?_⟩
    have hc0 : (bitsMag (fbits c) : ℝ) = 0 := by linarith
    rw [← Int.cast_inj (α := ℝ), hneg, units_eq_signed, hc0, ← hb]
    simp

/-- `roundF` short of infinity rounds every value on the same side of the halves of the kept step as n/d, under its sign. -/
theorem nearestEven_roundF {x : ℝ} (neg : Bool) {n d : Nat} (hx : 0 ≤ x) (hd : 0 < d)
    (hside : SameSide x n d (keptShift n d)) (hfin : isFinite (roundF false neg n d) = true) :
    NearestEven (signed neg x) (roundF false neg n d) := by
  have hbits : fbits (roundF false neg n d) = roundBits n d := by simp [flushBits]
  rw [isFinite_iff, hbits] at hfin
  have h := nearestEven_signed (r := roundF false neg n d) hx (hbits ▸ nearestBits_roundBits hd hside hfin)
  rwa [fsign_roundF] at h

theorem nearestEven_roundF_div (neg : Bool) (n : Nat) {d : Nat} (hd : 0 < d)
    (hfin : isFinite (roundF false neg n d) = true) :
    NearestEven (signed neg ((n : ℝ) / d)) (roundF false neg n d) :=
  nearestEven_roundF neg (by positivity) hd (sameSide_div n _ hd) hfin

/-- A value that needs no rounding is rounded to itself. -/
theorem nearestEven_units (r : F32) : NearestEven (units r) r := by
  intro c _
  rw [sub_self, abs_zero]
  refine ⟨abs_nonneg _, fun htie hne => absurd ?_ hne⟩
  exact_mod_cast (sub_eq_zero.mp (abs_eq_zero.mp htie.symm)).symm

/-! ### The five operations without FTZ -/

@[simp] theorem operandF_false (x : F32) : operandF false x = x := rfl

theorem units_eq_signed_fmag (x : F32) : (units x : ℝ) = signed (fsign x) (fmag x) := by
  rw [units_eq_signed, fmag_eq_bitsMag]

theorem signed_natAbs (v : Int) : signed (decide (v < 0)) (v.natAbs : ℝ) = v := by
  have hcast : ((v.natAbs : Int) : ℝ) = (v.natAbs : ℝ) := Int.cast_natCast _
  unfold signed
  by_cases hv : v < 0
  · rw [decide_eq_true hv, if_pos rfl, ← hcast, Int.natCast_natAbs, abs_of_neg hv]
    simp
  · rw [decide_eq_false hv, if_neg (by simp), ← hcast, Int.natCast_natAbs, abs_of_nonneg (by omega)]

theorem signed_mul (s t : Bool) (x y : ℝ) : signed s x * signed t y = signed (s != t) (x * y) := by
  cases s <;> cases t <;> simp [signed]

theorem signed_div (s t : Bool) (x y : ℝ) : signed s x / signed t y = signed (s != t) (x / y) := by
  cases s <;> cases t <;> simp [signed, neg_div, div_neg]

theorem units_packF_zero (neg : Bool) : units (packF neg 0) = 0 := by cases neg <;> decide

theorem sumFinite_nearestEven {a b : F32} (hfin : isFinite (sumFinite false a b) = true) :
    NearestEven ((units a : ℝ) + units b) (sumFinite false a b) := by
  unfold sumFinite at hfin ⊢
  rw [← Int.cast_add]
  generalize units a + units b = v at hfin ⊢
  by_cases hv : v = 0
  · have h := nearestEven_units (packF (fsign a && fsign b) 0)
    rw [units_packF_zero] at h
    simpa [hv] using h
  · simp only [hv, if_false] at hfin ⊢
    have h := nearestEven_roundF_div (decide (v < 0)) v.natAbs one_pos hfin
    rwa [Nat.cast_one, div_one, signed_natAbs] at h

/-- What each core gives for finite operands. -/
theorem addCore_finite (e : Env) (op : NanOp) {a b : F32} (ha : isFinite a = true) (hb : isFinite b = true) :
    addCore e op a b = sumFinite e.p.ftz a b := by
  simp [addCore, not_isNaN_of_isFinite ha, not_isNaN_of_isFinite hb, not_isInf_of_isFinite ha, not_isInf_of_isFinite hb]

theorem mulCore_finite (e : Env) {a b : F32} (ha : isFinite a = true) (hb : isFinite b = true) :
    mulCore e a b = roundF e.p.ftz (fsign a != fsign b) (fmag a * fmag b) (2 ^ 149) := by
  simp [mulCore, not_isNaN_of_isFinite ha, not_isNaN_of_isFinite hb, not_isInf_of_isFinite ha, not_isInf_of_isFinite hb]

theorem divCore_finite (e : Env) {a b : F32} (ha : isFinite a = true) (hb : isFinite b = true) (hz : isZero b = false) :
    divCore e a b = roundF e.p.ftz (fsign a != fsign b) (fmag a * 2 ^ 149) (fmag b) := by
  simp [divCore, not_isNaN_of_isFinite ha, not_isNaN_of_isFinite hb, not_isInf_of_isFinite ha, not_isInf_of_isFinite hb, hz]

section
variable {e : Env} {a b : F32}

theorem add_nearestEven (hftz : e.p.ftz = false) (ha : isFinite a = true) (hb : isFinite b = true)
    (hr : isFinite (e.add a b) = true) : NearestEven ((units a : ℝ) + units b) (e.add a b) := by
  have heq : e.add a b = sumFinite false a b := by
    rw [Env.add, hftz, operandF_false, operandF_false, addCore_finite e _ ha hb, hftz]
  rw [heq] at hr ⊢
  exact sumFinite_nearestEven hr

theorem sub_nearestEven (hftz : e.p.ftz = false) (ha : isFinite a = true) (hb : isFinite b = true)
    (hr : isFinite (e.sub a b) = true) : NearestEven ((units a : ℝ) - units b) (e.sub a b) := by
  have heq : e.sub a b = sumFinite false a (fneg b) := by
    rw [Env.sub, hftz, operandF_false, operandF_false, addCore_finite e _ ha (by simpa using hb), hftz]
  rw [heq] at hr ⊢
  simpa [sub_eq_add_neg] using sumFinite_nearestEven hr

theorem mul_nearestEven (hftz : e.p.ftz = false) (ha : isFinite a = true) (hb : isFinite b = true)
    (hr : isFinite (e.mul a b) = true) : NearestEven ((units a : ℝ) * units b / 2 ^ 149) (e.mul a b) := by
  have heq : e.mul a b = roundF false (fsign a != fsign b) (fmag a * fmag b) (2 ^ 149) := by
    rw [Env.mul, hftz, operandF_false, operandF_false, mulCore_finite e ha hb, hftz]
  rw [heq] at hr ⊢
  have h := nearestEven_roundF_div _ _ (by norm_num) hr
  have hscale : (2 : ℝ) ^ 149 = signed false (2 ^ 149) := rfl
  have hx : (units a : ℝ) * units b / 2 ^ 149
      = signed (fsign a != fsign b) ((fmag a * fmag b : Nat) / (2 ^ 149 : Nat)) := by
    rw [units_eq_signed_fmag, units_eq_signed_fmag, signed_mul, hscale, signed_div, Bool.bne_false]
    rw [Nat.cast_mul, Nat.cast_pow, Nat.cast_ofNat]
  rwa [hx]

theorem div_nearestEven (hftz : e.p.ftz = false) (ha : isFinite a = true) (hb : isFinite b = true)
    (hz : isZero b = false) (hr : isFinite (e.div a b) = true) :
    NearestEven ((units a : ℝ) * 2 ^ 149 / units b) (e.div a b) := by
  have heq : e.div a b = roundF false (fsign a != fsign b) (fmag a * 2 ^ 149) (fmag b) := by
    rw [Env.div, hftz, operandF_false, operandF_false, divCore_finite e ha hb hz, hftz]
  rw [heq] at hr ⊢
  have hpos : 0 < fmag b := Nat.pos_of_ne_zero fun h0 => by simp [(fmag_eq_zero_iff b).mp h0] at hz
  have h := nearestEven_roundF_div _ _ hpos hr
  have hscale : (2 : ℝ) ^ 149 = signed false (2 ^ 149) := rfl
  have hx : (units a : ℝ) * 2 ^ 149 / units b
      = signed (fsign a != fsign b) ((fmag a * 2 ^ 149 : Nat) / (fmag b : Nat)) := by
    rw [units_eq_signed_fmag, units_eq_signed_fmag, hscale, signed_mul, signed_div, Bool.bne_false]
    rw [Nat.cast_mul, Nat.cast_pow, Nat.cast_ofNat]
  rwa [hx]

end

/-! ### The square root -/

/-- Every bit still to be tried keeps the root between r and r + 2^k. -/
theorem isqrtBits_eq_sqrt (n k r : Nat) (hlo : r * r ≤ n) (hhi : n < (r + 2 ^ k) * (r + 2 ^ k)) :
    isqrtBits n k r = Nat.sqrt n := by
  induction k generalizing r with
  | zero => exact Nat.eq_sqrt.mpr ⟨hlo, by simpa [isqrtBits] using hhi⟩
  | succ k ih =>
    rw [isqrtBits]
    split_ifs with h
    · exact ih _ h (by rwa [add_assoc, ← two_mul, ← pow_succ'])
    · exact ih _ hlo (by omega)

theorem isqrt_eq_sqrt (n : Nat) : isqrt n = Nat.sqrt n := by
  refine isqrtBits_eq_sqrt n _ 0 (by simp) ?_
  rw [zero_add, ← pow_add]
  exact lt_of_lt_of_le Nat.lt_log2_self (Nat.pow_le_pow_right (by norm_num) (by omega))

/-- The root in half units as `sqrtCore` narrows it: the integer part, and one sticky bit where it is not exact. -/
def stickyRoot (n : Nat) : Nat := 2 * Nat.sqrt n + (if Nat.sqrt n * Nat.sqrt n = n then 0 else 1)

/-- Against an integer the sticky root compares as the root does. -/
theorem le_stickyRoot_iff (n k : Nat) : 2 * k ≤ stickyRoot n ↔ k * k ≤ n := by
  rw [← Nat.le_sqrt]
  unfold stickyRoot
  split_ifs <;> omega

theorem stickyRoot_le_iff (n k : Nat) : stickyRoot n ≤ 2 * k ↔ n ≤ k * k := by
  unfold stickyRoot
  split_ifs with hexact
  · conv_rhs => rw [← hexact]
    rw [Nat.mul_self_le_mul_self_iff]
    omega
  · have hne : n ≠ k * k := fun h => hexact (by rw [h, Nat.sqrt_eq])
    have hlt := Nat.sqrt_lt (m := n) (n := k)
    omega

theorem sameSide_sqrt (n : Nat) {sh : Nat} (hsh : 1 ≤ sh) : SameSide (Real.sqrt n) (stickyRoot n) 2 sh := by
  intro j
  obtain ⟨t, rfl⟩ : ∃ t, sh = t + 1 := ⟨sh - 1, by omega⟩
  have hnat : j * (2 * 2 ^ (t + 1)) = 2 * (2 * (j * 2 ^ t)) := by ring
  have hreal : (j : ℝ) * 2 ^ (t + 1) = 2 * ((j * 2 ^ t : Nat) : ℝ) := by push_cast; ring
  have hpos : (0 : ℝ) < 2 := by norm_num
  rw [hnat, hreal, mul_le_mul_iff_right₀ hpos, mul_le_mul_iff_right₀ hpos, Nat.mul_le_mul_left_iff (by norm_num),
    Nat.mul_le_mul_left_iff (by norm_num), le_stickyRoot_iff, stickyRoot_le_iff,
    Real.le_sqrt (Nat.cast_nonneg _) (Nat.cast_nonneg _), Real.sqrt_le_left (Nat.cast_nonneg _)]
  exact ⟨by rw [sq]; exact_mod_cast Iff.rfl, by rw [sq]; exact_mod_cast Iff.rfl⟩

/-- The kept step of a root is far above one unit, since the operand is at least 2^149 units squared. -/
theorem one_le_keptShift_stickyRoot {m : Nat} (hm : m ≠ 0) : 1 ≤ keptShift (stickyRoot (m * 2 ^ 149)) 2 := by
  have hroot : 2 ^ 74 ≤ Nat.sqrt (m * 2 ^ 149) := Nat.le_sqrt.mpr (by omega)
  have hhalf : 2 ^ 74 ≤ stickyRoot (m * 2 ^ 149) / 2 := by unfold stickyRoot; omega
  have hlog : 74 ≤ Nat.log2 (stickyRoot (m * 2 ^ 149) / 2) := (Nat.le_log2 (by omega)).mpr hhalf
  unfold keptShift
  omega

theorem sqrtCore_of_pos (e : Env) {a : F32} (ha : isFinite a = true) (hz : isZero a = false) (hs : fsign a = false) :
    sqrtCore e a = roundF e.p.ftz false (stickyRoot (fmag a * 2 ^ 149)) 2 := by
  simp only [sqrtCore, not_isNaN_of_isFinite ha, hz, hs, not_isInf_of_isFinite ha, Bool.false_eq_true, if_false,
    isqrt_eq_sqrt]
  rfl

theorem sqrt_nearestEven {e : Env} {a : F32} (hftz : e.p.ftz = false) (ha : isFinite a = true)
    (hr : isFinite (e.sqrt a) = true) : NearestEven (Real.sqrt ((units a : ℝ) * 2 ^ 149)) (e.sqrt a) := by
  have heq : e.sqrt a = sqrtCore e a := by rw [Env.sqrt, hftz, operandF_false]
  rw [heq] at hr ⊢
  cases hz : isZero a with
  | true =>
    have hself : sqrtCore e a = a := by simp [sqrtCore, not_isNaN_of_isFinite ha, hz]
    have hzero : units a = 0 := by rw [← Int.natAbs_eq_zero, natAbs_units, fmag_eq_zero_iff, hz]
    simpa [hself, hzero] using nearestEven_units a
  | false =>
    have hs : fsign a = false := by
      by_contra hs
      rw [Bool.not_eq_false] at hs
      have hnan : isNaN (sqrtCore e a) = true := by
        simp [sqrtCore, not_isNaN_of_isFinite ha, hz, hs, isNaN_nanF]
      simp [not_isNaN_of_isFinite hr] at hnan
    have hm : fmag a ≠ 0 := fun h => by simp [(fmag_eq_zero_iff a).mp h] at hz
    rw [sqrtCore_of_pos e ha hz hs, hftz] at hr ⊢
    have h := nearestEven_roundF false (Real.sqrt_nonneg _) two_pos
      (sameSide_sqrt (fmag a * 2 ^ 149) (one_le_keptShift_stickyRoot hm)) hr
    have hx : (units a : ℝ) * 2 ^ 149 = ((fmag a * 2 ^ 149 : Nat) : ℝ) := by
      rw [units_eq_signed_fmag, hs, Nat.cast_mul, Nat.cast_pow, Nat.cast_ofNat]
      rfl
    rwa [hx]

/-! ### FTZ as flushing around the operations -/

/-- The same arithmetic without FTZ. -/
def Env.noFtz (e : Env) : Env := { p := { e.p with ftz := false }, f := e.f }

theorem operandF_true_of_isInf {x : F32} (h : isInf x = true) : operandF true x = x := by
  have hs : isSubnormal x = false := by
    simp only [isInf, isSubnormal, Bool.and_eq_true, beq_iff_eq] at h ⊢
    simp [h.1]
  simp [operandF, hs]

theorem operandF_true_infF (neg : Bool) : operandF true (infF neg) = infF neg := operandF_true_of_isInf (isInf_infF neg)

theorem operandF_true_zero (neg : Bool) : operandF true (packF neg 0) = packF neg 0 := by cases neg <;> decide

theorem operandF_true_nanF (f : Fns) (op : NanOp) (a b : F32) : operandF true (nanF f op a b) = nanF f op a b :=
  operandF_nan true (isNaN_nanF f op a b)

/-- A subnormal has magnitude bits below the smallest exponent, and not 0. -/
theorem isSubnormal_iff (x : F32) : isSubnormal x = true ↔ fbits x < 2 ^ 23 ∧ fbits x ≠ 0 := by
  have := fbits_lt x
  simp only [isSubnormal, fexp_eq, ffrac_eq, Bool.and_eq_true, beq_iff_eq, bne_iff_ne]
  omega

/-- Flushing a pattern flushes its magnitude bits and keeps its sign. -/
theorem operandF_true_packF (neg : Bool) {b : Nat} (hb : b < 2 ^ 31) :
    operandF true (packF neg b) = packF neg (flushBits true b) := by
  by_cases h0 : b = 0
  · subst h0
    exact operandF_true_zero neg
  · have hsub : isSubnormal (packF neg b) = decide (b < 2 ^ 23) := by
      rw [Bool.eq_iff_iff, isSubnormal_iff, fbits_packF neg hb, decide_eq_true_iff, and_iff_left h0]
    unfold operandF flushBits
    rw [hsub, fsign_packF neg hb]
    split_ifs <;> rfl

/-- A result narrowed under FTZ is the one narrowed without it, flushed (log 6). -/
theorem roundF_true (neg : Bool) (n d : Nat) : roundF true neg n d = operandF true (roundF false neg n d) := by
  have hraw : roundF false neg n d = packF neg (roundBits n d) := by simp [roundF, flushBits]
  rw [hraw, operandF_true_packF neg (lt_of_le_of_lt (roundBits_le n d) (by norm_num)), roundF]

theorem sumFinite_true (a b : F32) : sumFinite true a b = operandF true (sumFinite false a b) := by
  simp only [sumFinite]
  split_ifs
  · exact (operandF_true_zero _).symm
  · exact roundF_true _ _ _

section
variable {e : Env} (hftz : e.p.ftz = true)
include hftz

theorem addCore_ftz (op : NanOp) (a b : F32) : addCore e op a b = operandF true (addCore e.noFtz op a b) := by
  unfold addCore
  rw [hftz]
  split_ifs with hnan hinf hopp hinf'
  · exact (operandF_true_nanF _ _ _ _).symm
  · exact (operandF_true_nanF _ _ _ _).symm
  · exact (operandF_true_of_isInf hinf).symm
  · exact (operandF_true_of_isInf hinf').symm
  · exact sumFinite_true a b

theorem mulCore_ftz (a b : F32) : mulCore e a b = operandF true (mulCore e.noFtz a b) := by
  unfold mulCore
  rw [hftz]
  split_ifs
  · exact (operandF_true_nanF _ _ _ _).symm
  · exact (operandF_true_nanF _ _ _ _).symm
  · exact (operandF_true_infF _).symm
  · exact (operandF_true_nanF _ _ _ _).symm
  · exact (operandF_true_infF _).symm
  · exact roundF_true _ _ _

theorem divCore_ftz (a b : F32) : divCore e a b = operandF true (divCore e.noFtz a b) := by
  unfold divCore
  rw [hftz]
  split_ifs
  · exact (operandF_true_nanF _ _ _ _).symm
  · exact (operandF_true_nanF _ _ _ _).symm
  · exact (operandF_true_infF _).symm
  · exact (operandF_true_zero _).symm
  · exact (operandF_true_nanF _ _ _ _).symm
  · exact (operandF_true_infF _).symm
  · exact roundF_true _ _ _

theorem sqrtCore_ftz (a : F32) : sqrtCore e a = operandF true (sqrtCore e.noFtz a) := by
  unfold sqrtCore
  rw [hftz]
  split_ifs with hnan hzero hneg hinf
  · exact (operandF_true_nanF _ _ _ _).symm
  · have hs : ¬isSubnormal a = true := fun h => ((isSubnormal_iff a).mp h).2 ((isZero_iff a).mp hzero)
    simp [operandF, hs]
  · exact (operandF_true_nanF _ _ _ _).symm
  · exact (operandF_true_of_isInf hinf).symm
  · exact roundF_true _ _ _

/-- Log 6: every operation flushes its operands and its result, a comparison its operands. -/
theorem operations_ftz (a b : F32) :
    e.add a b = operandF true (e.noFtz.add (operandF true a) (operandF true b))
      ∧ e.sub a b = operandF true (e.noFtz.sub (operandF true a) (operandF true b))
      ∧ e.mul a b = operandF true (e.noFtz.mul (operandF true a) (operandF true b))
      ∧ e.div a b = operandF true (e.noFtz.div (operandF true a) (operandF true b))
      ∧ e.sqrt a = operandF true (e.noFtz.sqrt (operandF true a))
      ∧ e.lt a b = e.noFtz.lt (operandF true a) (operandF true b)
      ∧ e.le a b = e.noFtz.le (operandF true a) (operandF true b) := by
  unfold Env.add Env.sub Env.mul Env.div Env.sqrt Env.lt Env.le
  rw [hftz]
  exact ⟨addCore_ftz hftz _ _ _, addCore_ftz hftz _ _ _, mulCore_ftz hftz _ _, divCore_ftz hftz _ _, sqrtCore_ftz hftz _,
    rfl, rfl⟩

end

/-! ### The obligation -/

/-- Rounding a ratio N/D, said of integers: both sides scaled by D. -/
theorem NearestEven.scaled {x : ℝ} {r : F32} (h : NearestEven x r) {N D : Int} (hD : D ≠ 0) (hx : x = N / D) {c : F32}
    (hc : isFinite c = true) :
    |N - units r * D| ≤ |N - units c * D|
      ∧ (|N - units r * D| = |N - units c * D| → units c ≠ units r → fbits r % 2 = 0) := by
  have hD' : (D : ℝ) ≠ 0 := by exact_mod_cast hD
  have hpos : (0 : ℝ) < |(D : ℝ)| := abs_pos.mpr hD'
  have hscale : ∀ u : Int, ((|N - u * D| : Int) : ℝ) = |x - u| * |(D : ℝ)| := fun u => by
    rw [← abs_mul, sub_mul, hx, div_mul_cancel₀ _ hD']
    push_cast
    rfl
  obtain ⟨hle, htie⟩ := h c hc
  constructor
  · rw [← Int.cast_le (R := ℝ), hscale, hscale]
    exact mul_le_mul_of_nonneg_right hle hpos.le
  · intro heq
    rw [← Int.cast_inj (α := ℝ), hscale, hscale] at heq
    exact htie (mul_right_cancel₀ hpos.ne' heq)

/-- Settles O59: each result is a bracket's nearer end, the even one at the midpoint; FTZ flushes around it. -/
theorem arithmeticRoundsToNearestEven : Obligations.ArithmeticRoundsToNearestEven := by
  refine ⟨fun e a b c hftz ha hb hc => ⟨fun hr => ?_, fun hr => ?_, fun hr => ?_, fun hr hz => ?_, fun hr => ?_⟩,
    fun e a b hftz => operations_ftz hftz a b⟩
  · simpa using (add_nearestEven hftz ha hb hr).scaled (N := units a + units b) one_ne_zero (by simp) hc
  · simpa using (sub_nearestEven hftz ha hb hr).scaled (N := units a - units b) one_ne_zero (by simp) hc
  · exact (mul_nearestEven hftz ha hb hr).scaled (by norm_num) (by rw [Int.cast_mul, Int.cast_pow, Int.cast_ofNat]) hc
  · have hb0 : units b ≠ 0 := by rw [← Int.natAbs_ne_zero, natAbs_units, Ne, fmag_eq_zero_iff, hz]; simp
    exact (div_nearestEven hftz ha hb hz hr).scaled hb0 (by rw [Int.cast_mul, Int.cast_pow, Int.cast_ofNat]) hc
  · exact sqrt_nearestEven hftz ha hr c hc

end Sys2Proof

/-! What a command that completes leaves, said once for every claim about commands (O19, O43, O55, O57). -/

namespace Sys2Proof.Machine

/-- The block after the active mode's engine (R132). -/
def modeResult (s : State) : BlockResult State := runMode s (foldBlock s.env s.left s.right)

/-- The block after the notch (R132). -/
def notchResult (s : State) : BlockResult State := runNotch (modeResult s).st (modeResult s).out

/-- The states a command can end in: a failure, or the one success of its kind. PROCESS succeeds in two ways: it passes the
block on untouched, or it runs the engines on it. -/
inductive CommandEffect (s : State) : Instr → State → Prop
  | failed (i : Instr) (c : ErrCode) : CommandEffect s i (s.fail c)
  | nop : CommandEffect s .nop s.done
  | committed {i : Instr} (h : List F32) (n : Nat) (hi : DesignCommand i) : CommandEffect s i (s.commit h n)
  | measured : CommandEffect s .gainQuery { s with gain := corr s.env s.taps s.snap.args.gfreq }.done
  | scaled : CommandEffect s .gainScale
      { s with mem := quantizeMem s.env (Memory.writeWords s.mem hcoefBase (scaledTaps s)) }.done
  | activated {code : Nat} {m : Mode} (hm : modeOf code = some m) : CommandEffect s (.modeSelect code) (s.activate m).done
  | notchOff : CommandEffect s .notchOff { s with notchEn := false }.done
  | notchOn : CommandEffect s .notchOn { s with anrNotch := anrInit s.env s.snap.tune, notchEn := true }.done
  | passed : CommandEffect s .process s.finishMode
  | processed (hb : s.mode ≠ .bypass) :
      CommandEffect s .process ((notchResult s).st.mirror (notchResult s).out).finishMode

theorem CommandEffect.of_next {s t u : State} {i : Instr}
    (h : (Host.Outcome.next u : Host.Outcome State Fault Refusal) = .next t) (hu : CommandEffect s i u) :
    CommandEffect s i t :=
  Host.Outcome.next.inj h ▸ hu

theorem commandEffect_design (s : State) {i : Instr} (hi : DesignCommand i) (check : Option ErrCode) (h : List F32)
    (n : Nat) : CommandEffect s i (s.design check h n) := by
  rcases design_cases s check h n with ⟨c, -, hd⟩ | ⟨-, hd⟩ <;> rw [hd]
  · exact .failed i c
  · exact .committed h n hi

/-- GAIN.QUERY fails with a code other than OK, or writes the magnitude (R83). -/
theorem execGainQuery_cases (s : State) :
    (∃ c, c ≠ .ok ∧ execGainQuery s = .next (s.fail c))
      ∨ execGainQuery s = .next { s with gain := corr s.env s.taps s.snap.args.gfreq }.done := by
  unfold execGainQuery checkQuery
  cases s.hLen == 0 with
  | true => exact .inl ⟨.range, by simp, rfl⟩
  | false =>
    rw [failIf_false, firstErr_cons_none, firstErr_cons]
    generalize (!isFinite s.snap.args.gfreq || s.env.lt s.snap.args.gfreq fzero || s.env.lt fhalf s.snap.args.gfreq) = bad
    cases bad with
    | true => exact .inl ⟨.range, by simp, rfl⟩
    | false =>
      simp only [failIf_false, firstErr_nil]
      split_ifs
      · exact .inr rfl
      · exact .inl ⟨.range, by simp, rfl⟩

theorem commandEffect_execGainQuery {s t : State} (h : execGainQuery s = .next t) : CommandEffect s .gainQuery t := by
  rcases execGainQuery_cases s with ⟨c, -, he⟩ | he <;> rw [he] at h
  · exact .of_next h (.failed _ c)
  · exact .of_next h .measured

theorem commandEffect_execGainScale {s t : State} (h : execGainScale s = .next t) : CommandEffect s .gainScale t := by
  rcases execGainScale_eq s with ⟨c, -, he⟩ | ⟨-, -, he⟩ | ⟨-, -, he⟩ <;> rw [he] at h
  · exact .of_next h (.failed _ c)
  · exact .of_next h (.failed _ _)
  · exact .of_next h .scaled

theorem commandEffect_execModeSelect {s t : State} {code : Nat} (h : execModeSelect code s = .next t) :
    CommandEffect s (.modeSelect code) t := by
  unfold execModeSelect at h
  split at h
  · exact .of_next h (.failed _ _)
  case _ m hm => exact .of_next h (.activated hm)

theorem commandEffect_execProcess {s t : State} (h : execProcess s = .next t) : CommandEffect s .process t := by
  rcases execProcess_cases s with ⟨-, he⟩ | ⟨-, -, he⟩ | ⟨-, -, hm, he⟩ | ⟨-, -, -, -, -, he⟩ | ⟨-, -, hb, -, he⟩ <;>
    rw [he] at h
  · cases h
  · exact .of_next h (.failed _ _)
  · have hdone : s.done = s.finishMode := by rw [State.finishMode, hm]; rfl
    exact .of_next h (hdone ▸ .passed)
  · exact .of_next h .passed
  · rcases processBlock_cases s with ⟨-, -, -, hp⟩ | ⟨-, hp⟩ <;> rw [hp] at h
    · exact .of_next h (.processed hb)
    · cases h

/-- Every command that completes ends in one of these states. -/
theorem commandEffect_exec {i : Instr} {s t : State} (h : exec i s = .next t) : CommandEffect s i t := by
  cases i with
  | nop => exact .of_next h .nop
  | wsfirLp | wsfirHp | wsfirBp | wsfirBs => exact .of_next h (commandEffect_design s (by trivial) _ _ _)
  | kaiserLp | kaiserHp | kaiserBp | kaiserBs | kaiserHilbert =>
    exact .of_next h (commandEffect_design s (by trivial) _ _ _)
  | gainQuery => exact commandEffect_execGainQuery h
  | gainScale => exact commandEffect_execGainScale h
  | modeSelect => exact commandEffect_execModeSelect h
  | notchOff => exact .of_next h .notchOff
  | notchOn => exact .of_next h .notchOn
  | process => exact commandEffect_execProcess h

/-- A command reads the parameters, the tuning registers and the snapshot, and writes none of them (R54). -/
theorem CommandEffect.keeps_config {s t : State} {i : Instr} (h : CommandEffect s i t) :
    t.cfg = s.cfg ∧ t.tune = s.tune ∧ t.snap = s.snap := by
  cases h with
  | failed | nop | committed | measured | scaled | notchOff | notchOn | passed => exact ⟨rfl, rfl, rfl⟩
  | activated => simp
  | processed => simp [notchResult, modeResult]

/-- No command but GAIN.QUERY writes GAIN (R29). -/
theorem CommandEffect.keeps_gain {s t : State} {i : Instr} (h : CommandEffect s i t) (hi : i ≠ .gainQuery) :
    t.gain = s.gain := by
  cases h with
  | measured => exact absurd rfl hi
  | failed | nop | committed | scaled | notchOff | notchOn | passed => rfl
  | activated => simp
  | processed => simp [notchResult, modeResult]

/-! ### Retained engines (O43) -/

/-- The code that selects a mode is the mode's own (R123). -/
theorem eq_modeCode_of_modeOf {code : Nat} {m : Mode} (h : modeOf code = some m) : code = modeCode m := by
  unfold modeOf at h
  split at h <;> cases h <;> rfl

/-- A MODE.SELECT other than that of a mode activates another mode. -/
theorem ne_of_modeSelect_ne {code : Nat} {m other : Mode} (hm : modeOf code = some m)
    (h : Instr.modeSelect code ≠ .modeSelect (modeCode other)) : m ≠ other := by
  rintro rfl
  exact h (congrArg _ (eq_modeCode_of_modeOf hm))

/-- Settles O43: of the effects a command can have, only the activation of a mode, NOTCH.ON and the engines inside PROCESS
write engine state. -/
theorem inactiveEnginesAreRetained : Obligations.InactiveEnginesAreRetained := by
  intro i s t h
  cases commandEffect_exec h with
  | failed | nop | committed | measured | scaled | notchOff | passed =>
    exact ⟨fun _ _ => rfl, fun _ _ => rfl, fun _ _ => rfl, fun _ _ => rfl, fun _ _ => rfl⟩
  | notchOn => exact ⟨fun _ _ => rfl, fun _ _ => rfl, fun _ _ => rfl, fun _ _ => rfl, fun hi _ => absurd rfl hi⟩
  | activated hm =>
    exact ⟨fun hi _ => activate_lms_of_ne s _ (ne_of_modeSelect_ne (other := .lms) hm hi),
      fun hi _ => activate_kim_of_ne s _ (ne_of_modeSelect_ne (other := .kim) hm hi),
      fun hi _ => activate_mmse_of_ne s _ (ne_of_modeSelect_ne (other := .mmse) hm hi),
      fun hi _ => activate_anrNr_of_ne s _ (ne_of_modeSelect_ne (other := .anr) hm hi),
      fun _ _ => activate_anrNotch s _⟩
  | processed hb =>
    simp only [finishMode_lms, finishMode_kim, finishMode_mmse, finishMode_anrNr, finishMode_anrNotch, mirror_lms,
      mirror_kim, mirror_mmse, mirror_anrNr, mirror_anrNotch, notchResult, runNotch_lms, runNotch_kim, runNotch_mmse,
      runNotch_anrNr]
    refine ⟨fun _ hm => runMode_lms_of_ne s _ fun h => hm ⟨trivial, h⟩, fun _ hm => runMode_kim_of_ne s _ fun h => hm ⟨trivial, h⟩,
      fun _ hm => runMode_mmse_of_ne s _ fun h => hm ⟨trivial, h⟩, fun _ hm => runMode_anrNr_of_ne s _ fun h => hm ⟨trivial, h⟩,
      fun _ hn => ?_⟩
    have hoff : s.notchEn = false := by simpa [hb] using hn
    rw [runNotch_anrNotch_of_off _ _ (by simpa [modeResult] using hoff), modeResult, runMode_anrNotch]

end Sys2Proof.Machine

/-! What a legal parameter set says, part by part (00_scope.md R8 to R12), and the legal values of the tuning registers under
a step (O55). -/

namespace Sys2Proof

/-! ### The parts of a legal parameter set -/

theorem Params.sizes_of_wf {p : Params} (h : p.wf = true) : 2 ≤ p.blk ∧ p.blk ≤ 1024 ∧ 1 ≤ p.nmax ∧ p.nmax ≤ 4096 := by
  simp only [Params.wf, sizesOk, Bool.and_eq_true, decide_eq_true_eq] at h
  omega

theorem Params.lms_of_wf {p : Params} (h : p.wf = true) :
    1 ≤ p.lmsTaps ∧ p.sMin ≤ p.sMax ∧ -(2 ^ 31) ≤ p.sMin ∧ p.sMax < 2 ^ 31 := by
  simp only [Params.wf, lmsOk, Bool.and_eq_true, decide_eq_true_eq] at h
  omega

theorem Params.anr_of_wf {p : Params} (h : p.wf = true) :
    1 ≤ p.anrTapsMax ∧ 1 ≤ p.anrDelayMax ∧ p.anrTapsMax + p.anrDelayMax ≤ p.anrDl ∧ p.anrDl < 2 ^ 32 := by
  simp only [Params.wf, anrOk, Bool.and_eq_true, decide_eq_true_eq] at h
  omega

theorem Params.spectral_of_wf {p : Params} (h : p.wf = true) : 1 ≤ p.kimL ∧ 1 ≤ p.kimN := by
  simp only [Params.wf, spectralOk, Bool.and_eq_true, decide_eq_true_eq] at h
  omega

/-- Two finite values that bound a range. -/
def FiniteRange (lo hi : F32) : Prop := isFinite lo = true ∧ isFinite hi = true ∧ ordKey lo ≤ ordKey hi

theorem leF_iff_of_isFinite {a b : F32} (ha : isFinite a = true) (hb : isFinite b = true) :
    leF a b = true ↔ ordKey a ≤ ordKey b := by
  simp [leF, not_isNaN_of_isFinite ha, not_isNaN_of_isFinite hb]

theorem finiteRange_of_rangeF {lo hi : F32} (h : rangeF lo hi = true) : FiniteRange lo hi := by
  simp only [rangeF, Bool.and_eq_true] at h
  obtain ⟨⟨⟨hlo, hhi⟩, -⟩, hle⟩ := h
  exact ⟨hlo, hhi, (leF_iff_of_isFinite hlo hhi).mp hle⟩

/-- A parameter that is above zero once flushed is above zero. -/
theorem finiteRange_of_posF {p : Params} {hi : F32} (h : posF p hi = true) : FiniteRange fzero hi := by
  simp only [posF, Bool.and_eq_true] at h
  obtain ⟨hfin, hpos⟩ := h
  obtain ⟨-, hkey⟩ := (ltF_fzero_iff _).mp hpos
  refine ⟨by decide, hfin, ?_⟩
  rcases operandF_eq_self_or_zero p.ftz hi with heq | hzero
  · rw [ordKey_fzero, ← heq]; exact hkey.le
  · exact absurd (ordKey_of_isZero hzero) hkey.ne'

theorem Params.ranges_of_wf {p : Params} (h : p.wf = true) :
    FiniteRange fzero p.kMax ∧ FiniteRange p.psiMin p.psiMax ∧ FiniteRange fzero p.muAMax
      ∧ FiniteRange p.lidxLo p.lidxHi := by
  simp only [Params.wf, anrOk, spectralOk, Bool.and_eq_true] at h
  refine ⟨finiteRange_of_posF (p := p) ?_, finiteRange_of_rangeF ?_, finiteRange_of_posF (p := p) ?_,
    finiteRange_of_rangeF ?_⟩ <;> tauto

theorem Params.legalTune_rst {p : Params} (h : p.wf = true) : legalTune p p.rst = true := by
  simp only [Params.wf, platformOk, Bool.and_eq_true] at h
  exact h.2.2

/-! ### legal(w) is legal (10_state.md R32, R33) -/

theorem legalF_iff (lo hi v : F32) : legalF lo hi v = true ↔
    isFinite v = true ∧ leF lo v = true ∧ leF v hi = true ∧ ¬(lo = fzero ∧ v = 0x80000000) := by
  simp [legalF, and_assoc, imp_iff_not_or]

theorem legalU_iff (lo hi : Nat) (v : Word) : legalU lo hi v = true ↔ lo ≤ v.toNat ∧ v.toNat ≤ hi := by
  simp [legalU]

/-- The clamp of a finite value into a range is a finite value of the range (R20). -/
theorem clamp_mem_range (e : Env) {x lo hi : F32} (hr : FiniteRange lo hi) (hx : isFinite x = true) :
    isFinite (e.clamp x lo hi) = true ∧ leF lo (e.clamp x lo hi) = true ∧ leF (e.clamp x lo hi) hi = true := by
  obtain ⟨hlo, hhi, hle⟩ := hr
  have hmax : isFinite (e.max x lo) = true := by
    rcases e.max_mem (not_isNaN_of_isFinite hx) (not_isNaN_of_isFinite hlo) with h | h <;> rw [h] <;> assumption
  have hfin : isFinite (e.clamp x lo hi) = true := by
    unfold Env.clamp
    rcases e.min_mem (not_isNaN_of_isFinite hmax) (not_isNaN_of_isFinite hhi) with h | h <;> rw [h] <;> assumption
  obtain ⟨-, hl, hu⟩ := e.clamp_bounds x (not_isNaN_of_isFinite hlo) (not_isNaN_of_isFinite hhi) hle
  exact ⟨hfin, (leF_iff_of_isFinite hlo hfin).mpr hl, (leF_iff_of_isFinite hfin hhi).mpr hu⟩

theorem legalF_fzero {hi : F32} (hr : FiniteRange fzero hi) : legalF fzero hi fzero = true :=
  (legalF_iff _ _ _).mpr ⟨by decide, by decide, (leF_iff_of_isFinite (by decide) hr.2.1).mpr hr.2.2, by decide⟩

end Sys2Proof

namespace Sys2Proof.Machine

theorem legalF_legalizeF (e : Env) {lo hi old : F32} (w : F32) (hr : FiniteRange lo hi) (hold : legalF lo hi old = true) :
    legalF lo hi (legalizeF e lo hi old w) = true := by
  unfold legalizeF
  split_ifs with hfin hzero
  · exact hold
  · simp only [Bool.and_eq_true, beq_iff_eq] at hzero
    obtain ⟨rfl, -⟩ := hzero
    exact legalF_fzero hr
  · obtain ⟨hc, hl, hu⟩ := clamp_mem_range e hr (x := w) (by simpa using hfin)
    exact (legalF_iff _ _ _).mpr ⟨hc, hl, hu, by simpa using hzero⟩

theorem toNat_legalizeU {lo hi : Nat} (w : Word) (hhi : hi < 2 ^ 32) :
    (legalizeU lo hi w).toNat = min (max w.toNat lo) hi := by
  rw [legalizeU, BitVec.toNat_ofNat, Nat.mod_eq_of_lt (by omega)]

theorem toInt_legalizeS {lo hi : Int} (w : Word) (hle : lo ≤ hi) (hlo : -(2 ^ 31) ≤ lo) (hhi : hi < 2 ^ 31) :
    (legalizeS lo hi w).toInt = min (max w.toInt lo) hi := by
  rw [legalizeS, clampInt, BitVec.toInt_ofInt, Int.bmod_eq_of_le (by omega) (by omega)]

theorem toNat_legalize_kimRef (e : Env) (old w : Word) : (legalize e .kimRef old w).toNat = w.toNat % 2 := by
  rw [legalize, BitVec.toNat_ofNat]
  omega

/-- The legal values of one tuning register (R32). -/
def legalReg (p : Params) : TuneReg → Word → Bool
  | .lmsStrength, v => decide (p.sMin ≤ v.toInt) && decide (v.toInt ≤ p.sMax)
  | .kimK, v => legalF fzero p.kMax v
  | .kimPsi, v => legalF p.psiMin p.psiMax v
  | .kimRef, v => decide (v.toNat ≤ 1)
  | .alpha, v => legalF fzero fone v
  | .beta, v => legalF fzero fhalf v
  | .anrTaps, v => legalU 1 p.anrTapsMax v
  | .anrDelay, v => legalU 1 p.anrDelayMax v
  | .anrMu, v => legalF fzero p.muAMax v
  | .anrLidxMin, v => legalF p.lidxLo p.lidxHi v
  | .anrLidxMax, v => legalF p.lidxLo p.lidxHi v

/-- The tuning registers are legal exactly if each is. -/
theorem legalTune_iff (p : Params) (t : TuneRegs) :
    legalTune p t = true ↔ ∀ r, legalReg p r (tuneGet t r) = true := by
  constructor
  · intro h r
    simp only [legalTune, Bool.and_eq_true] at h
    obtain ⟨⟨⟨⟨⟨⟨⟨⟨⟨⟨hs, hk⟩, hpsi⟩, href⟩, halpha⟩, hbeta⟩, htaps⟩, hdelay⟩, hmu⟩, hmin⟩, hmax⟩ := h
    cases r with
    | lmsStrength => exact Bool.and_eq_true_iff.mpr hs
    | _ => assumption
  · intro h
    have hs := h .lmsStrength
    simp only [legalReg, Bool.and_eq_true] at hs
    simp only [legalTune, Bool.and_eq_true]
    exact ⟨⟨⟨⟨⟨⟨⟨⟨⟨⟨hs, h .kimK⟩, h .kimPsi⟩, h .kimRef⟩, h .alpha⟩, h .beta⟩, h .anrTaps⟩, h .anrDelay⟩, h .anrMu⟩,
      h .anrLidxMin⟩, h .anrLidxMax⟩

theorem tuneGet_tuneSet (t : TuneRegs) (r r' : TuneReg) (v : Word) :
    tuneGet (tuneSet t r v) r' = if r' = r then v else tuneGet t r' := by
  cases r <;> cases r' <;> rfl

/-- With legal parameters, what a write stores is legal, whatever the word (R33). -/
theorem legalReg_legalize {e : Env} (hp : e.p.wf = true) (r : TuneReg) {old : Word} (w : Word)
    (hold : legalReg e.p r old = true) : legalReg e.p r (legalize e r old w) = true := by
  obtain ⟨-, hs, hslo, hshi⟩ := Params.lms_of_wf hp
  obtain ⟨htaps, hdelay, hsum, hdl⟩ := Params.anr_of_wf hp
  obtain ⟨hk, hpsi, hmu, hlidx⟩ := Params.ranges_of_wf hp
  cases r with
  | lmsStrength =>
    simp only [legalReg, legalize, toInt_legalizeS w hs hslo hshi, Bool.and_eq_true, decide_eq_true_eq]
    omega
  | kimRef => simp only [legalReg, toNat_legalize_kimRef, decide_eq_true_eq]; omega
  | anrTaps => rw [legalReg, legalize, legalU_iff, toNat_legalizeU w (by omega)]; omega
  | anrDelay => rw [legalReg, legalize, legalU_iff, toNat_legalizeU w (by omega)]; omega
  | kimK => exact legalF_legalizeF e w hk hold
  | kimPsi => exact legalF_legalizeF e w hpsi hold
  | alpha => exact legalF_legalizeF e w ⟨by decide, by decide, by decide⟩ hold
  | beta => exact legalF_legalizeF e w ⟨by decide, by decide, by decide⟩ hold
  | anrMu => exact legalF_legalizeF e w hmu hold
  | anrLidxMin | anrLidxMax => exact legalF_legalizeF e w hlidx hold

theorem legalTune_write {e : Env} (hp : e.p.wf = true) {t : TuneRegs} (r : TuneReg) (w : Word)
    (h : legalTune e.p t = true) : legalTune e.p (tuneSet t r (legalize e r (tuneGet t r) w)) = true := by
  rw [legalTune_iff] at h ⊢
  intro r'
  rw [tuneGet_tuneSet]
  split_ifs with hr
  · subst hr; exact legalReg_legalize hp r' w (h r')
  · exact h r'

/-! ### One step -/

/-- A CMD write that is accepted copies legal registers into the snapshot (R54). -/
theorem tuningLegal_issue {s : State} (w : Word) (h : TuningLegal s) : TuningLegal (s.issue w) := by
  unfold State.issue
  split_ifs
  · exact h
  · exact ⟨h.1, h.1⟩

theorem tuningLegal_writeLoc {s : State} (hp : s.cfg.wf = true) (l : Loc) (w : Word) (h : TuningLegal s) :
    TuningLegal (s.writeLoc l w) := by
  cases l with
  | cmd => exact tuningLegal_issue w h
  | tune r => exact ⟨legalTune_write (e := s.env) hp r w h.1, h.2⟩
  | status | gain | hLen | arg | sampL | sampR | hcoef | qcoef | reserved => exact h

theorem tuningLegal_assertReset {s : State} (hp : s.cfg.wf = true) : TuningLegal s.assertReset :=
  ⟨Params.legalTune_rst hp, Params.legalTune_rst hp⟩

theorem tuningLegal_coreMove {s t : State} (h : TuningLegal s) (hc : coreMoveWith exec s = .next t) : TuningLegal t := by
  rcases coreMove_next hc with ⟨-, rfl⟩ | ⟨-, rfl⟩ | ⟨i, -, -, he⟩
  · exact h
  · exact h
  · obtain ⟨hcfg, htune, hsnap⟩ := (commandEffect_exec he).keeps_config
    unfold TuningLegal
    rw [hcfg, htune, hsnap]
    exact h

/-- Settles O55: commands leave the registers and the snapshot alone, a host write stores a legal value, an accepted command
copies the registers, and reset loads RST_*. -/
theorem stepKeepsTuningLegal : Obligations.StepKeepsTuningLegal := by
  intro s t hp h hstep
  have hpop : TuningLegal s.popEvent := h
  have hpopCfg : s.popEvent.cfg.wf = true := hp
  rcases step_next hstep with hc | ⟨width, off, hr⟩ | ⟨width, off, v, hw⟩ | rfl | rfl
  · exact tuningLegal_coreMove hpop hc
  · obtain ⟨-, -, -, rfl⟩ := hostRead_next hr
    exact h
  · obtain ⟨-, -, -, rfl⟩ := hostWrite_next hw
    exact tuningLegal_writeLoc hpopCfg _ v hpop
  · exact tuningLegal_assertReset hpopCfg
  · exact h

end Sys2Proof.Machine

/-! The shapes of the engines' state under a step (O57): each engine keeps its own, initialization gives one. -/

namespace Sys2Proof.Machine

@[simp] theorem zeros_length (n : Nat) : (zeros n).length = n := by simp [zeros]

/-! ### Normalized LMS (10_state.md R38) -/

theorem splice_length {l x : List F32} {at' : Nat} (h : at' + x.length ≤ l.length) :
    (splice l at' x).length = l.length := by
  simp only [splice, List.length_append, List.length_take, List.length_drop]
  omega

/-- The weights keep their count while the window can be filled, and the inputs so far never get fewer. -/
theorem lmsLoop_lengths (e : Env) (mu : F32) (pairs : List (F32 × F32)) (w past : List F32)
    (hw : w.length = e.p.lmsTaps) (hpast : e.p.lmsTaps - 1 ≤ past.length) :
    (lmsLoop e mu pairs w past).w.length = e.p.lmsTaps
      ∧ e.p.lmsTaps - 1 ≤ (lmsLoop e mu pairs w past).past.length := by
  induction pairs generalizing w past with
  | nil => exact ⟨hw, hpast⟩
  | cons pair rest ih =>
    refine ih _ (pair.1 :: past) ?_ (by simp only [List.length_cons]; omega)
    simp only [lmsSample, List.length_zipWith, List.length_take, List.length_cons, hw]
    omega

theorem lmsShape_nlmsBlock {e : Env} {st : LmsState} {x : List F32} (h : LmsShape e.p st) (hx : x.length = e.p.blk) :
    LmsShape e.p (nlmsBlock e st x).st := by
  obtain ⟨hring, hwc, hw, hhist⟩ := h
  have hcursor : (st.wc + e.p.blk) % (2 * e.p.blk) = 0 ∨ (st.wc + e.p.blk) % (2 * e.p.blk) = e.p.blk := by
    rcases hwc with h0 | hb
    · rw [h0, zero_add]
      exact (Nat.eq_zero_or_pos e.p.blk).imp (fun hz => by simp [hz]) fun hpos => Nat.mod_eq_of_lt (by omega)
    · exact .inl (by rw [hb, ← two_mul, Nat.mod_self])
  exact ⟨(splice_length (by omega)).trans hring, hcursor, (lmsLoop_lengths e _ _ _ _ hw hhist.ge).1,
    List.length_take_of_le (lmsLoop_lengths e _ _ _ _ hw hhist.ge).2⟩

theorem lmsShape_lmsInit (e : Env) (t : TuneRegs) : LmsShape e.p (lmsInit e t) := by
  simp [LmsShape, lmsInit]

/-! ### Variable leak (R39) -/

theorem anrShape_anrSample {e : Env} (kind : AnrOut) (t : TuneRegs) {st : AnrState} (xs : F32) (h : AnrShape e.p st) :
    AnrShape e.p (anrSample e kind t st xs).1 := by
  obtain ⟨hring, hidx, hw, hnt, hntmax, hnd⟩ := h
  refine ⟨?_, Nat.mod_lt _ (by omega), ?_, hnt, hntmax, hnd⟩
  · simpa [anrSample] using hring
  · simp only [anrSample, anrWindow, List.length_append, List.length_zipWith, List.length_take, List.length_drop,
      List.length_map, List.length_range, hw]
    omega

theorem anrShape_anrBlock {e : Env} (kind : AnrOut) (t : TuneRegs) {st : AnrState} (x : List F32) (h : AnrShape e.p st) :
    AnrShape e.p (anrBlock e kind t st x).st := by
  induction x generalizing st with
  | nil => exact h
  | cons xs rest ih => exact ih (anrShape_anrSample kind t xs h)

/-- ANR_INIT latches NT and ND from legal registers (R99). -/
theorem anrShape_anrInit {e : Env} (hp : e.p.wf = true) {t : TuneRegs} (ht : legalTune e.p t = true) :
    AnrShape e.p (anrInit e t) := by
  obtain ⟨htaps, -, hsum, -⟩ := Params.anr_of_wf hp
  obtain ⟨hnt, hntmax⟩ := (legalU_iff _ _ _).mp ((legalTune_iff e.p t).mp ht .anrTaps)
  obtain ⟨hnd, hndmax⟩ := (legalU_iff _ _ _).mp ((legalTune_iff e.p t).mp ht .anrDelay)
  exact ⟨by simp [anrInit], by simp only [anrInit]; omega, by simp [anrInit], hnt, hntmax, hnd, hndmax⟩

/-! ### The frame engine and the spectral modes (R40, R41, R42) -/

theorem frameShape_overlapAdd {e : Env} (warmup : Nat) (fe : FrameState) {x vr : List F32} (hx : x.length = e.p.blk)
    (hvr : vr.length = 2 * e.p.blk) : FrameShape e.p warmup (overlapAdd e warmup fe x vr).st := by
  refine ⟨hx, ?_, min_le_right _ _⟩
  simp only [overlapAdd, List.length_drop]
  omega

@[simp] theorem fft_length (s : State) (z : List Cplx) : (s.env.f.fft z).length = z.length := length_transformFn _ z

@[simp] theorem ifft_length (s : State) (z : List Cplx) : (s.env.f.ifft z).length = z.length := length_transformFn _ z

@[simp] theorem windowedFrame_length (e : Env) (wa : Nat → F32) (fin x : List F32) :
    (windowedFrame e wa fin x).length = fin.length + x.length := by simp [windowedFrame]

@[simp] theorem bandPowers_length (e : Env) (z : List Cplx) : (bandPowers e z).length = bandLen e.p := by
  simp [bandPowers]

/-- A frame writes one element of each history of a bin, which keeps their lengths. -/
theorem kimBins_shape {e : Env} (t : TuneRegs) (xi ei : Nat) {bins : List KimBin} {powers : List F32}
    (hlen : bins.length = bandLen e.p) (hbins : ∀ b ∈ bins, b.x.length = e.p.kimL ∧ b.e.length = e.p.kimN)
    (hpow : powers.length = bandLen e.p) :
    (List.zipWith (kimBinStep e t xi ei) bins powers).length = bandLen e.p
      ∧ ∀ b ∈ List.zipWith (kimBinStep e t xi ei) bins powers, b.x.length = e.p.kimL ∧ b.e.length = e.p.kimN := by
  refine ⟨by rw [List.length_zipWith, hlen, hpow, min_self], fun b hb => ?_⟩
  obtain ⟨i, hi, rfl⟩ := List.getElem_of_mem hb
  rw [List.getElem_zipWith]
  simpa [kimBinStep] using hbins _ (List.getElem_mem _)

theorem kimShape_frameKim {s : State} (hp : s.cfg.wf = true) (t : TuneRegs) {st : KimState} {x : List F32}
    (h : KimShape s.cfg st) (hx : x.length = s.cfg.blk) : KimShape s.cfg (frameKim s.env t st x).st := by
  obtain ⟨hlen, hbins, -, -, hfin, -, -⟩ := h
  obtain ⟨hL, hN⟩ := Params.spectral_of_wf hp
  obtain ⟨hlen', hbins'⟩ := kimBins_shape (e := s.env) t st.xi st.ei hlen hbins (bandPowers_length s.env _)
  refine ⟨hlen', hbins', Nat.mod_lt _ hL, Nat.mod_lt _ hN, frameShape_overlapAdd (e := s.env) _ _ hx ?_⟩
  simp only [List.length_map, ifft_length, List.length_mapIdx, fft_length, windowedFrame_length, hfin, hx, env_p, two_mul]

theorem kimShape_kimInit {p : Params} (hp : p.wf = true) : KimShape p (kimInit p) := by
  obtain ⟨hL, hN⟩ := Params.spectral_of_wf hp
  refine ⟨by simp [kimInit], fun b hb => ?_, hL, hN, by simp [kimInit], by simp [kimInit], Nat.zero_le _⟩
  rw [List.eq_of_mem_replicate hb]
  exact ⟨zeros_length _, zeros_length _⟩

theorem mmseGains_bins_length {e : Env} (t : TuneRegs) {st : MmseState} {powers : List F32} (warm : Bool)
    (hlen : st.bins.length = bandLen e.p) (hpow : powers.length = bandLen e.p) :
    (mmseGains e t st powers warm).bins.length = bandLen e.p := by
  cases warm <;> simp [mmseGains, hlen, hpow]

theorem mmseShape_frameMmse {s : State} (t : TuneRegs) {st : MmseState} {x : List F32} (h : MmseShape s.cfg st)
    (hx : x.length = s.cfg.blk) : MmseShape s.cfg (frameMmse s.env t st x).st := by
  obtain ⟨hlen, hfin, -, -⟩ := h
  refine ⟨mmseGains_bins_length (e := s.env) t _ hlen (bandPowers_length s.env _),
    frameShape_overlapAdd (e := s.env) _ _ hx ?_⟩
  simp only [ifft_length, List.length_mapIdx, fft_length, windowedFrame_length, hfin, hx, env_p, two_mul]

theorem mmseShape_mmseInit (p : Params) : MmseShape p (mmseInit p) :=
  ⟨by simp [mmseInit], by simp [mmseInit], by simp [mmseInit], Nat.zero_le _⟩

/-! ### Commands -/

/-- FOLD gives a block of B samples (R129). -/
theorem foldBlock_length (s : State) : (foldBlock s.env s.left s.right).length = s.cfg.blk := by
  unfold foldBlock
  split <;> simp [State.left, State.right, State.sampL, State.sampR]

theorem engineShapes_activate {s : State} (m : Mode) (hp : s.cfg.wf = true) (ht : legalTune s.cfg s.snap.tune = true)
    (h : EngineShapes s) : EngineShapes (s.activate m) := by
  obtain ⟨hlms, hnr, hnotch, hkim, hmmse⟩ := h
  cases m with
  | lms => exact ⟨lmsShape_lmsInit s.env _, hnr, hnotch, hkim, hmmse⟩
  | kim => exact ⟨hlms, hnr, hnotch, kimShape_kimInit hp, hmmse⟩
  | mmse => exact ⟨hlms, hnr, hnotch, hkim, mmseShape_mmseInit _⟩
  | anr => exact ⟨hlms, anrShape_anrInit (e := s.env) hp ht, hnotch, hkim, hmmse⟩
  | bypass | off | heur1 | heur2 => exact ⟨hlms, hnr, hnotch, hkim, hmmse⟩

theorem engineShapes_runMode {s : State} {m : List F32} (hp : s.cfg.wf = true) (hm : m.length = s.cfg.blk)
    (h : EngineShapes s) : EngineShapes (runMode s m).st := by
  obtain ⟨hlms, hnr, hnotch, hkim, hmmse⟩ := h
  unfold runMode
  split
  · exact ⟨lmsShape_nlmsBlock (e := s.env) hlms hm, hnr, hnotch, hkim, hmmse⟩
  · exact ⟨hlms, hnr, hnotch, kimShape_frameKim hp _ hkim hm, hmmse⟩
  · exact ⟨hlms, hnr, hnotch, hkim, mmseShape_frameMmse _ hmmse hm⟩
  · exact ⟨hlms, anrShape_anrBlock (e := s.env) _ _ _ hnr, hnotch, hkim, hmmse⟩
  all_goals exact ⟨hlms, hnr, hnotch, hkim, hmmse⟩

theorem engineShapes_runNotch {s : State} (m : List F32) (h : EngineShapes s) : EngineShapes (runNotch s m).st := by
  obtain ⟨hlms, hnr, hnotch, hkim, hmmse⟩ := h
  cases hen : s.notchEn with
  | false => rw [runNotch_of_off s m hen]; exact ⟨hlms, hnr, hnotch, hkim, hmmse⟩
  | true =>
    rw [runNotch_of_on s m hen]
    exact ⟨hlms, hnr, anrShape_anrBlock (e := s.env) _ _ _ hnotch, hkim, hmmse⟩

/-- Every effect a command can have keeps the shapes. -/
theorem CommandEffect.keeps_engineShapes {s t : State} {i : Instr} (he : CommandEffect s i t) (hp : s.cfg.wf = true)
    (ht : legalTune s.cfg s.snap.tune = true) (h : EngineShapes s) : EngineShapes t := by
  cases he with
  | failed | nop | committed | measured | scaled | notchOff | passed => exact h
  | notchOn =>
    obtain ⟨hlms, hnr, -, hkim, hmmse⟩ := h
    exact ⟨hlms, hnr, anrShape_anrInit (e := s.env) hp ht, hkim, hmmse⟩
  | activated => exact engineShapes_activate _ hp ht h
  | processed => exact engineShapes_runNotch _ (engineShapes_runMode hp (foldBlock_length s) h)

/-! ### One step -/

theorem engineShapes_coreMove {s t : State} (hp : s.cfg.wf = true) (ht : legalTune s.cfg s.snap.tune = true)
    (h : EngineShapes s) (hc : coreMoveWith exec s = .next t) : EngineShapes t := by
  rcases coreMove_next hc with ⟨-, rfl⟩ | ⟨-, rfl⟩ | ⟨i, -, -, he⟩
  · exact h
  · exact h
  · exact (commandEffect_exec he).keeps_engineShapes hp ht h

/-- No host write reaches engine state. -/
theorem engineShapes_writeLoc {s : State} (l : Loc) (w : Word) (h : EngineShapes s) : EngineShapes (s.writeLoc l w) := by
  cases l with
  | cmd => simp only [State.writeLoc, State.issue]; split_ifs <;> exact h
  | status | gain | hLen | arg | tune | sampL | sampR | hcoef | qcoef | reserved => exact h

theorem anrShape_resetAnr {p : Params} (hp : p.wf = true) : AnrShape p (resetAnr p) := by
  obtain ⟨htaps, hdelay, hsum, -⟩ := Params.anr_of_wf hp
  exact ⟨zeros_length _, by simp only [resetAnr]; omega, zeros_length _, le_refl _, htaps, le_refl _, hdelay⟩

/-- The engine state of reset has the shapes of freshly initialized engines (log 7). -/
theorem engineShapes_resetOf {p : Params} (hp : p.wf = true) : EngineShapes (State.resetOf p) :=
  ⟨⟨zeros_length _, .inl rfl, zeros_length _, zeros_length _⟩, anrShape_resetAnr hp, anrShape_resetAnr hp,
    kimShape_kimInit hp, mmseShape_mmseInit p⟩

/-- Settles O57: a core move runs engines that keep their shapes or sets them up anew, no host access reaches them, and reset
gives fresh ones. -/
theorem stepKeepsEngineShapes : Obligations.StepKeepsEngineShapes := by
  intro s t hp ht h hstep
  have hpop : EngineShapes s.popEvent := h
  have hpopCfg : s.popEvent.cfg.wf = true := hp
  rcases step_next hstep with hc | ⟨width, off, hr⟩ | ⟨width, off, v, hw⟩ | rfl | rfl
  · exact engineShapes_coreMove hpopCfg ht.2 hpop hc
  · obtain ⟨-, -, -, rfl⟩ := hostRead_next hr
    exact hpop
  · obtain ⟨-, -, -, rfl⟩ := hostWrite_next hw
    exact engineShapes_writeLoc _ v hpop
  · exact engineShapes_resetOf hpopCfg
  · exact hpop

end Sys2Proof.Machine

/-! GAIN (O19). -/

namespace Sys2Proof.Machine

@[simp] theorem issue_gain (s : State) (w : Word) : (s.issue w).gain = s.gain := by
  unfold State.issue; split_ifs <;> rfl

/-- No host write reaches GAIN. -/
@[simp] theorem writeLoc_gain (s : State) (l : Loc) (w : Word) : (s.writeLoc l w).gain = s.gain := by
  cases l with
  | cmd => exact issue_gain s w
  | _ => rfl

theorem execGainQuery_gain {s t : State} (h : execGainQuery s = .next t) :
    t.gain = if t.err = .ok then corr s.env s.taps s.snap.args.gfreq else s.gain := by
  rcases execGainQuery_cases s with ⟨c, hc, he⟩ | he <;> rw [he] at h <;> cases h
  · simp [hc]
  · rfl

theorem eventWith_gain {s t : State} {ev : Event} (hcore : ev ≠ .core) (hreset : ev ≠ .resetAssert)
    (h : eventWith exec s ev = .next t) : t.gain = s.gain := by
  cases ev with
  | core => exact absurd rfl hcore
  | resetAssert => exact absurd rfl hreset
  | read width off => obtain ⟨-, -, -, rfl⟩ := hostRead_next h; rfl
  | write width off v => obtain ⟨-, -, -, rfl⟩ := hostWrite_next h; exact writeLoc_gain s _ v
  | resetRelease => cases h; rfl

/-- Settles O19: `measured` is the one effect of a command that writes GAIN, and no host event but reset does. -/
theorem gainIsWrittenByQueryOnly : Obligations.GainIsWrittenByQueryOnly := by
  refine ⟨fun _ => rfl, fun s t h => execGainQuery_gain h, fun i s t hi h => (commandEffect_exec h).keeps_gain hi,
    fun s t ev rest hin hcore hreset h => ?_⟩
  rw [step_cons s ev rest hin] at h
  exact eventWith_gain (s := { s with inbox := rest }) hcore hreset h

end Sys2Proof.Machine

/-! The host's accesses by location: the registers and slots of 10_state.md R26 (O7 to O13). -/

namespace Sys2Proof.Machine

/-! ### One access -/

/-- An aligned word write that is no race does what its location says (R49, R51, R56). -/
theorem step_write {s : State} {off : Off} {v : Word} {rest : List Event} {l : Loc}
    (hin : s.inbox = .write 4 off v :: rest) (hreset : s.inReset = false) (halign : off.toNat % 4 = 0)
    (hloc : locate s.cfg off.toNat = l) (hrace : s.busy = false ∨ l.writeRaces = false) :
    step s = .next ({ s with inbox := rest }.writeLoc l v) := by
  subst hloc
  rw [step_cons s _ rest hin]
  rcases hrace with h | h <;> simp [eventWith, hostWrite, hreset, accessOk, halign, h]

/-- An aligned word read that is no race gives the host the location's word and changes nothing else. -/
theorem step_read {s : State} {off : Off} {rest : List Event} {l : Loc}
    (hin : s.inbox = .read 4 off :: rest) (hreset : s.inReset = false) (halign : off.toNat % 4 = 0)
    (hloc : locate s.cfg off.toNat = l) (hrace : s.busy = false ∨ l.readRaces = false) :
    step s = .next { s with inbox := rest, rdata := { s with inbox := rest }.readLoc l } := by
  subst hloc
  rw [step_cons s _ rest hin]
  rcases hrace with h | h <;> simp [eventWith, hostRead, hreset, accessOk, halign, h]

/-! ### The map of the window (R26) -/

theorem locate_register (p : Params) {a : Nat} (h : a < 0x1000) : locate p a = regAt a := if_pos h

theorem locate_sampL {p : Params} {i : Nat} (hp : p.wf = true) (hi : i < p.blk) :
    locate p (0x1000 + 4 * i) = .sampL i := by
  obtain ⟨-, hblk, -, -⟩ := Params.sizes_of_wf hp
  have hslot : (0x1000 + 4 * i - sampLBase) / 4 = i := by unfold sampLBase; omega
  rw [locate, if_neg (by omega), if_pos (by omega), hslot, slotAt, if_pos hi]

theorem locate_sampR {p : Params} {i : Nat} (hp : p.wf = true) (hi : i < p.blk) :
    locate p (0x2000 + 4 * i) = .sampR i := by
  obtain ⟨-, hblk, -, -⟩ := Params.sizes_of_wf hp
  have hslot : (0x2000 + 4 * i - sampRBase) / 4 = i := by unfold sampRBase; omega
  rw [locate, if_neg (by omega), if_neg (by omega), if_pos (by omega), hslot, slotAt, if_pos hi]

theorem locate_hcoef {p : Params} {n : Nat} (hp : p.wf = true) (hn : n < p.nmax) :
    locate p (0x4000 + 4 * n) = .hcoef n := by
  obtain ⟨-, -, -, hmax⟩ := Params.sizes_of_wf hp
  have hslot : (0x4000 + 4 * n - hcoefBase) / 4 = n := by unfold hcoefBase; omega
  rw [locate, if_neg (by omega), if_neg (by omega), if_neg (by omega), if_neg (by omega), if_pos (by omega), hslot,
    slotAt, if_pos hn]

theorem locate_qcoef {p : Params} {n : Nat} (hp : p.wf = true) (hn : n < p.nmax) :
    locate p (0x8000 + 4 * n) = .qcoef n := by
  obtain ⟨-, -, -, hmax⟩ := Params.sizes_of_wf hp
  have hslot : (0x8000 + 4 * n - qcoefBase) / 4 = n := by unfold qcoefBase; omega
  rw [locate, if_neg (by omega), if_neg (by omega), if_neg (by omega), if_neg (by omega), if_neg (by omega),
    if_pos (by omega), hslot, slotAt, if_pos hn]

/-! ### CMD (R27) -/

/-- Settles O7: CMD is at offset 0, its write is `issue` and no access to it is a race. -/
theorem cmdWriteIssuesOrDrops : Obligations.CmdWriteIssuesOrDrops := by
  intro s w rest hreset
  have hwrite : s.inbox = .write 4 0x000 w :: rest → step s = .next ({ s with inbox := rest }.issue w) := fun hin =>
    step_write hin hreset rfl (locate_register s.cfg (by decide)) (.inr rfl)
  refine ⟨fun hin hbusy => ?_, fun hin hbusy => ?_, fun hin =>
    step_read (l := .cmd) hin hreset rfl (locate_register s.cfg (by decide)) (.inr rfl)⟩
  · rw [hwrite hin, State.issue, if_neg (by simp [hbusy])]
    rfl
  · rw [hwrite hin, State.issue, if_pos hbusy]

/-! ### The argument registers (R31) -/

theorem argGet_argSet (t : ArgRegs) (r r' : ArgReg) (v : F32) :
    (t.set r v).get r' = if r' = r then v else t.get r' := by
  cases r <;> cases r' <;> rfl

/-- The offsets of the argument registers (R26). -/
def argMap : List (Off × ArgReg) :=
  [(0x010, .fc1), (0x014, .fc2), (0x018, .gfreq), (0x01C, .gscale), (0x020, .kf), (0x024, .kastop), (0x028, .kdf)]

theorem locate_of_mem_argMap (p : Params) {off : Off} {r : ArgReg} (h : (off, r) ∈ argMap) :
    off.toNat % 4 = 0 ∧ locate p off.toNat = .arg r := by
  have hmap : ∀ x ∈ argMap, x.1.toNat % 4 = 0 ∧ x.1.toNat < 0x1000 ∧ regAt x.1.toNat = .arg x.2 := by decide
  obtain ⟨halign, hlow, hreg⟩ := hmap _ h
  exact ⟨halign, (locate_register p hlow).trans hreg⟩

/-- Settles O8: one lookup of the offset, then the register record's own laws. -/
theorem argumentRegistersHoldAnyPattern : Obligations.ArgumentRegistersHoldAnyPattern := by
  intro s off r v rest hreset hmem
  obtain ⟨halign, hloc⟩ := locate_of_mem_argMap s.cfg hmem
  refine ⟨fun hin => ⟨_, step_write hin hreset halign hloc (.inr rfl), rfl, ?_, fun r' hr => ?_⟩,
    fun hin => step_read hin hreset halign hloc (.inr rfl)⟩
  · exact (argGet_argSet s.args r r v).trans (if_pos rfl)
  · exact (argGet_argSet s.args r r' v).trans (if_neg hr)

/-! ### The tuning registers (R32, R33) -/

theorem legalizeF_eq (e : Env) (lo hi old w : F32) :
    legalizeF e lo hi old w
      = if isFinite w = false then old
        else if lo = fzero ∧ e.clamp w lo hi = 0x80000000 then fzero
        else e.clamp w lo hi := by
  simp only [legalizeF, Bool.not_eq_true', Bool.and_eq_true, beq_iff_eq]

/-- The offsets of the tuning registers (R26). -/
def tuneMap : List (Off × TuneReg) :=
  [(0x040, .lmsStrength), (0x044, .kimK), (0x048, .kimPsi), (0x04C, .kimRef), (0x050, .alpha), (0x054, .beta),
    (0x058, .anrTaps), (0x05C, .anrDelay), (0x060, .anrMu), (0x064, .anrLidxMin), (0x068, .anrLidxMax)]

theorem locate_of_mem_tuneMap (p : Params) {off : Off} {r : TuneReg} (h : (off, r) ∈ tuneMap) :
    off.toNat % 4 = 0 ∧ locate p off.toNat = .tune r := by
  have hmap : ∀ x ∈ tuneMap, x.1.toNat % 4 = 0 ∧ x.1.toNat < 0x1000 ∧ regAt x.1.toNat = .tune x.2 := by decide
  obtain ⟨halign, hlow, hreg⟩ := hmap _ h
  exact ⟨halign, (locate_register p hlow).trans hreg⟩

/-- Settles O9: one lookup of the offset, the register record's laws, and legal(w) register by register. -/
theorem tuningWritesStoreLegalValues : Obligations.TuningWritesStoreLegalValues := by
  intro s off r v rest hp hreset hmem
  obtain ⟨halign, hloc⟩ := locate_of_mem_tuneMap s.cfg hmem
  have hstored : tuneGet (tuneSet s.tune r (legalize s.env r (tuneGet s.tune r) v)) r
      = legalize s.env r (tuneGet s.tune r) v := (tuneGet_tuneSet _ r r _).trans (if_pos rfl)
  refine ⟨fun hin => ⟨_, step_write hin hreset halign hloc (.inr rfl), rfl,
      fun r' hr => (tuneGet_tuneSet s.tune r r' _).trans (if_neg hr), ?_⟩,
    fun hin => step_read hin hreset halign hloc (.inr rfl)⟩
  obtain ⟨-, hs, hslo, hshi⟩ := Params.lms_of_wf hp
  obtain ⟨htaps, hdelay, hsum, hdl⟩ := Params.anr_of_wf hp
  cases r with
  | lmsStrength => exact (congrArg BitVec.toInt hstored).trans (toInt_legalizeS v hs hslo hshi)
  | kimRef => exact (congrArg BitVec.toNat hstored).trans (toNat_legalize_kimRef s.env _ v)
  | anrTaps => exact (congrArg BitVec.toNat hstored).trans (toNat_legalizeU (hi := s.cfg.anrTapsMax) v (by omega))
  | anrDelay => exact (congrArg BitVec.toNat hstored).trans (toNat_legalizeU (hi := s.cfg.anrDelayMax) v (by omega))
  | kimK | kimPsi | alpha | beta | anrMu | anrLidxMin | anrLidxMax => exact hstored.trans (legalizeF_eq s.env _ _ _ v)

/-! ### Reserved offsets (R45) -/

theorem regAt_reserved {a : Nat} (halign : a % 4 = 0) (h : (0x02C ≤ a ∧ a < 0x040) ∨ 0x06C ≤ a) :
    regAt a = .reserved := by
  unfold regAt
  split
  case h_23 => rfl
  all_goals omega

theorem slotAt_reserved {n i : Nat} (mk : Nat → Loc) (h : n ≤ i) : slotAt n i mk = .reserved := if_neg (by omega)

/-- Every offset outside the map is reserved, past the last slot of a buffer too. -/
theorem locate_reserved {p : Params} {a : Nat} (halign : a % 4 = 0)
    (h : (0x02C ≤ a ∧ a < 0x040) ∨ (0x06C ≤ a ∧ a < 0x1000) ∨ (0x1000 + 4 * p.blk ≤ a ∧ a < 0x2000)
      ∨ (0x2000 + 4 * p.blk ≤ a ∧ a < 0x4000) ∨ (0x4000 + 4 * p.nmax ≤ a ∧ a < 0x8000) ∨ 0x8000 + 4 * p.nmax ≤ a) :
    locate p a = .reserved := by
  unfold locate sampLBase sampRBase hcoefBase qcoefBase
  split_ifs
  · exact regAt_reserved halign (by omega)
  · exact slotAt_reserved _ (by omega)
  · exact slotAt_reserved _ (by omega)
  · rfl
  · exact slotAt_reserved _ (by omega)
  · exact slotAt_reserved _ (by omega)
  · rfl

/-- Settles O10: an access to a reserved offset reads 0, writes nothing and is no race. -/
theorem reservedOffsetsReadZero : Obligations.ReservedOffsetsReadZero := by
  intro s off v rest hreset halign h
  have hloc := locate_reserved (p := s.cfg) halign h
  exact ⟨fun hin => step_read hin hreset halign hloc (.inr rfl), fun hin => step_write hin hreset halign hloc (.inr rfl)⟩

/-! ### The result registers and the coefficients (R29, R30, R35, R36, R51) -/

/-- The locations a host write leaves alone (R51). -/
def Loc.readOnly : Loc → Bool
  | .status | .gain | .hLen | .hcoef _ | .qcoef _ => true
  | .cmd | .arg _ | .tune _ | .sampL _ | .sampR _ | .reserved => false

theorem writeLoc_readOnly {s : State} {l : Loc} (w : Word) (h : l.readOnly = true) : s.writeLoc l w = s := by
  cases l with
  | status | gain | hLen | hcoef | qcoef => rfl
  | cmd | arg | tune | sampL | sampR | reserved => cases h

theorem writeRaces_readOnly {l : Loc} (h : l.readOnly = true) : l.writeRaces = false := by
  cases l with
  | sampL | sampR => cases h
  | _ => rfl

/-- Where the read-only locations stand. -/
theorem locate_readOnly {p : Params} (hp : p.wf = true) {off : Off}
    (h : off = 0x004 ∨ off = 0x008 ∨ off = 0x00C
      ∨ ∃ n, n < p.nmax ∧ (off.toNat = 0x4000 + 4 * n ∨ off.toNat = 0x8000 + 4 * n)) :
    off.toNat % 4 = 0 ∧ (locate p off.toNat).readOnly = true := by
  rcases h with rfl | rfl | rfl | ⟨n, hn, h | h⟩
  · exact ⟨rfl, congrArg Loc.readOnly (locate_register p (by decide))⟩
  · exact ⟨rfl, congrArg Loc.readOnly (locate_register p (by decide))⟩
  · exact ⟨rfl, congrArg Loc.readOnly (locate_register p (by decide))⟩
  · rw [h, locate_hcoef hp hn]; exact ⟨by omega, rfl⟩
  · rw [h, locate_qcoef hp hn]; exact ⟨by omega, rfl⟩

/-- Settles O11: a write to a read-only location is ignored, and a read gives what it holds. -/
theorem resultRegistersAreReadOnly : Obligations.ResultRegistersAreReadOnly := by
  intro s off v rest hp hreset
  refine ⟨fun hin h => ?_, fun hin => ⟨fun h => ?_, fun hbusy h => ?_, fun hbusy h => ?_, fun hbusy n hn h => ?_⟩⟩
  · obtain ⟨halign, hro⟩ := locate_readOnly hp h
    rw [step_write hin hreset halign rfl (.inr (writeRaces_readOnly hro)), writeLoc_readOnly v hro]
  · subst h
    exact step_read (l := .status) hin hreset rfl (locate_register s.cfg (by decide)) (.inr rfl)
  · subst h
    exact step_read (l := .gain) hin hreset rfl (locate_register s.cfg (by decide)) (.inl hbusy)
  · subst h
    exact step_read (l := .hLen) hin hreset rfl (locate_register s.cfg (by decide)) (.inl hbusy)
  · obtain ⟨w, hw⟩ := Memory.readWord_isSome s.mem (a := off.toNat) (by omega)
    refine ⟨w, hw, ?_⟩
    rcases h with h | h
    · rw [step_read hin hreset (by omega) (h ▸ locate_hcoef hp hn) (.inl hbusy)]
      rw [h] at hw
      simp [State.readLoc, hcoefBase, hw]
    · rw [step_read hin hreset (by omega) (h ▸ locate_qcoef hp hn) (.inl hbusy)]
      rw [h] at hw
      simp [State.readLoc, qcoefBase, hw]

/-! ### STATUS (R28) -/

theorem bit_le (b : Bool) : bit b ≤ 1 := by cases b <;> decide

theorem errCode_le (c : ErrCode) : errCode c ≤ 5 := by cases c <;> decide

theorem modeCode_le (m : Mode) : modeCode m ≤ 7 := by cases m <;> decide

theorem specOf_le (warmup cnt : Nat) : specOf warmup cnt ≤ 2 := by
  unfold specOf
  split_ifs <;> omega

/-- The three states of a spectral mode, by its frame count (R102). -/
theorem specOf_iff (warmup cnt : Nat) :
    (specOf warmup cnt = 0 ↔ cnt = 0) ∧ (specOf warmup cnt = 1 ↔ 0 < cnt ∧ cnt < warmup)
      ∧ (specOf warmup cnt = 2 ↔ max warmup 1 ≤ cnt) := by
  rcases Nat.eq_zero_or_pos cnt with rfl | hpos
  · simp [specOf]
  · by_cases hwarm : cnt < warmup
    · simp [specOf, hpos.ne', hpos, hwarm]
    · simp [specOf, hpos.ne', hwarm, Nat.not_lt.mp hwarm, Nat.succ_le_of_lt hpos]

theorem spec_le (s : State) : s.spec ≤ 2 := by
  unfold State.spec
  split
  · exact specOf_le _ _
  · exact specOf_le _ _
  · omega

theorem spec_of_not_spectral {s : State} (hkim : s.mode ≠ .kim) (hmmse : s.mode ≠ .mmse) : s.spec = 0 := by
  unfold State.spec
  split
  · exact absurd ‹_› hkim
  · exact absurd ‹_› hmmse
  · rfl

/-- Every field of STATUS fits between its neighbours. -/
theorem statusWord_fields (s : State) :
    let w := s.statusWord.toNat
    w % 2 = bit s.busy ∧ w / 2 % 2 = bit s.drop ∧ w / 4 % 4 = 0 ∧ w / 16 % 16 = errCode s.err
      ∧ w / 256 % 8 = modeCode s.mode ∧ w / 2048 % 2 = bit s.notchEn ∧ w / 16384 = 0 ∧ w / 4096 % 4 = s.spec := by
  have hbusy := bit_le s.busy
  have hdrop := bit_le s.drop
  have hnotch := bit_le s.notchEn
  have herr := errCode_le s.err
  have hmode := modeCode_le s.mode
  have hspec := spec_le s
  rw [State.statusWord, BitVec.toNat_ofNat, Nat.mod_eq_of_lt (by omega)]
  omega

/-- Settles O12: each field is a digit of the word, and SPEC is `specOf` of the active spectral mode. -/
theorem statusWordFields : Obligations.StatusWordFields := by
  intro s w
  obtain ⟨hbusy, hdrop, hlow, herr, hmode, hnotch, hhigh, hspec⟩ := statusWord_fields s
  refine ⟨hbusy, hdrop, hlow, ?_, ?_, hnotch, hhigh, fun hkim hmmse => hspec.trans (spec_of_not_spectral hkim hmmse),
    fun warmup cnt h => ?_⟩
  · rw [herr]; cases s.err <;> rfl
  · rw [hmode]; cases s.mode <;> rfl
  · have hval : s.spec = specOf warmup cnt := by
      rcases h with ⟨hm, rfl, rfl⟩ | ⟨hm, rfl, rfl⟩ <;> rw [State.spec, hm]
    rw [hspec, hval]
    exact specOf_iff warmup cnt

/-! ### The sample slots (R34, R50, R53) -/

/-- Each of the four bytes of a word reads back as written (R50). -/
theorem readByte_writeWord_inside {m : Memory} (a : Nat) (w : Word) (h : Memory.wf m = true) {j : Nat} (hj : j < 4) :
    Memory.readByte (Memory.writeWord m a w) (a + j) = some (byteOf w j) := by
  have h1 := Memory.wf_writeByte a (byteOf w 0) h
  have h2 := Memory.wf_writeByte (a + 1) (byteOf w 1) h1
  have h3 := Memory.wf_writeByte (a + 2) (byteOf w 2) h2
  unfold Memory.writeWord
  interval_cases j
  · rw [Memory.readByte_writeByte_ne _ _ (by omega), Memory.readByte_writeByte_ne _ _ (by omega),
      Memory.readByte_writeByte_ne _ _ (by omega), add_zero, Memory.readByte_writeByte_same _ _ h]
  · rw [Memory.readByte_writeByte_ne _ _ (by omega), Memory.readByte_writeByte_ne _ _ (by omega),
      Memory.readByte_writeByte_same _ _ h1]
  · rw [Memory.readByte_writeByte_ne _ _ (by omega), Memory.readByte_writeByte_same _ _ h2]
  · rw [Memory.readByte_writeByte_same _ _ h3]

theorem byteOf_eq (w : Word) (j : Nat) : byteOf w j = BitVec.ofNat 8 (w.toNat / 2 ^ (8 * j)) := by
  rw [byteOf, pow_mul]
  norm_num

/-- The location of a sample slot, with what a write to it does and what a read of it gives once it is written. -/
theorem locate_sample {s : State} {a i : Nat} (hp : s.cfg.wf = true) (hi : i < s.cfg.blk)
    (ha : a = 0x1000 + 4 * i ∨ a = 0x2000 + 4 * i) :
    ∃ l, locate s.cfg a = l
      ∧ (∀ (u : State) (v : Word), u.writeLoc l v = { u with mem := Memory.writeWord u.mem a v })
      ∧ ∀ (u : State) (w : Word), Memory.readWord u.mem a = some w → u.readLoc l = w := by
  rcases ha with rfl | rfl
  · refine ⟨_, locate_sampL hp hi, fun _ _ => rfl, fun u w hw => ?_⟩
    simp [State.readLoc, State.sampRead, sampLBase, hw]
  · refine ⟨_, locate_sampR hp hi, fun _ _ => rfl, fun u w hw => ?_⟩
    simp [State.readLoc, State.sampRead, sampRBase, hw]

/-- Settles O13: a write to a slot is one word write to the window, and a read gives the word there. -/
theorem sampleSlotsReadBack : Obligations.SampleSlotsReadBack := by
  intro s off i v rest hlegal hreset hbusy hi hoff
  obtain ⟨hp, hwf⟩ := hlegal
  obtain ⟨l, hloc, hwrite, hread⟩ := locate_sample hp hi hoff
  have halign : off.toNat % 4 = 0 := by omega
  refine ⟨fun hin => ⟨_, step_write hin hreset halign hloc (.inl hbusy), ?_⟩, fun hin w hw => ?_⟩
  · rw [hwrite]
    exact ⟨rfl, Memory.readWord_writeWord_same _ v hwf,
      fun j hj => (readByte_writeWord_inside _ v hwf hj).trans (congrArg some (byteOf_eq v j)),
      fun a ha => Memory.readByte_writeWord_outside s.mem v ha⟩
  · rw [step_read hin hreset halign hloc (.inl hbusy), hread { s with inbox := rest } w hw]

end Sys2Proof.Machine

/-! The refused accesses, the reset edges and the core's move (O6, O14, O15). -/

namespace Sys2Proof.Machine

/-! ### Refused accesses (R49, R56, R148) -/

theorem accessOk_eq_false_iff (width : Nat) (off : Off) :
    accessOk width off = false ↔ width ≠ 4 ∨ off.toNat % 4 ≠ 0 := by
  rw [accessOk, Bool.and_eq_false_iff, beq_eq_false_iff_ne, beq_eq_false_iff_ne]

theorem hostRead_inReset {s : State} (width : Nat) (off : Off) (h : s.inReset = true) :
    hostRead s width off = .refused .resetAsserted := if_pos h

theorem hostWrite_inReset {s : State} (width : Nat) (off : Off) (v : Word) (h : s.inReset = true) :
    hostWrite s width off v = .refused .resetAsserted := if_pos h

theorem hostRead_malformed {s : State} {width : Nat} {off : Off} (hreset : s.inReset = false)
    (h : accessOk width off = false) : hostRead s width off = .refused .accessWidth := by
  simp [hostRead, hreset, h]

theorem hostWrite_malformed {s : State} {width : Nat} {off : Off} (v : Word) (hreset : s.inReset = false)
    (h : accessOk width off = false) : hostWrite s width off v = .refused .accessWidth := by
  simp [hostWrite, hreset, h]

/-- A word write to a sample slot while BUSY is refused. -/
theorem step_write_race {s : State} {off : Off} {v : Word} {rest : List Event} {l : Loc}
    (hin : s.inbox = .write 4 off v :: rest) (hreset : s.inReset = false) (halign : off.toNat % 4 = 0)
    (hbusy : s.busy = true) (hloc : locate s.cfg off.toNat = l) (hrace : l.writeRaces = true) :
    step s = .refused .race := by
  subst hloc
  rw [step_cons s _ rest hin]
  simp [eventWith, hostWrite, hreset, accessOk, halign, hbusy, hrace]

/-- A word read of a buffer or a result while BUSY is refused. -/
theorem step_read_race {s : State} {off : Off} {rest : List Event} {l : Loc}
    (hin : s.inbox = .read 4 off :: rest) (hreset : s.inReset = false) (halign : off.toNat % 4 = 0)
    (hbusy : s.busy = true) (hloc : locate s.cfg off.toNat = l) (hrace : l.readRaces = true) :
    step s = .refused .race := by
  subst hloc
  rw [step_cons s _ rest hin]
  simp [eventWith, hostRead, hreset, accessOk, halign, hbusy, hrace]

/-! ### The races (O14) -/

theorem locate_sample_races {p : Params} (hp : p.wf = true) {a : Nat}
    (h : ∃ i, i < p.blk ∧ (a = 0x1000 + 4 * i ∨ a = 0x2000 + 4 * i)) :
    (locate p a).writeRaces = true ∧ (locate p a).readRaces = true := by
  obtain ⟨i, hi, rfl | rfl⟩ := h
  · rw [locate_sampL hp hi]; exact ⟨rfl, rfl⟩
  · rw [locate_sampR hp hi]; exact ⟨rfl, rfl⟩

theorem locate_coef_readRaces {p : Params} (hp : p.wf = true) {a : Nat}
    (h : ∃ n, n < p.nmax ∧ (a = 0x4000 + 4 * n ∨ a = 0x8000 + 4 * n)) : (locate p a).readRaces = true := by
  obtain ⟨n, hn, rfl | rfl⟩ := h
  · rw [locate_hcoef hp hn]; rfl
  · rw [locate_qcoef hp hn]; rfl

/-- Below the buffers only GAIN, at 0x008, and H_LEN, at 0x00C, are in a race with a command. -/
theorem locate_register_not_race (p : Params) {a : Nat} (ha : a < 0x1000) (hgain : a ≠ 0x008) (hlen : a ≠ 0x00C) :
    (locate p a).readRaces = false ∧ (locate p a).writeRaces = false := by
  rw [locate_register p ha]
  unfold regAt
  split
  case h_3 => exact absurd rfl hgain
  case h_4 => exact absurd rfl hlen
  all_goals exact ⟨rfl, rfl⟩

/-- Settles O14: whether an access races is a matter of its location. -/
theorem busyAccessesAreRaces : Obligations.BusyAccessesAreRaces := by
  intro s off v rest hp hreset hbusy halign
  refine ⟨fun hin h => step_write_race hin hreset halign hbusy rfl (locate_sample_races hp h).1, fun hin h => ?_,
    fun h => ?_⟩
  · refine step_read_race hin hreset halign hbusy rfl ?_
    rcases h with rfl | rfl | h | h
    · exact congrArg Loc.readRaces (locate_register s.cfg (by decide))
    · exact congrArg Loc.readRaces (locate_register s.cfg (by decide))
    · exact (locate_sample_races hp h).2
    · exact locate_coef_readRaces hp h
  · have hplace : off.toNat < 0x1000 ∧ off.toNat ≠ 0x008 ∧ off.toNat ≠ 0x00C := by
      rcases h with h | h | rfl
      · omega
      · omega
      · decide
    obtain ⟨hlow, hgain, hlen⟩ := hplace
    obtain ⟨hread, hwrite⟩ := locate_register_not_race s.cfg hlow hgain hlen
    exact ⟨fun hin => ⟨_, step_read hin hreset halign rfl (.inr hread)⟩,
      fun hin => ⟨_, step_write hin hreset halign rfl (.inr hwrite)⟩⟩

/-! ### Malformed accesses and reset (O15) -/

/-- Settles O15: each clause is one event on the state without it. -/
theorem malformedAccessesAndReset : Obligations.MalformedAccessesAndReset := by
  intro s width off v rest
  refine ⟨fun hreset h => ?_, fun hreset => ⟨fun hin => ?_, fun hin => ?_⟩, fun hin => ?_, fun hin => ?_⟩
  · have hbad := (accessOk_eq_false_iff width off).2 h
    exact ⟨fun hin => (step_cons s _ rest hin).trans (hostRead_malformed hreset hbad),
      fun hin => (step_cons s _ rest hin).trans (hostWrite_malformed v hreset hbad)⟩
  · exact (step_cons s _ rest hin).trans (hostRead_inReset width off hreset)
  · exact (step_cons s _ rest hin).trans (hostWrite_inReset width off v hreset)
  · exact step_cons s _ rest hin
  · exact step_cons s _ rest hin

/-! ### The core's move (O6) -/

/-- A core move taken from the inbox is the core's move on the state without it. -/
theorem step_core {s : State} {rest : List Event} (hin : s.inbox = .core :: rest) :
    step s = coreMoveWith exec { s with inbox := rest } := step_cons s .core rest hin

/-- The step after a word is placed runs it on the state that has accepted it (R122). -/
theorem step_withCommand {s : State} {w : Word} {i : Instr} (hd : decode w = .ok i) :
    step (s.withCommand w) = exec i { s.accept w with inReset := false } :=
  (step_core (rest := s.inbox) rfl).trans (coreMove_ok exec { s.accept w with inReset := false } i rfl hd)

/-- Settles O6: a step that is a core's move is `coreMoveWith`, which runs the accepted word's command or keeps the state. -/
theorem stepRunsTheAcceptedCommand : Obligations.StepRunsTheAcceptedCommand :=
  ⟨fun s i hin hbusy hd => (step_nil s hin).trans (coreMove_ok exec s i hbusy hd),
    fun s i rest hin hbusy hd => (step_core hin).trans (coreMove_ok exec { s with inbox := rest } i hbusy hd),
    fun s hin hbusy => (step_nil s hin).trans (coreMove_idle exec s hbusy),
    fun s rest hin hbusy => (step_core hin).trans (coreMove_idle exec { s with inbox := rest } hbusy),
    fun _ _ _ _ hd => step_withCommand hd⟩

end Sys2Proof.Machine

/-! Noninterference of the argument and tuning registers (R54, O16): every operation a command is built from commutes with
replacing them. -/

namespace Sys2Proof.Machine

/-- The state with the argument and tuning registers replaced; the snapshot keeps what the command was accepted with. -/
def State.withRegs (s : State) (a : ArgRegs) (u : TuneRegs) : State := { s with args := a, tune := u }

/-- An outcome with the registers of its next state replaced. -/
def outcomeWithRegs (a : ArgRegs) (u : TuneRegs) : Host.Outcome State Fault Refusal → Host.Outcome State Fault Refusal
  | .next t => .next (t.withRegs a u)
  | .fault f => .fault f
  | .refused r => .refused r

/-- A block result with the registers of its state replaced. -/
def BlockResult.withRegs (r : BlockResult State) (a : ArgRegs) (u : TuneRegs) : BlockResult State :=
  { r with st := r.st.withRegs a u }

section
variable (s : State) (a : ArgRegs) (u : TuneRegs)

theorem design_withRegs (o : Option ErrCode) (h : List F32) (n : Nat) :
    (s.withRegs a u).design o h n = (s.design o h n).withRegs a u := by
  cases o <;> rfl

theorem activate_withRegs (m : Mode) : (s.withRegs a u).activate m = (s.activate m).withRegs a u := by
  cases m <;> rfl

theorem runMode_withRegs (m : List F32) : runMode (s.withRegs a u) m = (runMode s m).withRegs a u := by
  have hmode : (s.withRegs a u).mode = s.mode := rfl
  unfold runMode
  rw [hmode]
  cases s.mode <;> rfl

theorem runNotch_withRegs (m : List F32) : runNotch (s.withRegs a u) m = (runNotch s m).withRegs a u := by
  cases hn : s.notchEn with
  | false => rw [runNotch_of_off s m hn, runNotch_of_off (s.withRegs a u) m hn]; rfl
  | true => rw [runNotch_of_on s m hn, runNotch_of_on (s.withRegs a u) m hn]; rfl

theorem execGainQuery_withRegs : execGainQuery (s.withRegs a u) = outcomeWithRegs a u (execGainQuery s) := by
  have hcheck : checkQuery (s.withRegs a u) = checkQuery s := rfl
  unfold execGainQuery
  rw [hcheck]
  cases checkQuery s with
  | some c => rfl
  | none =>
    simp only [apply_ite (outcomeWithRegs a u)]
    rfl

theorem execGainScale_withRegs : execGainScale (s.withRegs a u) = outcomeWithRegs a u (execGainScale s) := by
  have hcheck : checkScale (s.withRegs a u) = checkScale s := rfl
  unfold execGainScale
  rw [hcheck]
  cases checkScale s with
  | some c => rfl
  | none =>
    simp only [apply_ite (outcomeWithRegs a u)]
    rfl

theorem execModeSelect_withRegs (code : Nat) :
    execModeSelect code (s.withRegs a u) = outcomeWithRegs a u (execModeSelect code s) := by
  unfold execModeSelect
  cases modeOf code with
  | none => rfl
  | some m => exact congrArg (fun t : State => Host.Outcome.next t.done) (activate_withRegs s a u m)

theorem processBlock_withRegs : processBlock (s.withRegs a u) = outcomeWithRegs a u (processBlock s) := by
  have hblock : foldBlock (s.withRegs a u).env (s.withRegs a u).left (s.withRegs a u).right
      = foldBlock s.env s.left s.right := rfl
  unfold processBlock
  simp only [hblock, runMode_withRegs, BlockResult.withRegs, runNotch_withRegs, apply_ite (outcomeWithRegs a u)]
  rfl

theorem execProcess_withRegs : execProcess (s.withRegs a u) = outcomeWithRegs a u (execProcess s) := by
  unfold execProcess
  rw [processBlock_withRegs]
  simp only [apply_ite (outcomeWithRegs a u)]
  rfl

/-- A command on replaced registers does what it does on the old ones, and keeps the replaced ones (R54). -/
theorem exec_withRegs (i : Instr) : exec i (s.withRegs a u) = outcomeWithRegs a u (exec i s) := by
  cases i with
  | nop | notchOff | notchOn => rfl
  | wsfirLp | wsfirHp | wsfirBp | wsfirBs => exact congrArg Host.Outcome.next (design_withRegs s a u _ _ _)
  | kaiserLp | kaiserHp | kaiserBp | kaiserBs | kaiserHilbert =>
    exact congrArg Host.Outcome.next (design_withRegs s a u _ _ _)
  | gainQuery => exact execGainQuery_withRegs s a u
  | gainScale => exact execGainScale_withRegs s a u
  | modeSelect code => exact execModeSelect_withRegs s a u code
  | process => exact execProcess_withRegs s a u

end

/-- Settles O16: the outcome on replaced registers is the outcome with its registers replaced. -/
theorem snapshotIsolatesCommands : Obligations.SnapshotIsolatesCommands := by
  intro i s a u
  have h : exec i { s with args := a, tune := u } = outcomeWithRegs a u (exec i s) := exec_withRegs s a u i
  rw [h]
  cases exec i s <;> rfl

end Sys2Proof.Machine

/-! Encoding (30_encoding.md, O1 to O5): the decoder and the table of R66 both read exactly the words of
well-formed commands. -/

namespace Sys2Proof

/-- The word is the encoding of the command, whose operands fit their fields (R62). -/
def IsWordOf (w : Word) (i : Instr) : Prop := i.wf = true ∧ w.toNat = encodeNat i

/-! ### Fields (R62) -/

theorem toNat_eq_fields (w : Word) :
    w.toNat = opField w * 2 ^ 24 + typeField w * 2 ^ 20 + winField w * 2 ^ 16 + nField w := by
  unfold opField typeField winField nField; omega

/-- The fields of a word written as the sum of its parts are the parts. -/
theorem fields_of_toNat {w : Word} {op ty win n : Nat} (hty : ty < 16) (hwin : win < 16) (hn : n < 65536)
    (h : w.toNat = op * 2 ^ 24 + ty * 2 ^ 20 + win * 2 ^ 16 + n) :
    opField w = op ∧ typeField w = ty ∧ winField w = win ∧ nField w = n := by
  unfold opField typeField winField nField; omega

theorem nField_lt (w : Word) : nField w < 65536 := Nat.mod_lt _ (by decide)

theorem codeField_lt (w : Word) : codeField w < 256 := Nat.mod_lt _ (by decide)

@[simp] theorem winOf_winCode (win : Win) : winOf (winCode win) = some win := by cases win <;> rfl

theorem winOf_eq_some_iff (k : Nat) (win : Win) : winOf k = some win ↔ k = winCode win := by
  constructor
  · intro h
    unfold winOf at h
    split at h <;> cases h <;> rfl
  · rintro rfl
    exact winOf_winCode win

theorem winOf_eq_none_iff (k : Nat) : winOf k = none ↔ 3 ≤ k := by
  match k with
  | 0 | 1 | 2 => simp [winOf]
  | k + 3 => simp [winOf]

/-! ### The encoder -/

theorem encode_fits : ∀ i : Instr, Laws.EncodeFits.Statement i
  | .nop => Laws.EncodeFits.nop
  | .wsfirLp win n => Laws.EncodeFits.wsfirLp win n
  | .wsfirHp win n => Laws.EncodeFits.wsfirHp win n
  | .wsfirBp win n => Laws.EncodeFits.wsfirBp win n
  | .wsfirBs win n => Laws.EncodeFits.wsfirBs win n
  | .kaiserLp n => Laws.EncodeFits.kaiserLp n
  | .kaiserHp n => Laws.EncodeFits.kaiserHp n
  | .kaiserBp n => Laws.EncodeFits.kaiserBp n
  | .kaiserBs n => Laws.EncodeFits.kaiserBs n
  | .kaiserHilbert n => Laws.EncodeFits.kaiserHilbert n
  | .gainQuery => Laws.EncodeFits.gainQuery
  | .gainScale => Laws.EncodeFits.gainScale
  | .modeSelect c => Laws.EncodeFits.modeSelect c
  | .notchOff => Laws.EncodeFits.notchOff
  | .notchOn => Laws.EncodeFits.notchOn
  | .process => Laws.EncodeFits.process

theorem isWordOf_iff_encode (w : Word) (i : Instr) : IsWordOf w i ↔ i.wf = true ∧ encode i = w := by
  refine and_congr_right fun hi => ⟨fun h => ?_, ?_⟩
  · rw [encode, ← h, BitVec.ofNat_toNat, BitVec.setWidth_eq]
  · rintro rfl
    exact (encode_fits i hi).1

/-! ### The decoder of each OP: when it accepts -/

theorem isWordOf_of_decodeWsfir {w : Word} {i : Instr} (hop : opField w = 0x01) (h : decodeWsfir w = .ok i) :
    IsWordOf w i := by
  have hw := toNat_eq_fields w
  have hn := nField_lt w
  unfold decodeWsfir at h
  split at h <;> cases h
  all_goals
    next hty hwin =>
    rw [winOf_eq_some_iff] at hwin
    exact ⟨(tapsFit_iff _).2 hn, by rw [encodeNat]; omega⟩

theorem isWordOf_of_decodeKaiser {w : Word} {i : Instr} (hop : opField w = 0x02) (h : decodeKaiser w = .ok i) :
    IsWordOf w i := by
  have hw := toNat_eq_fields w
  have hn := nField_lt w
  unfold decodeKaiser at h
  split at h <;> cases h
  all_goals exact ⟨(tapsFit_iff _).2 hn, by rw [encodeNat]; omega⟩

theorem decodeSelector_eq_ok_iff (w : Word) (zero one i : Instr) :
    decodeSelector w zero one = .ok i ↔
      w.toNat % 2 ^ 20 = 0 ∧ (typeField w = 0 ∧ zero = i ∨ typeField w = 1 ∧ one = i) := by
  unfold decodeSelector
  split
  · split <;> simp_all
  · split <;> simp_all
  · simp_all

theorem decodeMode_eq_ok_iff (w : Word) (i : Instr) :
    decodeMode w = .ok i ↔ w.toNat / 2 ^ 8 % 2 ^ 16 = 0 ∧ .modeSelect (codeField w) = i := by
  unfold decodeMode
  split <;> simp_all

theorem decodePlain_eq_ok_iff (w : Word) (i j : Instr) :
    decodePlain w j = .ok i ↔ w.toNat % 2 ^ 24 = 0 ∧ j = i := by
  unfold decodePlain
  split <;> simp_all

/-- A format S word is its OP and its TYPE. -/
theorem isWordOf_of_decodeSelector {w : Word} {zero one i : Instr} (hzero : zero.wf = true) (hone : one.wf = true)
    (hzw : encodeNat zero = opField w * 2 ^ 24) (how : encodeNat one = opField w * 2 ^ 24 + 2 ^ 20)
    (h : decodeSelector w zero one = .ok i) : IsWordOf w i := by
  obtain ⟨hlow, ⟨hty, rfl⟩ | ⟨hty, rfl⟩⟩ := (decodeSelector_eq_ok_iff w zero one i).1 h
  · refine ⟨hzero, ?_⟩
    unfold typeField opField at *; omega
  · refine ⟨hone, ?_⟩
    unfold typeField opField at *; omega

/-- A format Z word is its OP. -/
theorem isWordOf_of_decodePlain {w : Word} {i j : Instr} (hj : j.wf = true) (hjw : encodeNat j = opField w * 2 ^ 24)
    (h : decodePlain w j = .ok i) : IsWordOf w i := by
  obtain ⟨hlow, rfl⟩ := (decodePlain_eq_ok_iff w i j).1 h
  refine ⟨hj, ?_⟩
  unfold opField at hjw; omega

theorem isWordOf_of_decodeMode {w : Word} {i : Instr} (hop : opField w = 0x08) (h : decodeMode w = .ok i) :
    IsWordOf w i := by
  obtain ⟨hlow, rfl⟩ := (decodeMode_eq_ok_iff w i).1 h
  refine ⟨(codeFits_iff _).2 (codeField_lt w), ?_⟩
  unfold opField at hop
  rw [encodeNat, codeField]; omega

/-! ### The decoder reads exactly the words of well-formed commands -/

theorem isWordOf_of_decode {w : Word} {i : Instr} (h : decode w = .ok i) : IsWordOf w i := by
  unfold decode at h
  split at h
  case h_1 hop => exact isWordOf_of_decodePlain rfl (by rw [hop]; rfl) h
  case h_2 hop => exact isWordOf_of_decodeWsfir hop h
  case h_3 hop => exact isWordOf_of_decodeKaiser hop h
  case h_4 hop => exact isWordOf_of_decodeSelector rfl rfl (by rw [hop]; rfl) (by rw [hop]; rfl) h
  case h_5 hop => exact isWordOf_of_decodeMode hop h
  case h_6 hop => exact isWordOf_of_decodeSelector rfl rfl (by rw [hop]; rfl) (by rw [hop]; rfl) h
  case h_7 hop => exact isWordOf_of_decodePlain rfl (by rw [hop]; rfl) h
  case h_8 => cases h

/-- The fields of a WSFIR word (format D). -/
theorem wsfir_fields {w : Word} {win : Win} {n : Nat} (ty : Nat) (hty : ty < 16) (hn : tapsFit n = true)
    (hw : w.toNat = (0x01000000 + ty * 2 ^ 20) + winCode win * 2 ^ 16 + n) :
    opField w = 0x01 ∧ typeField w = ty ∧ winField w = winCode win ∧ nField w = n :=
  fields_of_toNat hty ((Laws.EncodeFits.winCode_le win).trans_lt (by decide)) ((tapsFit_iff n).1 hn) (by omega)

/-- The fields of a KAISER word (format D with WIN = 0). -/
theorem kaiser_fields {w : Word} {n : Nat} (ty : Nat) (hty : ty < 16) (hn : tapsFit n = true)
    (hw : w.toNat = (0x02000000 + ty * 2 ^ 20) + n) :
    opField w = 0x02 ∧ typeField w = ty ∧ winField w = 0 ∧ nField w = n :=
  fields_of_toNat hty (by decide) ((tapsFit_iff n).1 hn) (hw.trans (by ring))

theorem decode_of_isWordOf {w : Word} {i : Instr} (h : IsWordOf w i) : decode w = .ok i := by
  obtain ⟨hi, hw⟩ := h
  cases i with
  | wsfirLp win n => simp [decode, decodeWsfir, wsfir_fields 0 (by decide) hi hw]
  | wsfirHp win n => simp [decode, decodeWsfir, wsfir_fields 1 (by decide) hi hw]
  | wsfirBp win n => simp [decode, decodeWsfir, wsfir_fields 2 (by decide) hi hw]
  | wsfirBs win n => simp [decode, decodeWsfir, wsfir_fields 3 (by decide) hi hw]
  | kaiserLp n => simp [decode, decodeKaiser, kaiser_fields 0 (by decide) hi hw]
  | kaiserHp n => simp [decode, decodeKaiser, kaiser_fields 1 (by decide) hi hw]
  | kaiserBp n => simp [decode, decodeKaiser, kaiser_fields 2 (by decide) hi hw]
  | kaiserBs n => simp [decode, decodeKaiser, kaiser_fields 3 (by decide) hi hw]
  | kaiserHilbert n => simp [decode, decodeKaiser, kaiser_fields 4 (by decide) hi hw]
  | modeSelect c =>
    have hc : c < 256 := (codeFits_iff c).1 hi
    rw [encodeNat] at hw
    have hop : opField w = 0x08 := by unfold opField; omega
    have hcode : codeField w = c := by unfold codeField; omega
    simpa [decode, hop, decodeMode_eq_ok_iff, hcode] using (by omega : w.toNat / 2 ^ 8 % 2 ^ 16 = 0)
  | nop | gainQuery | gainScale | notchOff | notchOn | process =>
    obtain rfl := BitVec.eq_of_toNat_eq (y := encode _) (hw.trans (encode_fits _ hi).1.symm)
    rfl

theorem decode_eq_ok_iff (w : Word) (i : Instr) : decode w = .ok i ↔ IsWordOf w i :=
  ⟨isWordOf_of_decode, decode_of_isWordOf⟩

theorem decode_encode {i : Instr} (hi : i.wf = true) : decode (encode i) = .ok i :=
  decode_of_isWordOf ((isWordOf_iff_encode _ i).2 ⟨hi, rfl⟩)

theorem IsWordOf.unique {w : Word} {i j : Instr} (hi : IsWordOf w i) (hj : IsWordOf w j) : i = j :=
  Except.ok.inj ((decode_of_isWordOf hi).symm.trans (decode_of_isWordOf hj))

/-- Settles O1: `decode w = .ok i` and `encode i = w` both say that `w` is the word of the well-formed command `i`. -/
theorem decodeAndEncodeAgree : Obligations.DecodeAndEncodeAgree :=
  ⟨fun _ hi => decode_encode hi, fun w i h => (isWordOf_iff_encode w i).1 (isWordOf_of_decode h)⟩

/-- Settles O3: each of the eight words is the encoding of its command. -/
theorem sampleWordsDecode : Obligations.SampleWordsDecode :=
  ⟨decode_encode (i := .nop) rfl, decode_encode (i := .wsfirLp .hamming 5) rfl,
    decode_encode (i := .wsfirBs .hanning 5) rfl, decode_encode (i := .kaiserHilbert 9) rfl,
    decode_encode (i := .gainScale) rfl, decode_encode (i := .modeSelect 255) rfl,
    decode_encode (i := .notchOn) rfl, decode_encode (i := .process) rfl⟩

/-! ### The table of R66 -/

theorem and_highMask (w : Word) (k : Nat) : w &&& (BitVec.allOnes 32 <<< k) = (w >>> k) <<< k := by
  ext j hj
  by_cases hjk : j < k
  · simp [hjk]
  · simp [hjk, hj, Nat.add_sub_cancel' (not_lt.1 hjk), -BitVec.reduceAllOnes]

/-- Masking off the low `k` bits compares what stands above them. -/
theorem and_mask_eq_iff {w mask pattern : Word} (k : Nat) (hmask : mask = BitVec.allOnes 32 <<< k)
    (hpat : pattern.toNat % 2 ^ k = 0) : w &&& mask = pattern ↔ w.toNat / 2 ^ k = pattern.toNat / 2 ^ k := by
  have hle := Nat.div_mul_le_self w.toNat (2 ^ k)
  have hp : pattern.toNat = pattern.toNat / 2 ^ k * 2 ^ k := (Nat.div_mul_cancel (Nat.dvd_of_mod_eq_zero hpat)).symm
  rw [hmask, and_highMask, ← BitVec.toNat_inj, BitVec.toNat_shiftLeft, BitVec.toNat_ushiftRight,
    Nat.shiftRight_eq_div_pow, Nat.shiftLeft_eq, Nat.mod_eq_of_lt (hle.trans_lt w.isLt)]
  conv_lhs => rw [hp]
  exact Nat.mul_left_inj (Nat.two_pow_pos k).ne'

theorem DecodeRow.read_eq_some_iff (r : DecodeRow) (w : Word) (i : Instr) :
    r.read w = some i ↔ w &&& r.mask = r.pattern ∧ r.build w = some i := by
  unfold DecodeRow.read
  split <;> simp_all

/-- Of the commands of class `C`, the row reads the words of the well-formed ones, and it reads no other word. -/
def DecodeRow.Reads (r : DecodeRow) (C : Instr → Prop) : Prop := ∀ w i, r.read w = some i ↔ C i ∧ IsWordOf w i

theorem fixedRow_reads {pattern : Word} {j : Instr} (hj : j.wf = true) (hjw : encodeNat j = pattern.toNat) :
    (fixedRow pattern j).Reads (j = ·) := by
  intro w i
  rw [DecodeRow.read_eq_some_iff, and_comm]
  refine (and_congr_left' Option.some_inj).trans (and_congr_right ?_)
  rintro rfl
  simp only [fixedRow]
  rw [and_mask_eq_iff 0 (by decide) (Nat.mod_one _), IsWordOf, hjw]
  simp [hj]

/-- A row with no field constraint whose low `k` bits are the operand. -/
theorem reads_of_operand {r : DecodeRow} (k : Nat) {mk : Nat → Instr} (hmask : r.mask = BitVec.allOnes 32 <<< k)
    (hpat : r.pattern.toNat % 2 ^ k = 0) (hbuild : ∀ w, r.build w = some (mk (w.toNat % 2 ^ k)))
    (hwf : ∀ n, (mk n).wf = true ↔ n < 2 ^ k) (hmk : ∀ n, encodeNat (mk n) = r.pattern.toNat + n) :
    r.Reads fun i => ∃ n, mk n = i := by
  intro w i
  have hw := Nat.div_add_mod w.toNat (2 ^ k)
  have hp := Nat.div_add_mod r.pattern.toNat (2 ^ k)
  rw [DecodeRow.read_eq_some_iff, and_mask_eq_iff k hmask hpat, hbuild, Option.some_inj]
  constructor
  · rintro ⟨hhigh, rfl⟩
    refine ⟨⟨_, rfl⟩, (hwf _).2 (Nat.mod_lt _ (Nat.two_pow_pos k)), ?_⟩
    rw [hmk, ← hp, hpat, ← hhigh, Nat.add_zero, hw]
  · rintro ⟨⟨n, rfl⟩, hi, hwn⟩
    have hn := (hwf n).1 hi
    obtain ⟨q, hq⟩ := Nat.dvd_of_mod_eq_zero hpat
    rw [hwn, hmk, hq, Nat.mul_add_mod, Nat.mod_eq_of_lt hn, Nat.mul_add_div (Nat.two_pow_pos k), Nat.div_eq_of_lt hn,
      Nat.mul_div_cancel_left _ (Nat.two_pow_pos k)]
    exact ⟨rfl, rfl⟩

theorem kaiserRow_reads {pattern : Word} {mk : Nat → Instr} (hpat : pattern.toNat % 2 ^ 16 = 0)
    (hwf : ∀ n, (mk n).wf = tapsFit n) (hmk : ∀ n, encodeNat (mk n) = pattern.toNat + n) :
    (kaiserRow pattern mk).Reads fun i => ∃ n, mk n = i :=
  reads_of_operand 16 rfl hpat (fun _ => rfl) (fun n => by rw [hwf]; exact tapsFit_iff n) hmk

/-- The field constraint of a windowed-sinc row says that WIN is the code of a window (R64). -/
theorem wsfirRow_reads {pattern : Word} {mk : Win → Nat → Instr} (hpat : pattern.toNat % 2 ^ 20 = 0)
    (hwf : ∀ win n, (mk win n).wf = tapsFit n)
    (hmk : ∀ win n, encodeNat (mk win n) = pattern.toNat + winCode win * 2 ^ 16 + n) :
    (wsfirRow pattern mk).Reads fun i => ∃ win n, mk win n = i := by
  intro w i
  rw [DecodeRow.read_eq_some_iff]
  simp only [wsfirRow, Option.map_eq_some_iff, winOf_eq_some_iff]
  rw [and_mask_eq_iff 20 (by decide) hpat]
  constructor
  · rintro ⟨hhigh, win, hwin, rfl⟩
    refine ⟨⟨_, _, rfl⟩, by rw [hwf, tapsFit_iff]; exact nField_lt w, ?_⟩
    rw [hmk, ← hwin, winField, nField]; omega
  · rintro ⟨⟨win, n, rfl⟩, hi, hwn⟩
    rw [hwf, tapsFit_iff] at hi
    rw [hmk] at hwn
    have hc := Laws.EncodeFits.winCode_le win
    have hn : nField w = n := by unfold nField; omega
    exact ⟨by omega, win, by unfold winField; omega, by rw [hn]⟩

/-- The row of R66 that reads a command. -/
def rowOf : Instr → DecodeRow
  | .nop => fixedRow 0x00000000 .nop
  | .wsfirLp _ _ => wsfirRow 0x01000000 .wsfirLp
  | .wsfirHp _ _ => wsfirRow 0x01100000 .wsfirHp
  | .wsfirBp _ _ => wsfirRow 0x01200000 .wsfirBp
  | .wsfirBs _ _ => wsfirRow 0x01300000 .wsfirBs
  | .kaiserLp _ => kaiserRow 0x02000000 .kaiserLp
  | .kaiserHp _ => kaiserRow 0x02100000 .kaiserHp
  | .kaiserBp _ => kaiserRow 0x02200000 .kaiserBp
  | .kaiserBs _ => kaiserRow 0x02300000 .kaiserBs
  | .kaiserHilbert _ => kaiserRow 0x02400000 .kaiserHilbert
  | .gainQuery => fixedRow 0x03000000 .gainQuery
  | .gainScale => fixedRow 0x03100000 .gainScale
  | .modeSelect _ => ⟨0x08000000, 0xFFFFFF00, fun w => some (.modeSelect (codeField w))⟩
  | .notchOff => fixedRow 0x09000000 .notchOff
  | .notchOn => fixedRow 0x09100000 .notchOn
  | .process => fixedRow 0x0A000000 .process

theorem rowOf_reads (j : Instr) : ∃ C, C j ∧ (rowOf j).Reads C := by
  cases j with
  | wsfirLp win n | wsfirHp win n | wsfirBp win n | wsfirBs win n =>
    exact ⟨_, ⟨win, n, rfl⟩, wsfirRow_reads rfl (fun _ _ => rfl) fun _ _ => rfl⟩
  | kaiserLp n | kaiserHp n | kaiserBp n | kaiserBs n | kaiserHilbert n =>
    exact ⟨_, ⟨n, rfl⟩, kaiserRow_reads rfl (fun _ => rfl) fun _ => rfl⟩
  | modeSelect c =>
    exact ⟨_, ⟨c, rfl⟩, reads_of_operand 8 rfl (by simp [rowOf]) (fun _ => rfl) codeFits_iff fun _ => rfl⟩
  | nop | gainQuery | gainScale | notchOff | notchOn | process => exact ⟨_, rfl, fixedRow_reads rfl rfl⟩

theorem rowOf_mem (j : Instr) : rowOf j ∈ decodeRows := by
  cases j <;> simp [rowOf, decodeRows]

/-- The table's rows are those of one command of each kind. -/
theorem decodeRows_eq_map : decodeRows = List.map rowOf
    [.nop, .wsfirLp .blackman 0, .wsfirHp .blackman 0, .wsfirBp .blackman 0, .wsfirBs .blackman 0, .kaiserLp 0,
      .kaiserHp 0, .kaiserBp 0, .kaiserBs 0, .kaiserHilbert 0, .gainQuery, .gainScale, .modeSelect 0, .notchOff,
      .notchOn, .process] := rfl

theorem isWordOf_of_row {r : DecodeRow} {w : Word} {i : Instr} (hr : r ∈ decodeRows) (h : r.read w = some i) :
    IsWordOf w i := by
  rw [decodeRows_eq_map] at hr
  obtain ⟨k, -, rfl⟩ := List.mem_map.1 hr
  obtain ⟨C, -, hC⟩ := rowOf_reads k
  exact ((hC w i).1 h).2

theorem rowOf_read {w : Word} {i : Instr} (h : IsWordOf w i) : (rowOf i).read w = some i := by
  obtain ⟨C, hCi, hC⟩ := rowOf_reads i
  exact (hC w i).2 ⟨hCi, h⟩

theorem decodeByTable_eq_some_iff (w : Word) (i : Instr) : decodeByTable w = some i ↔ IsWordOf w i := by
  constructor
  · intro h
    obtain ⟨r, hr, hread⟩ := List.exists_of_findSome?_eq_some h
    exact isWordOf_of_row hr hread
  · intro hi
    cases h : decodeByTable w with
    | none => exact absurd ((List.findSome?_eq_none_iff.1 h _ (rowOf_mem i)).symm.trans (rowOf_read hi)) nofun
    | some j =>
      obtain ⟨r, hr, hread⟩ := List.exists_of_findSome?_eq_some h
      rw [hi.unique (isWordOf_of_row hr hread)]

/-- Two rows match no common word if their patterns differ at a bit that both masks keep. -/
theorem rows_disjoint {a b : DecodeRow} (h : a.pattern &&& b.mask ≠ b.pattern &&& a.mask) (w : Word) :
    ¬(w &&& a.mask = a.pattern ∧ w &&& b.mask = b.pattern) := by
  rintro ⟨ha, hb⟩
  rw [← ha, ← hb, BitVec.and_assoc, BitVec.and_assoc, BitVec.and_comm a.mask] at h
  exact h rfl

/-- Settles O2: both sides read exactly the words of well-formed commands; two patterns differ where both masks look. -/
theorem decodeIsTheOpcodeTable : Obligations.DecodeIsTheOpcodeTable := by
  refine ⟨fun w => Option.ext fun i => ?_, rfl, List.Pairwise.imp (fun h => rows_disjoint h) (by decide)⟩
  rw [decodeByTable_eq_some_iff, ← decode_eq_ok_iff]
  cases decode w <;> simp

/-! ### ILLEGAL words (R67) -/

theorem decodeWsfir_error_iff (w : Word) :
    (∃ e, decodeWsfir w = .error e) ↔ 4 ≤ typeField w ∨ 3 ≤ winField w := by
  rw [← winOf_eq_none_iff]
  unfold decodeWsfir
  match typeField w, winOf (winField w) with
  | 0, some _ | 1, some _ | 2, some _ | 3, some _ => simp
  | 0, none | 1, none | 2, none | 3, none => simp
  | _ + 4, _ => simp

theorem decodeKaiser_error_iff (w : Word) :
    (∃ e, decodeKaiser w = .error e) ↔ 5 ≤ typeField w ∨ winField w ≠ 0 := by
  unfold decodeKaiser
  match typeField w, winField w with
  | 0, 0 | 1, 0 | 2, 0 | 3, 0 | 4, 0 => simp
  | 0, _ + 1 | 1, _ + 1 | 2, _ + 1 | 3, _ + 1 | 4, _ + 1 => simp
  | _ + 5, _ => simp

theorem decodeSelector_error_iff (w : Word) (zero one : Instr) :
    (∃ e, decodeSelector w zero one = .error e) ↔ 2 ≤ typeField w ∨ w.toNat % 2 ^ 20 ≠ 0 := by
  unfold decodeSelector
  match typeField w with
  | 0 | 1 => by_cases hlow : w.toNat % 2 ^ 20 = 0 <;> simp_all
  | _ + 2 => simp

theorem decodeMode_error_iff (w : Word) : (∃ e, decodeMode w = .error e) ↔ w.toNat / 2 ^ 8 % 2 ^ 16 ≠ 0 := by
  unfold decodeMode
  split <;> simp_all

theorem decodePlain_error_iff (w : Word) (i : Instr) :
    (∃ e, decodePlain w i = .error e) ↔ w.toNat % 2 ^ 24 ≠ 0 := by
  unfold decodePlain
  split <;> simp_all

end Sys2Proof

namespace Sys2Proof.Machine

/-! ### The core's move on ILLEGAL words and unknown mode codes (O4, O5) -/

/-- Settles O4: per OP, what its decoder rejects; the core's move on a rejected word is `fail ILLEGAL`. -/
theorem illegalWordsChangeOnlyStatus : Obligations.IllegalWordsChangeOnlyStatus := by
  refine ⟨fun w => ?_, fun s e rest hbusy hd =>
    ⟨fun hin => (step_nil s hin).trans (coreMove_illegal exec s e hbusy hd),
      fun hin => (step_core hin).trans (coreMove_illegal exec { s with inbox := rest } e hbusy hd)⟩⟩
  unfold decode
  split
  case h_1 hop => simp [hop, decodePlain_error_iff]
  case h_2 hop => simp [hop, decodeWsfir_error_iff]
  case h_3 hop => simp [hop, decodeKaiser_error_iff]
  case h_4 hop => simp [hop, decodeSelector_error_iff]
  case h_5 hop => simp [hop, decodeMode_error_iff]
  case h_6 hop => simp [hop, decodeSelector_error_iff]
  case h_7 hop => simp [hop, decodePlain_error_iff]
  case h_8 =>
    simp only [imp_false] at *
    exact iff_of_true ⟨_, rfl⟩ (by omega)

theorem execModeSelect_unknown {c : Nat} (hc : 8 ≤ c) (s : State) : execModeSelect c s = .next (s.fail .badMode) := by
  have hm : modeOf c = none := by
    match c, hc with
    | _ + 8, _ => rfl
  rw [execModeSelect, hm]

/-- Settles O5: the word is the encoding of the command, and no mode has the code. -/
theorem unknownModeCodesDoNothing : Obligations.UnknownModeCodesDoNothing :=
  fun _ hlo hhi => ⟨decode_encode (i := .modeSelect _) ((codeFits_iff _).2 hhi), execModeSelect_unknown hlo⟩

end Sys2Proof.Machine

/-! Spectral inversion (40_fir_windowed_sinc.md R74, O30): fneg through the addition, and the taps of an inverted list. -/

namespace Sys2Proof

/-! ### (-h) +f 1 and 1 -f h -/

theorem operandF_fneg (ftz : Bool) (x : F32) : operandF ftz (fneg x) = fneg (operandF ftz x) := by
  have hsub : isSubnormal (fneg x) = isSubnormal x := by
    rw [Bool.eq_iff_iff, isSubnormal_iff, isSubnormal_iff, fbits_fneg]
  unfold operandF
  rw [hsub, fsign_fneg]
  split_ifs
  · cases fsign x <;> decide
  · rfl

theorem isNaN_operandF (ftz : Bool) {x : F32} (h : isNaN x = false) : isNaN (operandF ftz x) = false := by
  rcases operandF_eq_self_or_zero ftz x with he | hz
  · rw [he, h]
  · exact not_isNaN_of_isFinite (isFinite_of_isZero hz)

theorem sumFinite_comm (ftz : Bool) (a b : F32) : sumFinite ftz a b = sumFinite ftz b a := by
  unfold sumFinite
  rw [add_comm (units a), Bool.and_comm]

/-- Off the NaNs and with one finite operand no free NaN pattern arises, so the order of the operands and the operation's
name do not matter. -/
theorem addCore_comm_of_finite (e : Env) (op op' : NanOp) {a b : F32} (ha : isNaN a = false) (hb : isFinite b = true) :
    addCore e op a b = addCore e op' b a := by
  unfold addCore
  simp only [ha, not_isNaN_of_isFinite hb, not_isInf_of_isFinite hb, Bool.or_self, Bool.false_and, Bool.false_eq_true, if_false,
    sumFinite_comm e.p.ftz a b]

/-- R74: the two statements of the centre tap agree, under FTZ too. -/
theorem Env.add_fneg_fone (e : Env) {x : F32} (h : isNaN x = false) : e.add (fneg x) fone = e.sub fone x := by
  unfold Env.add Env.sub
  rw [operandF_fneg]
  exact addCore_comm_of_finite e _ _ (by rw [isNaN_fneg, isNaN_operandF _ h]) (isFinite_operandF _ (by decide))

/-! ### Taps of a list -/

theorem getF_eq_getElem {l : List F32} {i : Nat} (hi : i < l.length) : getF l i = l[i] := List.getD_eq_getElem l fzero hi

theorem getF_of_length_le {l : List F32} {i : Nat} (hi : l.length ≤ i) : getF l i = fzero := List.getD_eq_default l fzero hi

theorem getF_map_range (f : Nat → F32) {n i : Nat} (hi : i < n) : getF ((List.range n).map f) i = f i := by
  rw [getF_eq_getElem (by simpa using hi), List.getElem_map, List.getElem_range]

end Sys2Proof

namespace Sys2Proof.Machine

@[simp] theorem invert_length (e : Env) (h : List F32) : (invert e h).length = h.length := List.length_mapIdx

theorem getF_invert (e : Env) {h : List F32} {i : Nat} (hi : i < h.length) :
    getF (invert e h) i = if i = (h.length - 1) / 2 then e.add (fneg (getF h i)) fone else fneg (getF h i) := by
  rw [getF_eq_getElem (by rwa [invert_length]), getF_eq_getElem hi]
  exact List.getElem_mapIdx

/-- Settles O30: `getF_invert` off the centre and at it, where `Env.add_fneg_fone` gives the second form. -/
theorem invertAddsOneAtTheCentre : Obligations.InvertAddsOneAtTheCentre := by
  intro e h hodd
  have hcentre : getF (invert e h) ((h.length - 1) / 2) = e.add (fneg (getF h ((h.length - 1) / 2))) fone := by
    rw [getF_invert e (by omega), if_pos rfl]
  refine ⟨invert_length e h, fun n hn hne => ⟨?_, fneg_fneg _, fun _ => units_fneg _⟩, hcentre, fun hnan => ?_⟩
  · rw [getF_invert e hn, if_neg hne]
  · rw [hcentre, e.add_fneg_fone hnan]

end Sys2Proof.Machine

/-! What COMMIT stores (40_fir_windowed_sinc.md R76, R77): the quantized coefficient (O29), HCOEF and QCOEF after a design. -/

namespace Sys2Proof

theorem eq_infF_of_isInf {x : F32} (h : isInf x = true) : x = infF (fsign x) := by
  rw [infF, ← (isInf_iff x).1 h, packF_fields]

end Sys2Proof

namespace Sys2Proof.Machine

/-! ### The quantized coefficient -/

/-- R77 with the infinities written out. -/
theorem quantInt_eq (e : Env) (h : F32) :
    quantInt e h =
      if isNaN (e.mul h e.p.qScale) then 0
      else if e.mul h e.p.qScale = 0x7F800000 then 32767
      else if e.mul h e.p.qScale = 0xFF800000 then -32768
      else min (max (roundAway (e.mul h e.p.qScale)) (-32768)) 32767 := by
  unfold quantInt
  generalize e.mul h e.p.qScale = p
  simp only
  cases hinf : isInf p with
  | true =>
    rw [eq_infF_of_isInf hinf]
    cases fsign p <;> decide
  | false =>
    have hpos : p ≠ 0x7F800000 := by rintro rfl; exact absurd hinf (by decide)
    have hneg : p ≠ 0xFF800000 := by rintro rfl; exact absurd hinf (by decide)
    simp only [hpos, hneg, Bool.false_eq_true, if_false]
    rfl

theorem quantInt_bounds (e : Env) (h : F32) : -32768 ≤ quantInt e h ∧ quantInt e h ≤ 32767 := by
  unfold quantInt
  simp only
  split_ifs
  · decide
  · decide
  · decide
  · exact sat16_bounds _

/-- A QCOEF word holds its s16 value sign-extended (R36). -/
theorem toInt_quantWord (e : Env) (h : F32) : (quantWord e h).toInt = quantInt e h := by
  obtain ⟨hlo, hhi⟩ := quantInt_bounds e h
  exact BitVec.toInt_ofInt_eq_self (by decide) (by omega) (by omega)

/-! ### QUANTIZE -/

theorem readByte_quantizeMem_outside (e : Env) (m : Memory) {a : Nat}
    (h : a < qcoefBase ∨ qcoefBase + 4 * e.p.nmax ≤ a) :
    Memory.readByte (quantizeMem e m) a = Memory.readByte m a :=
  Memory.readByte_writeWords_outside m _ (by simpa using h)

/-- HCOEF ends where QCOEF begins, at NMAX = 4096 (20_memory.md R46). -/
theorem readWord_quantizeMem_hcoef {e : Env} (m : Memory) (hmax : e.p.nmax ≤ 4096) {i : Nat} (hi : i < e.p.nmax) :
    Memory.readWord (quantizeMem e m) (hcoefBase + 4 * i) = Memory.readWord m (hcoefBase + 4 * i) :=
  Memory.readWord_writeWords_outside m _ (.inl (by unfold hcoefBase qcoefBase; omega))

/-- Slot i of QCOEF is quantized from slot i of HCOEF. -/
theorem readWord_quantizeMem {e : Env} {m : Memory} (hw : Memory.wf m = true) {i : Nat} {h : F32} (hi : i < e.p.nmax)
    (hh : Memory.readWord m (hcoefBase + 4 * i) = some h) :
    Memory.readWord (quantizeMem e m) (qcoefBase + 4 * i) = some (quantWord e h) := by
  unfold quantizeMem
  rw [Memory.readWord_writeWords qcoefBase _ hw i (by simpa using hi)]
  simp [Memory.readWords, hh]

/-- Settles O29: QUANTIZE is one write of NMAX words, each the quantized word of its HCOEF slot. -/
theorem quantizeRewritesEverySlot : Obligations.QuantizeRewritesEverySlot := by
  refine fun e m hw _ => ⟨fun n hn => ?_, fun a ha => readByte_quantizeMem_outside e m ha⟩
  obtain ⟨h, hh⟩ := Memory.readWord_isSome m (a := hcoefBase + 4 * n) (.inr (by unfold hcoefBase; omega))
  exact ⟨h, quantWord e h, hh, readWord_quantizeMem hw hn hh, (toInt_quantWord e h).trans (quantInt_eq e h)⟩

/-! ### COMMIT -/

theorem storeTaps_words_length {p : Params} {h : List F32} (hle : h.length ≤ p.nmax) :
    (h ++ zeros (p.nmax - h.length)).length = p.nmax := by
  rw [List.length_append, zeros_length]
  omega

/-- HCOEF after the taps are stored: the taps, and +0.0 past them. -/
theorem readWord_storeTaps {p : Params} {m : Memory} (hw : Memory.wf m = true) {h : List F32} (hle : h.length ≤ p.nmax)
    {i : Nat} (hi : i < p.nmax) : Memory.readWord (storeTaps p m h) (hcoefBase + 4 * i) = some (getF h i) := by
  unfold storeTaps
  rw [Memory.readWord_writeWords hcoefBase _ hw i (by rwa [storeTaps_words_length hle])]
  by_cases htap : i < h.length
  · rw [List.getElem_append_left htap, getF_eq_getElem htap]
  · rw [List.getElem_append_right (by omega), getF_of_length_le (by omega)]
    simp [zeros]

theorem readByte_storeTaps_outside {p : Params} (m : Memory) {h : List F32} (hle : h.length ≤ p.nmax) {a : Nat}
    (ha : a < hcoefBase ∨ hcoefBase + 4 * p.nmax ≤ a) :
    Memory.readByte (storeTaps p m h) a = Memory.readByte m a :=
  Memory.readByte_writeWords_outside m _ (by rwa [storeTaps_words_length hle])

section
variable {s : State} {h : List F32} (hs : LegalMachine s) (hle : h.length ≤ s.cfg.nmax)
include hs hle

theorem readWord_commit_hcoef (n : Nat) {i : Nat} (hi : i < s.cfg.nmax) :
    Memory.readWord (s.commit h n).mem (hcoefBase + 4 * i) = some (getF h i) := by
  obtain ⟨hp, hw⟩ := hs
  obtain ⟨-, -, -, hmax⟩ := Params.sizes_of_wf hp
  rw [commit_mem, readWord_quantizeMem_hcoef (e := s.env) _ hmax hi, readWord_storeTaps hw hle hi]

theorem readWord_commit_qcoef (n : Nat) {i : Nat} (hi : i < s.cfg.nmax) :
    Memory.readWord (s.commit h n).mem (qcoefBase + 4 * i) = some (quantWord s.env (getF h i)) := by
  obtain ⟨-, hw⟩ := hs
  exact readWord_quantizeMem (e := s.env) (Memory.wf_writeWords _ _ hw) hi (readWord_storeTaps hw hle hi)

/-- What COMMIT leaves is the design result of its taps. -/
theorem designResult_commit {n : Nat} (hlen : h.length = n) {tap : Nat → F32} (htap : ∀ i, i < n → getF h i = tap i) :
    DesignResult s (s.commit h n) n tap := by
  have hn : n ≤ s.cfg.nmax := hlen ▸ hle
  have hpast : ∀ i, n ≤ i → getF h i = fzero := fun i hi => getF_of_length_le (hlen ▸ hi)
  have hall : ∀ i, getF h i = if i < n then tap i else fzero := fun i => by
    split_ifs with hi
    · exact htap i hi
    · exact hpast i (by omega)
  refine ⟨fun i hi => ?_, fun i hi hmax => ?_, fun i hi => ?_, fun a hh hq => ?_, rfl⟩
  · rw [readWord_commit_hcoef hs hle n (by omega), htap i hi]
  · rw [readWord_commit_hcoef hs hle n hmax, hpast i hi]
  · rw [readWord_commit_qcoef hs hle n hi, hall i]
  · rw [commit_mem, readByte_quantizeMem_outside s.env _ hq, readByte_storeTaps_outside s.mem hle hh]

end

end Sys2Proof.Machine

/-! The operand checks of the windowed-sinc commands (40_fir_windowed_sinc.md R75, O21). -/

namespace Sys2Proof.Machine

theorem firstErr_failIf (b : Bool) (c : ErrCode) (l : List (Option ErrCode)) :
    firstErr (failIf b c :: l) = if b then some c else firstErr l := by cases b <;> rfl

theorem edgeInside_iff (e : Env) (x : F32) :
    edgeInside e x = true ↔ isFinite x = true ∧ e.lt fzero x = true ∧ e.lt x fhalf = true := by
  simp [edgeInside, and_assoc]

/-- R75 for WSFIR.LP, step by step. -/
theorem checkWsLp_eq (e : Env) (a : ArgRegs) (n : Nat) :
    checkWsLp e a n =
      if n = 0 ∨ e.p.nmax < n then some .range
      else if isZero a.fc2 then some .unset
      else if ¬(isFinite a.fc2 = true ∧ e.lt fzero a.fc2 = true ∧ e.lt a.fc2 fhalf = true) then some .range
      else none := by
  simp [checkWsLp, tapRange, edgesSet, edgesInside, firstErr_failIf, ← edgeInside_iff]

/-- R75 for WSFIR.HP, step by step. -/
theorem checkWsHp_eq (e : Env) (a : ArgRegs) (n : Nat) :
    checkWsHp e a n =
      if n = 0 ∨ e.p.nmax < n then some .range
      else if n % 2 = 0 then some .range
      else if isZero a.fc1 then some .unset
      else if ¬(isFinite a.fc1 = true ∧ e.lt fzero a.fc1 = true ∧ e.lt a.fc1 fhalf = true) then some .range
      else none := by
  simp [checkWsHp, tapRange, oddTaps, edgesSet, edgesInside, firstErr_failIf, ← edgeInside_iff]

/-- R75 for WSFIR.BP and WSFIR.BS, step by step. -/
theorem checkWsBand_eq (e : Env) (a : ArgRegs) (n : Nat) :
    checkWsBand e a n =
      if n = 0 ∨ e.p.nmax < n then some .range
      else if n % 2 = 0 then some .range
      else if isZero a.fc1 ∨ isZero a.fc2 then some .unset
      else if ¬((isFinite a.fc1 = true ∧ e.lt fzero a.fc1 = true ∧ e.lt a.fc1 fhalf = true)
          ∧ (isFinite a.fc2 = true ∧ e.lt fzero a.fc2 = true ∧ e.lt a.fc2 fhalf = true)) then some .range
      else if ¬(e.lt a.fc1 a.fc2 = true) then some .range
      else none := by
  simp [checkWsBand, tapRange, oddTaps, edgesSet, edgesInside, edgesOrdered, firstErr_failIf, ← edgeInside_iff,
    not_and_or, -not_and]

/-- A failing check ends a design command with its code; only ERR and BUSY change (R16). -/
theorem design_stops (s : State) {check : Option ErrCode} {c : ErrCode} (hc : check = some c) (h : List F32) (n : Nat) :
    (Host.Outcome.next (s.design check h n) : Host.Outcome State Fault Refusal)
      = .next { s with err := c, busy := false } := by
  rw [hc, design_some]; rfl

/-- Settles O21: each command is a design under its check, and the check is the chain of R75. -/
theorem wsfirChecksInOrder : Obligations.WsfirChecksInOrder := by
  intro s win n c
  refine ⟨fun hc => ?_, fun hc => ?_, fun hc => ?_⟩
  · exact design_stops s ((checkWsLp_eq s.env s.snap.args n).trans hc) _ n
  · exact design_stops s ((checkWsHp_eq s.env s.snap.args n).trans hc) _ n
  · have hband := (checkWsBand_eq s.env s.snap.args n).trans hc
    exact ⟨design_stops s hband _ n, design_stops s hband _ n⟩

end Sys2Proof.Machine

/-! The windowed-sinc designs (40_fir_windowed_sinc.md R78 to R81, O23, O24): their taps, and what a design command leaves. -/

namespace Sys2Proof.Machine

/-! ### Taps -/

@[simp] theorem wsLp_length (e : Env) (n : Nat) (win : Win) (fc : F32) : (wsLp e n win fc).length = n := by simp [wsLp]

@[simp] theorem wsHp_length (e : Env) (n : Nat) (win : Win) (fc : F32) : (wsHp e n win fc).length = n := by simp [wsHp]

@[simp] theorem wsBs_length (e : Env) (n : Nat) (win : Win) (fc1 fc2 : F32) : (wsBs e n win fc1 fc2).length = n := by
  simp [wsBs]

@[simp] theorem wsBp_length (e : Env) (n : Nat) (win : Win) (fc1 fc2 : F32) : (wsBp e n win fc1 fc2).length = n := by
  simp [wsBp]

section
variable (e : Env) {n i : Nat} (win : Win) (hi : i < n)
include hi

theorem getF_wsLp (fc : F32) : getF (wsLp e n win fc) i = e.mul (idealTap e n fc i) (windowTap e win n i) :=
  getF_map_range _ hi

/-- `getF_invert` for a list of n taps. -/
theorem getF_invert_of_length {h : List F32} (hlen : h.length = n) :
    getF (invert e h) i = if i = (n - 1) / 2 then e.add (fneg (getF h i)) fone else fneg (getF h i) := by
  subst hlen
  exact getF_invert e hi

theorem getF_wsBs (fc1 fc2 : F32) :
    getF (wsBs e n win fc1 fc2) i = e.add (getF (wsLp e n win fc1) i) (getF (invert e (wsLp e n win fc2)) i) := by
  unfold wsBs
  rw [getF_eq_getElem (by simpa using hi), getF_eq_getElem (by simpa using hi), getF_eq_getElem (by simpa using hi),
    List.getElem_zipWith]

end

/-! ### Completion -/

/-- A design command whose check passes completes with the design result of its taps. -/
theorem design_completes {s : State} (hs : LegalMachine s) {check : Option ErrCode} (hc : check = none) {h : List F32}
    {n : Nat} (hlen : h.length = n) (hn : n ≤ s.cfg.nmax) {tap : Nat → F32} (htap : ∀ i, i < n → getF h i = tap i) :
    ∃ t, (Host.Outcome.next (s.design check h n) : Host.Outcome State Fault Refusal) = .next t ∧ DesignResult s t n tap := by
  rw [hc, design_none]
  exact ⟨_, rfl, designResult_commit hs (hlen ▸ hn) hlen htap⟩

section
variable {e : Env} {a : ArgRegs} {n : Nat} (hn : n ≤ e.p.nmax)
include hn

theorem checkWsLp_passes (hpos : 1 ≤ n) (hf : FreqOk e a.fc2) : checkWsLp e a n = none := by
  obtain ⟨hset, hin⟩ := hf
  rw [checkWsLp_eq, if_neg (by omega), if_neg (by simp [hset]), if_neg (not_not.2 hin)]

theorem checkWsHp_passes (hodd : n % 2 = 1) (hf : FreqOk e a.fc1) : checkWsHp e a n = none := by
  obtain ⟨hset, hin⟩ := hf
  rw [checkWsHp_eq, if_neg (by omega), if_neg (by omega), if_neg (by simp [hset]), if_neg (not_not.2 hin)]

theorem checkWsBand_passes (hodd : n % 2 = 1) (hlo : FreqOk e a.fc1) (hhi : FreqOk e a.fc2)
    (hlt : e.lt a.fc1 a.fc2 = true) : checkWsBand e a n = none := by
  obtain ⟨hset, hin⟩ := hlo
  obtain ⟨hset', hin'⟩ := hhi
  rw [checkWsBand_eq, if_neg (by omega), if_neg (by omega), if_neg (by simp [hset, hset']),
    if_neg (not_not.2 ⟨hin, hin'⟩), if_neg (not_not.2 hlt)]

end

/-- Settles O23: the checks pass, and the taps are those of `wsLp` and of its inverse. -/
theorem wsfirLowpassAndHighpassDesigns : Obligations.WsfirLowpassAndHighpassDesigns := by
  refine fun s win n hs hpos hn => ⟨fun hf => ?_, fun hodd hf => ?_⟩
  · exact design_completes hs (checkWsLp_passes (e := s.env) hn hpos hf) (wsLp_length ..) hn fun i hi =>
      getF_wsLp s.env win hi _
  · refine design_completes hs (checkWsHp_passes (e := s.env) hn hodd hf) (wsHp_length ..) hn fun i hi => ?_
    rw [wsHp, getF_invert_of_length s.env hi (wsLp_length ..), getF_wsLp s.env win hi]

/-- Settles O24: the checks pass, the taps of WSFIR.BS are sums, and those of WSFIR.BP their inversion. -/
theorem wsfirBandDesigns : Obligations.WsfirBandDesigns := by
  intro s win n hs _ hn hodd hlo hhi hlt
  have hc := checkWsBand_passes (e := s.env) hn hodd hlo hhi hlt
  refine ⟨design_completes hs hc (wsBs_length ..) hn fun i hi => ?_,
    design_completes hs hc (wsBp_length ..) hn fun i hi => ?_⟩
  · rw [getF_wsBs s.env win hi, getF_invert_of_length s.env hi (wsLp_length ..), getF_wsLp s.env win hi,
      getF_wsLp s.env win hi]
  · rw [wsBp, getF_invert_of_length s.env hi (wsBs_length ..), getF_wsBs s.env win hi,
      getF_invert_of_length s.env hi (wsLp_length ..), getF_wsLp s.env win hi, getF_wsLp s.env win hi]

end Sys2Proof.Machine

/-! Partner designs (40_fir_windowed_sinc.md R79, R81, 42_fir_kaiser.md R90, R92, O28). -/

namespace Sys2Proof.Machine

@[simp] theorem kaiserLpTaps_length (e : Env) (n : Nat) (kf kastop : F32) : (kaiserLpTaps e n kf kastop).length = n := by
  simp [kaiserLpTaps]

@[simp] theorem kaiserBpTaps_length (e : Env) (n : Nat) (kf kdf kastop : F32) :
    (kaiserBpTaps e n kf kdf kastop).length = n := by simp [kaiserBpTaps]

/-! ### No check answers OK -/

theorem failIf_ne_ok (b : Bool) {c : ErrCode} (hc : c ≠ .ok) : failIf b c ≠ some .ok := by cases b <;> simp [hc]

theorem firstErr_ne_ok {l : List (Option ErrCode)} (h : ∀ o ∈ l, o ≠ some .ok) : firstErr l ≠ some .ok := by
  induction l with
  | nil => simp
  | cons o l ih =>
    rw [List.forall_mem_cons] at h
    obtain ⟨ho, hl⟩ := h
    cases o with
    | none => exact ih hl
    | some c => exact ho

@[simp] theorem tapRange_ne_ok (p : Params) (n : Nat) : tapRange p n ≠ some .ok := failIf_ne_ok _ (by decide)

@[simp] theorem oddTaps_ne_ok (n : Nat) : oddTaps n ≠ some .ok := failIf_ne_ok _ (by decide)

@[simp] theorem edgesSet_ne_ok (edges : List F32) : edgesSet edges ≠ some .ok := failIf_ne_ok _ (by decide)

@[simp] theorem edgesInside_ne_ok (e : Env) (edges : List F32) : edgesInside e edges ≠ some .ok :=
  failIf_ne_ok _ (by decide)

@[simp] theorem edgesOrdered_ne_ok (e : Env) (lo hi : F32) : edgesOrdered e lo hi ≠ some .ok := failIf_ne_ok _ (by decide)

@[simp] theorem stopbandRange_ne_ok (e : Env) (x : F32) : stopbandRange e x ≠ some .ok := failIf_ne_ok _ (by decide)

@[simp] theorem kaiserFreq_ne_ok (e : Env) (x : F32) : kaiserFreq e x ≠ some .ok := firstErr_ne_ok (by simp)

@[simp] theorem kaiserBand_ne_ok (e : Env) (a : ArgRegs) : kaiserBand e a ≠ some .ok := failIf_ne_ok _ (by decide)

/-! ### Where a design ends OK -/

/-- A design command that checks N first and ends OK has committed its taps. -/
theorem coefAt_of_design_ok {s t : State} (hs : LegalMachine s) {rest : List (Option ErrCode)}
    (hrest : ∀ o ∈ rest, o ≠ some .ok) {h : List F32} {n : Nat} (hlen : h.length = n)
    (ht : (Host.Outcome.next (s.design (firstErr (tapRange s.cfg n :: rest)) h n) : Host.Outcome State Fault Refusal)
      = .next t) (hok : t.err = .ok) {i : Nat} (hi : i < n) : coefAt t i = getF h i := by
  obtain rfl := Host.Outcome.next.inj ht
  rcases design_cases s (firstErr (tapRange s.cfg n :: rest)) h n with ⟨c, hc, hd⟩ | ⟨hnone, hd⟩
  · have hcode : c = .ok := by rwa [hd] at hok
    exact absurd (hc.trans (congrArg some hcode))
      (firstErr_ne_ok (List.forall_mem_cons.2 ⟨tapRange_ne_ok _ _, hrest⟩))
  · have hrange : tapRange s.cfg n = none := (firstErr_eq_none _).1 hnone _ List.mem_cons_self
    have hn : ¬(n = 0 ∨ s.cfg.nmax < n) := by simpa [tapRange, failIf_eq_none] using hrange
    rw [hd, coefAt, readWord_commit_hcoef hs (by omega) n (by omega), Option.getD_some]

/-- Of two design commands on one state that end OK, the one committing the inverted taps leaves the other's inverted. -/
theorem coefAt_inverts {s t t' : State} (hs : LegalMachine s) {rest rest' : List (Option ErrCode)}
    (hrest : ∀ o ∈ rest, o ≠ some .ok) (hrest' : ∀ o ∈ rest', o ≠ some .ok) {h : List F32} {n : Nat} (hlen : h.length = n)
    (hok : t.err = .ok) (hok' : t'.err = .ok)
    (ht : (Host.Outcome.next (s.design (firstErr (tapRange s.cfg n :: rest)) (invert s.env h) n) :
      Host.Outcome State Fault Refusal) = .next t)
    (ht' : (Host.Outcome.next (s.design (firstErr (tapRange s.cfg n :: rest')) h n) :
      Host.Outcome State Fault Refusal) = .next t') {i : Nat} (hi : i < n) :
    coefAt t i = if i = (n - 1) / 2 then s.env.add (fneg (coefAt t' i)) fone else fneg (coefAt t' i) := by
  rw [coefAt_of_design_ok hs hrest (by rwa [invert_length]) ht hok hi, coefAt_of_design_ok hs hrest' hlen ht' hok' hi]
  exact getF_invert_of_length s.env hi hlen

/-- Settles O28: in each pair the first command commits the inversion of the taps the second commits. -/
theorem designsInvertTheirPartners : Obligations.DesignsInvertTheirPartners := by
  intro s t t' win n hs hok hok' hpair i hi
  rcases hpair with ⟨hfc, ht, ht'⟩ | ⟨ht, ht'⟩ | ⟨ht, ht'⟩ | ⟨ht, ht'⟩
  · have hhp : exec (.wsfirHp win n) s = .next
        (s.design (checkWsHp s.env s.snap.args n) (invert s.env (wsLp s.env n win s.snap.args.fc2)) n) := by
      rw [← hfc]; rfl
    exact coefAt_inverts hs (by simp) (by simp) (wsLp_length ..) hok hok' (hhp.symm.trans ht) ht' hi
  · exact coefAt_inverts hs (by simp) (by simp) (wsBs_length ..) hok hok' ht ht' hi
  · exact coefAt_inverts hs (by simp) (by simp) (kaiserLpTaps_length ..) hok hok' ht ht' hi
  · exact coefAt_inverts hs (by simp) (by simp) (kaiserBpTaps_length ..) hok hok' ht ht' hi

end Sys2Proof.Machine

/-! The gain normalizer (41_fir_gain.md R82 to R84, O34 to O36). -/

namespace Sys2Proof

theorem Env.isFinite_min (e : Env) {a b : F32} (ha : isFinite a = true) (hb : isFinite b = true) :
    isFinite (e.min a b) = true := by
  rcases e.min_mem (not_isNaN_of_isFinite ha) (not_isNaN_of_isFinite hb) with h | h <;> rw [h] <;> assumption

/-- A product of finite factors that is not finite has overflowed to an infinity. -/
theorem Env.isInf_mul_of_not_isFinite (e : Env) {a b : F32} (ha : isFinite a = true) (hb : isFinite b = true)
    (h : isFinite (e.mul a b) = false) : isInf (e.mul a b) = true := by
  rcases kind_cases (e.mul a b) with hfin | hinf | hnan
  · rw [h] at hfin; cases hfin
  · exact hinf
  · rw [e.mul_finite ha hb] at hnan; cases hnan

theorem Params.isFinite_gscaleMax_of_wf {p : Params} (h : p.wf = true) : isFinite p.gscaleMax = true := by
  simp only [Params.wf, firOk, Bool.and_eq_true] at h
  tauto

end Sys2Proof

namespace Sys2Proof.Machine

/-! ### The stored design -/

theorem taps_eq_map_coefAt (s : State) : s.taps = (List.range s.hLen.toNat).map (coefAt s) := rfl

theorem scaledTaps_eq_map (s : State) :
    scaledTaps s = (List.range s.hLen.toNat).map fun n => s.env.mul (coefAt s n) (cappedScale s) := List.map_map

@[simp] theorem scaledTaps_length (s : State) : (scaledTaps s).length = s.hLen.toNat := by simp [scaledTaps_eq_map]

theorem any_isInf_scaledTaps_iff (s : State) :
    (scaledTaps s).any isInf = true
      ↔ ∃ n, n < s.hLen.toNat ∧ isInf (s.env.mul (coefAt s n) (cappedScale s)) = true := by
  simp [scaledTaps_eq_map]

/-- A slot of HCOEF is never unwritten (R34), so it holds its coefficient. -/
theorem readWord_hcoef (s : State) (n : Nat) : Memory.readWord s.mem (hcoefBase + 4 * n) = some (coefAt s n) := by
  obtain ⟨w, hw⟩ := Memory.readWord_isSome s.mem (a := hcoefBase + 4 * n) (.inr (by unfold hcoefBase; omega))
  rw [coefAt, hw, Option.getD_some]

/-- A fold of R82 over the stored design, its terms by index. -/
theorem corrSum_taps (e : Env) (s : State) (f : F32) (ref : F32 → F32) :
    corrSum e s.taps f ref
      = e.sum ((List.range s.hLen.toNat).map fun n =>
          e.mul (coefAt s n) (ref (e.mul (e.mul (twoPi e) f) (natF n)))) := by
  unfold corrSum
  congr 1
  apply List.ext_getElem <;> simp [taps_eq_map_coefAt]

/-! ### GAIN.QUERY -/

/-- The argument checks of R83 as one condition: both fail with RANGE. -/
theorem checkQuery_eq (s : State) :
    checkQuery s =
      if s.hLen = 0 ∨ isFinite s.snap.args.gfreq = false ∨ s.env.lt s.snap.args.gfreq fzero = true
        ∨ s.env.lt fhalf s.snap.args.gfreq = true then some .range else none := by
  simp only [checkQuery, firstErr_failIf, firstErr_nil]
  split_ifs <;> simp_all

/-- Where GAIN.QUERY fails, and what it does elsewhere (R83). -/
theorem execGainQuery_eq_ite (s : State) :
    execGainQuery s =
      if s.hLen = 0 ∨ isFinite s.snap.args.gfreq = false ∨ s.env.lt s.snap.args.gfreq fzero = true
          ∨ s.env.lt fhalf s.snap.args.gfreq = true ∨ isFinite (corr s.env s.taps s.snap.args.gfreq) = false then
        .next (s.fail .range)
      else .next { s with gain := corr s.env s.taps s.snap.args.gfreq }.done := by
  unfold execGainQuery
  rw [checkQuery_eq]
  split_ifs <;> simp_all

/-- Settles O34: no failure of R83 applies, and the magnitude written is that of the folds by index. -/
theorem gainQueryMeasures : Obligations.GainQueryMeasures := by
  intro s e f angle c d g hlen hfin hneg hhalf hg
  have hcorr : corr s.env s.taps s.snap.args.gfreq = g := by
    rw [corr, corrSum_taps, corrSum_taps]
    rfl
  have hrun := execGainQuery_eq_ite s
  rw [hcorr, if_neg] at hrun
  · exact hrun
  · rintro (h | h | h | h | h)
    · exact hlen h
    · cases hfin.symm.trans h
    · cases hneg.symm.trans h
    · cases hhalf.symm.trans h
    · cases hg.symm.trans h

/-! ### GAIN.SCALE -/

/-- The argument checks of R84 as one condition: both fail with RANGE. -/
theorem checkScale_eq (s : State) :
    checkScale s =
      if s.hLen = 0 ∨ isFinite s.snap.args.gscale = false ∨ s.env.lt fzero s.snap.args.gscale = false then
        some .range else none := by
  simp only [checkScale, firstErr_failIf, firstErr_nil]
  split_ifs <;> simp_all

/-- Where GAIN.SCALE fails, and what it does elsewhere (R84). -/
theorem execGainScale_eq_ite (s : State) :
    execGainScale s =
      if s.hLen = 0 ∨ isFinite s.snap.args.gscale = false ∨ s.env.lt fzero s.snap.args.gscale = false
          ∨ ∃ n, n < s.hLen.toNat ∧ isInf (s.env.mul (coefAt s n) (cappedScale s)) = true then
        .next (s.fail .range)
      else .next { s with mem := quantizeMem s.env (Memory.writeWords s.mem hcoefBase (scaledTaps s)) }.done := by
  unfold execGainScale
  simp only [checkScale_eq, ← any_isInf_scaledTaps_iff]
  generalize (scaledTaps s).any isInf = overflow
  split_ifs <;> simp_all

/-- HCOEF after the products are stored: they replace the design, and the slots past it stay. -/
theorem readWord_write_scaledTaps {s : State} (hw : Memory.wf s.mem = true) (i : Nat) :
    Memory.readWord (Memory.writeWords s.mem hcoefBase (scaledTaps s)) (hcoefBase + 4 * i)
      = some (if i < s.hLen.toNat then s.env.mul (coefAt s i) (cappedScale s) else coefAt s i) := by
  split_ifs with hi
  · rw [Memory.readWord_writeWords hcoefBase _ hw i (by rwa [scaledTaps_length])]
    simp [scaledTaps_eq_map]
  · rw [Memory.readWord_writeWords_outside _ _ (.inr (by rw [scaledTaps_length]; omega)), readWord_hcoef]

/-- Settles O35: no failure of R84 applies; one write of the products into HCOEF, then QUANTIZE. -/
theorem gainScaleScales : Obligations.GainScaleScales := by
  intro s hs hne hlen e m hfin hpos hprod
  obtain ⟨hp, hw⟩ := hs
  obtain ⟨-, -, -, hmax⟩ := Params.sizes_of_wf hp
  refine ⟨_, (execGainScale_eq_ite s).trans (if_neg ?_), fun n hn => ⟨?_, ?_⟩, fun a hh hq => ?_, rfl⟩
  · rintro (h | h | h | ⟨n, hn, h⟩)
    · exact hne h
    · cases hfin.symm.trans h
    · cases hpos.symm.trans h
    · cases (hprod n hn).symm.trans h
  · exact (readWord_quantizeMem_hcoef (e := s.env) _ hmax hn).trans (readWord_write_scaledTaps hw n)
  · exact readWord_quantizeMem (e := s.env) (Memory.wf_writeWords _ _ hw) hn (readWord_write_scaledTaps hw n)
  · exact (readByte_quantizeMem_outside s.env _ hq).trans
      (Memory.readByte_writeWords_outside _ _ (by rw [scaledTaps_length]; omega))

/-- Settles O36: each cause is one of the failures of R83 and R84; a finite coefficient times the finite factor fails to be
finite by overflow only. -/
theorem gainChecksInOrder : Obligations.GainChecksInOrder := by
  intro s e a stopped m
  refine ⟨fun h => (execGainQuery_eq_ite s).trans (if_pos h), fun h => (execGainScale_eq_ite s).trans (if_pos ?_)⟩
  rcases h with h | h | h | ⟨n, hn, hinf | ⟨hp, hcoef, hprod⟩⟩
  · exact .inl h
  · exact .inr (.inl h)
  · exact .inr (.inr (.inl h))
  · exact .inr (.inr (.inr ⟨n, hn, hinf⟩))
  · cases hfin : isFinite s.snap.args.gscale with
    | false => exact .inr (.inl rfl)
    | true =>
      have hm := e.isFinite_min hfin (Params.isFinite_gscaleMax_of_wf hp)
      exact .inr (.inr (.inr ⟨n, hn, e.isInf_mul_of_not_isFinite hcoef hm hprod⟩))

end Sys2Proof.Machine

/-! The operand checks of the Kaiser commands (42_fir_kaiser.md R88, O22). -/

namespace Sys2Proof.Machine

/-- R88 step 3, ahead of the checks that follow it. -/
theorem firstErr_stopbandRange (e : Env) (x : F32) (l : List (Option ErrCode)) :
    firstErr (stopbandRange e x :: l) =
      if ¬(isFinite x = true ∧ e.lt x fzero = false ∧ e.lt e.p.aMax x = false) then some .range else firstErr l := by
  rw [stopbandRange, firstErr_failIf]
  cases isFinite x <;> simp [Decidable.imp_iff_not_or]

/-- R88 steps 4 and 5 for one frequency, ahead of the checks that follow them. -/
theorem firstErr_kaiserFreq (e : Env) (x : F32) (l : List (Option ErrCode)) :
    firstErr (kaiserFreq e x :: l) =
      if isZero x then some .unset
      else if ¬(isFinite x = true ∧ e.lt fzero x = true ∧ e.lt x fhalf = true) then some .range
      else firstErr l := by
  have hflat : firstErr (kaiserFreq e x :: l) = firstErr (edgesSet [x] :: edgesInside e [x] :: l) := by
    rw [kaiserFreq]
    cases edgesSet [x] with
    | some c => rfl
    | none => cases edgesInside e [x] <;> rfl
  rw [hflat]
  simp [edgesSet, edgesInside, firstErr_failIf, ← edgeInside_iff]

/-- The band condition of R88 step 5, ahead of the checks that follow it. -/
theorem firstErr_kaiserBand (e : Env) (a : ArgRegs) (l : List (Option ErrCode)) :
    firstErr (kaiserBand e a :: l) =
      if ¬(e.lt fzero (e.sub a.kf a.kdf) = true ∧ e.lt (e.add a.kf a.kdf) fhalf = true) then some .range
      else firstErr l := by
  simp [kaiserBand, firstErr_failIf, Decidable.imp_iff_not_or]

/-- R88 for KAISER.LP, step by step. -/
theorem checkKaiserLp_eq (e : Env) (a : ArgRegs) (n : Nat) :
    checkKaiserLp e a n =
      if n = 0 ∨ e.p.nmax < n then some .range
      else if ¬(isFinite a.kastop = true ∧ e.lt a.kastop fzero = false ∧ e.lt e.p.aMax a.kastop = false) then some .range
      else if isZero a.kf then some .unset
      else if ¬(isFinite a.kf = true ∧ e.lt fzero a.kf = true ∧ e.lt a.kf fhalf = true) then some .range
      else none := by
  rw [checkKaiserLp, tapRange, firstErr_failIf, firstErr_stopbandRange, firstErr_kaiserFreq, firstErr_nil]
  simp only [decide_eq_true_eq]

/-- R88 for KAISER.HP, step by step. -/
theorem checkKaiserHp_eq (e : Env) (a : ArgRegs) (n : Nat) :
    checkKaiserHp e a n =
      if n = 0 ∨ e.p.nmax < n then some .range
      else if n % 2 = 0 then some .range
      else if ¬(isFinite a.kastop = true ∧ e.lt a.kastop fzero = false ∧ e.lt e.p.aMax a.kastop = false) then some .range
      else if isZero a.kf then some .unset
      else if ¬(isFinite a.kf = true ∧ e.lt fzero a.kf = true ∧ e.lt a.kf fhalf = true) then some .range
      else none := by
  rw [checkKaiserHp, tapRange, oddTaps, firstErr_failIf, firstErr_failIf, firstErr_stopbandRange, firstErr_kaiserFreq,
    firstErr_nil]
  simp only [decide_eq_true_eq]

/-- R88 for KAISER.BP, step by step. -/
theorem checkKaiserBp_eq (e : Env) (a : ArgRegs) (n : Nat) :
    checkKaiserBp e a n =
      if n = 0 ∨ e.p.nmax < n then some .range
      else if ¬(isFinite a.kastop = true ∧ e.lt a.kastop fzero = false ∧ e.lt e.p.aMax a.kastop = false) then some .range
      else if isZero a.kf then some .unset
      else if ¬(isFinite a.kf = true ∧ e.lt fzero a.kf = true ∧ e.lt a.kf fhalf = true) then some .range
      else if isZero a.kdf then some .unset
      else if ¬(isFinite a.kdf = true ∧ e.lt fzero a.kdf = true ∧ e.lt a.kdf fhalf = true) then some .range
      else if ¬(e.lt fzero (e.sub a.kf a.kdf) = true ∧ e.lt (e.add a.kf a.kdf) fhalf = true) then some .range
      else none := by
  rw [checkKaiserBp, tapRange, firstErr_failIf, firstErr_stopbandRange, firstErr_kaiserFreq, firstErr_kaiserFreq,
    firstErr_kaiserBand, firstErr_nil]
  simp only [decide_eq_true_eq]

/-- R88 for KAISER.BS, step by step. -/
theorem checkKaiserBs_eq (e : Env) (a : ArgRegs) (n : Nat) :
    checkKaiserBs e a n =
      if n = 0 ∨ e.p.nmax < n then some .range
      else if n % 2 = 0 then some .range
      else if ¬(isFinite a.kastop = true ∧ e.lt a.kastop fzero = false ∧ e.lt e.p.aMax a.kastop = false) then some .range
      else if isZero a.kf then some .unset
      else if ¬(isFinite a.kf = true ∧ e.lt fzero a.kf = true ∧ e.lt a.kf fhalf = true) then some .range
      else if isZero a.kdf then some .unset
      else if ¬(isFinite a.kdf = true ∧ e.lt fzero a.kdf = true ∧ e.lt a.kdf fhalf = true) then some .range
      else if ¬(e.lt fzero (e.sub a.kf a.kdf) = true ∧ e.lt (e.add a.kf a.kdf) fhalf = true) then some .range
      else none := by
  rw [checkKaiserBs, tapRange, oddTaps, firstErr_failIf, firstErr_failIf, firstErr_stopbandRange, firstErr_kaiserFreq,
    firstErr_kaiserFreq, firstErr_kaiserBand, firstErr_nil]
  simp only [decide_eq_true_eq]

/-- R88 for KAISER.HILBERT, step by step. -/
theorem checkHilbert_eq (e : Env) (a : ArgRegs) (n : Nat) :
    checkHilbert e a n =
      if n = 0 ∨ e.p.nmax < n then some .range
      else if n % 4 ≠ 1 then some .range
      else if ¬(isFinite a.kastop = true ∧ e.lt a.kastop fzero = false ∧ e.lt e.p.aMax a.kastop = false) then some .range
      else none := by
  rw [checkHilbert, tapRange, firstErr_failIf, firstErr_failIf, firstErr_stopbandRange, firstErr_nil]
  simp only [decide_eq_true_eq]

/-- Settles O22: each command is a design under its check, and the check is the chain of R88. -/
theorem kaiserChecksInOrder : Obligations.KaiserChecksInOrder := by
  intro s n c
  refine ⟨fun hc => ?_, fun hc => ?_, fun hc => ?_, fun hc => ?_, fun hc => ?_⟩
  · exact design_stops s ((checkKaiserLp_eq s.env s.snap.args n).trans hc) _ n
  · exact design_stops s ((checkKaiserHp_eq s.env s.snap.args n).trans hc) _ n
  · exact design_stops s ((checkKaiserBp_eq s.env s.snap.args n).trans hc) _ n
  · exact design_stops s ((checkKaiserBs_eq s.env s.snap.args n).trans hc) _ n
  · exact design_stops s ((checkHilbert_eq s.env s.snap.args n).trans hc) _ n

end Sys2Proof.Machine

/-! The Kaiser designs (42_fir_kaiser.md R89 to R93, O25 to O27): the checks of a legal command pass, and its taps. -/

namespace Sys2Proof.Machine

/-! ### Legal operands pass -/

section
variable {e : Env} {a : ArgRegs} {n : Nat} (hn : n ≤ e.p.nmax) (hstop : StopbandOk e a.kastop)
include hn hstop

theorem checkKaiserLp_passes (hpos : 1 ≤ n) (hf : FreqOk e a.kf) : checkKaiserLp e a n = none := by
  unfold StopbandOk at hstop
  obtain ⟨hset, hin⟩ := hf
  rw [checkKaiserLp_eq, if_neg (by omega), if_neg (not_not.2 hstop), if_neg (by simp [hset]), if_neg (not_not.2 hin)]

theorem checkKaiserHp_passes (hodd : n % 2 = 1) (hf : FreqOk e a.kf) : checkKaiserHp e a n = none := by
  unfold StopbandOk at hstop
  obtain ⟨hset, hin⟩ := hf
  rw [checkKaiserHp_eq, if_neg (by omega), if_neg (by omega), if_neg (not_not.2 hstop), if_neg (by simp [hset]),
    if_neg (not_not.2 hin)]

theorem checkHilbert_passes (hmod : n % 4 = 1) : checkHilbert e a n = none := by
  unfold StopbandOk at hstop
  rw [checkHilbert_eq, if_neg (by omega), if_neg (not_not.2 hmod), if_neg (not_not.2 hstop)]

section
variable (hf : FreqOk e a.kf) (hdf : FreqOk e a.kdf) (hlo : e.lt fzero (e.sub a.kf a.kdf) = true)
  (hhi : e.lt (e.add a.kf a.kdf) fhalf = true)
include hf hdf hlo hhi

theorem checkKaiserBp_passes (hpos : 1 ≤ n) : checkKaiserBp e a n = none := by
  unfold StopbandOk at hstop
  obtain ⟨hset, hin⟩ := hf
  obtain ⟨hset', hin'⟩ := hdf
  rw [checkKaiserBp_eq, if_neg (by omega), if_neg (not_not.2 hstop), if_neg (by simp [hset]), if_neg (not_not.2 hin),
    if_neg (by simp [hset']), if_neg (not_not.2 hin'), if_neg (not_not.2 ⟨hlo, hhi⟩)]

theorem checkKaiserBs_passes (hodd : n % 2 = 1) : checkKaiserBs e a n = none := by
  unfold StopbandOk at hstop
  obtain ⟨hset, hin⟩ := hf
  obtain ⟨hset', hin'⟩ := hdf
  rw [checkKaiserBs_eq, if_neg (by omega), if_neg (by omega), if_neg (not_not.2 hstop), if_neg (by simp [hset]),
    if_neg (not_not.2 hin), if_neg (by simp [hset']), if_neg (not_not.2 hin'), if_neg (not_not.2 ⟨hlo, hhi⟩)]

end

end

/-! ### Taps -/

@[simp] theorem hilbertTaps_length (e : Env) (n : Nat) (kastop : F32) : (hilbertTaps e n kastop).length = n := by
  simp [hilbertTaps]

section
variable (e : Env) {n i : Nat} (hi : i < n)
include hi

theorem getF_kaiserLpTaps (kf kastop : F32) :
    getF (kaiserLpTaps e n kf kastop) i = e.mul (idealTap e n kf i) (kaiserWin e n kastop i) := getF_map_range _ hi

/-- R91: the windowed prototype of cutoff KDF, modulated by twice the cosine of KF. -/
theorem getF_kaiserBpTaps (kf kdf kastop : F32) :
    getF (kaiserBpTaps e n kf kdf kastop) i =
      e.mul (e.mul (idealTap e n kdf i) (kaiserWin e n kastop i))
        (e.mul ftwo (e.f.cosf (e.mul (e.mul (twoPi e) kf) (tapOffset e n i)))) := getF_map_range _ hi

theorem getF_hilbertTaps (kastop : F32) :
    getF (hilbertTaps e n kastop) i =
      if i = (n - 1) / 2 then fone
      else if i % 2 = 0 then fzero
      else e.mul (e.div ftwo (e.mul pi32 (intF ((i : Int) - ((n - 1) / 2 : Nat))))) (kaiserWin e n kastop i) :=
  getF_map_range _ hi

end

/-! ### The designs -/

/-- Settles O25: the checks pass, and the taps are those of `kaiserLpTaps` and of their inversion. -/
theorem kaiserLowpassAndHighpassDesigns : Obligations.KaiserLowpassAndHighpassDesigns := by
  refine fun s n hs hpos hn hstop hf => ⟨?_, fun hodd => ?_⟩
  · exact design_completes hs (checkKaiserLp_passes hn hstop hpos hf) (kaiserLpTaps_length ..) hn fun i hi =>
      getF_kaiserLpTaps s.env hi _ _
  · refine design_completes hs (checkKaiserHp_passes hn hstop hodd hf) (by simp) hn fun i hi => ?_
    rw [getF_invert_of_length s.env hi (kaiserLpTaps_length ..), getF_kaiserLpTaps s.env hi]
    rfl

/-- Settles O26: the checks pass, and the taps are those of `kaiserBpTaps` and of their inversion. -/
theorem kaiserBandDesigns : Obligations.KaiserBandDesigns := by
  intro s n hs hpos hn hstop hf hdf hlo hhi
  refine ⟨?_, fun hodd => ?_⟩
  · exact design_completes hs (checkKaiserBp_passes hn hstop hf hdf hlo hhi hpos) (kaiserBpTaps_length ..) hn fun i hi =>
      getF_kaiserBpTaps s.env hi _ _ _
  · refine design_completes hs (checkKaiserBs_passes hn hstop hf hdf hlo hhi hodd) (by simp) hn fun i hi => ?_
    rw [getF_invert_of_length s.env hi (kaiserBpTaps_length ..), getF_kaiserBpTaps s.env hi]
    rfl

/-- Settles O27: the checks pass, and the taps are those of `hilbertTaps`. -/
theorem kaiserHilbertDesigns : Obligations.KaiserHilbertDesigns := fun s _ hs _ hn hmod hstop =>
  design_completes hs (checkHilbert_passes hn hstop hmod) (hilbertTaps_length ..) hn fun _ hi =>
    getF_hilbertTaps s.env hi _

end Sys2Proof.Machine

/-! Exact results of the binary32 arithmetic that the Kaiser window rests on: factors one, zeros, and small integers (00_scope.md
R17). -/

namespace Sys2Proof

/-! ### Narrowing -/

theorem roundStep_mul_right (n u : Nat) {c : Nat} (hc : 0 < c) : roundStep (n * c) (u * c) = roundStep n u := by
  have hlt : u * c < 2 * (n % u * c) ↔ u < 2 * (n % u) := by rw [← mul_assoc, Nat.mul_lt_mul_right hc]
  have heq : 2 * (n % u * c) = u * c ↔ 2 * (n % u) = u := by rw [← mul_assoc, Nat.mul_left_inj hc.ne']
  simp only [roundStep, Nat.mul_div_mul_right _ _ hc, Nat.mul_mod_mul_right, hlt, heq]

/-- A common factor of the ratio does not matter. -/
theorem roundBits_mul_right (n d : Nat) {c : Nat} (hc : 0 < c) : roundBits (n * c) (d * c) = roundBits n d := by
  have hshift : keptShift (n * c) (d * c) = keptShift n d := by rw [keptShift, Nat.mul_div_mul_right _ _ hc, keptShift]
  rw [roundBits_eq_step, roundBits_eq_step, hshift, mul_right_comm d, roundStep_mul_right _ _ hc]

theorem roundF_mul_right (ftz neg : Bool) (n d : Nat) {c : Nat} (hc : 0 < c) :
    roundF ftz neg (n * c) (d * c) = roundF ftz neg n d := by rw [roundF, roundBits_mul_right n d hc, roundF]

/-- Narrowing the exact value of a finite pattern gives the pattern, flushed. -/
theorem roundF_fmag_eq_operandF (ftz : Bool) {x : F32} (h : isFinite x = true) :
    roundF ftz (fsign x) (fmag x) 1 = operandF ftz x := by
  cases ftz with
  | false => exact roundF_fmag h
  | true => rw [roundF_true, roundF_fmag h]

/-- The same with a common factor of 2^149, as a product with one and a ratio over one come to be narrowed. -/
theorem roundF_fmag_scaled (ftz : Bool) {x : F32} (h : isFinite x = true) :
    roundF ftz (fsign x) (fmag x * 2 ^ 149) (2 ^ 149) = operandF ftz x := by
  have hround := roundF_mul_right ftz (fsign x) (fmag x) 1 (c := 2 ^ 149) (by positivity)
  rw [one_mul] at hround
  rw [hround, roundF_fmag_eq_operandF ftz h]

@[simp] theorem flushBits_false (b : Nat) : flushBits false b = b := rfl

@[simp] theorem flushBits_zero (ftz : Bool) : flushBits ftz 0 = 0 := Nat.le_zero.1 (flushBits_le ftz le_rfl)

theorem flushBits_of_normal (ftz : Bool) {b : Nat} (h : 2 ^ 23 ≤ b) : flushBits ftz b = b := by
  rw [flushBits, decide_eq_false (not_lt.2 h), Bool.and_false]
  exact if_neg Bool.false_ne_true

@[simp] theorem isZero_roundF_zero (ftz neg : Bool) (d : Nat) : isZero (roundF ftz neg 0 d) = true := by
  rw [isZero_iff, fbits_roundF, roundBits_zero, flushBits_zero]

theorem fneg_packF (neg : Bool) {b : Nat} (hb : b < 2 ^ 31) : fneg (packF neg b) = packF (!neg) b := by
  rw [fneg, fsign_packF neg hb, fbits_packF neg hb]

theorem fneg_roundF (ftz neg : Bool) (n d : Nat) : fneg (roundF ftz neg n d) = roundF ftz (!neg) n d :=
  fneg_packF neg (lt_of_le_of_lt (flushBits_le ftz (roundBits_le n d)) (by norm_num))

/-! ### Flushed operands -/

@[simp] theorem fsign_operandF (ftz : Bool) (x : F32) : fsign (operandF ftz x) = fsign x := by
  unfold operandF
  split_ifs
  · exact fsign_packF _ (by norm_num)
  · rfl

theorem isZero_operandF (ftz : Bool) {x : F32} (h : isZero x = true) : isZero (operandF ftz x) = true := by
  rcases operandF_eq_self_or_zero ftz x with he | hz
  · rw [he, h]
  · exact hz

@[simp] theorem operandF_operandF (ftz : Bool) (x : F32) : operandF ftz (operandF ftz x) = operandF ftz x := by
  unfold operandF
  split_ifs with h h'
  · rw [fsign_packF _ (by norm_num)]
  · rfl
  · rfl

theorem operandF_ftwo (ftz : Bool) : operandF ftz ftwo = ftwo := by cases ftz <;> decide

/-! ### Factors one and zero -/

theorem fone_fields : isFinite fone = true ∧ isZero fone = false ∧ fsign fone = false ∧ fmag fone = 2 ^ 149 := by decide

/-- Times one and over one leave a finite operand as it is read. -/
theorem Env.mul_fone (e : Env) {x : F32} (h : isFinite x = true) : e.mul x fone = operandF e.p.ftz x := by
  obtain ⟨hfin, -, hs, hm⟩ := fone_fields
  have hx := isFinite_operandF e.p.ftz h
  rw [Env.mul, operandF_fone, mulCore_finite e hx hfin, hs, hm, Bool.bne_false, roundF_fmag_scaled _ hx, operandF_operandF]

theorem Env.div_fone (e : Env) {x : F32} (h : isFinite x = true) : e.div x fone = operandF e.p.ftz x := by
  obtain ⟨hfin, hz, hs, hm⟩ := fone_fields
  have hx := isFinite_operandF e.p.ftz h
  rw [Env.div, operandF_fone, divCore_finite e hx hfin hz, hs, hm, Bool.bne_false, roundF_fmag_scaled _ hx,
    operandF_operandF]

/-- A product of finite factors is a zero where a factor is. -/
theorem Env.isZero_mul (e : Env) {a b : F32} (ha : isFinite a = true) (hb : isFinite b = true)
    (h : isZero a = true ∨ isZero b = true) : isZero (e.mul a b) = true := by
  have hm : fmag (operandF e.p.ftz a) * fmag (operandF e.p.ftz b) = 0 := by
    rw [Nat.mul_eq_zero, fmag_eq_zero_iff, fmag_eq_zero_iff]
    exact h.imp (isZero_operandF _) (isZero_operandF _)
  rw [Env.mul, mulCore_finite e (isFinite_operandF _ ha) (isFinite_operandF _ hb), hm, isZero_roundF_zero]

/-- A zero over a finite value that is not read as a zero. -/
theorem Env.isZero_div (e : Env) {a b : F32} (ha : isZero a = true) (hb : isFinite b = true)
    (hz : isZero (operandF e.p.ftz b) = false) : isZero (e.div a b) = true := by
  have hq := isZero_operandF e.p.ftz ha
  rw [Env.div, divCore_finite e (isFinite_of_isZero hq) (isFinite_operandF _ hb) hz, (fmag_eq_zero_iff _).2 hq, zero_mul,
    isZero_roundF_zero]

theorem units_of_isZero {x : F32} (h : isZero x = true) : units x = 0 := by
  rw [← Int.natAbs_eq_zero, natAbs_units, fmag_eq_zero_iff, h]

/-- One plus a zero is one. -/
theorem Env.fone_add_of_isZero (e : Env) {x : F32} (h : isZero x = true) : e.add fone x = fone := by
  have hq := isZero_operandF e.p.ftz h
  have hu : units fone + units (operandF e.p.ftz x) = 2 ^ 149 := by
    rw [units_of_isZero hq]
    decide
  have hround : roundF e.p.ftz false (2 ^ 149) 1 = fone :=
    (roundF_fmag_eq_operandF e.p.ftz (x := fone) (by decide)).trans (operandF_fone _)
  rw [Env.add, operandF_fone, addCore_finite e _ (by decide) (isFinite_of_isZero hq)]
  simp only [sumFinite, hu]
  exact hround

/-! ### Squares -/

/-- A square is not negative, and a NaN for a NaN only. -/
theorem Env.mul_self (e : Env) {x : F32} (h : isNaN x = false) :
    e.mul x x = if isInf (operandF e.p.ftz x) then infF false
      else roundF e.p.ftz false (fmag (operandF e.p.ftz x) * fmag (operandF e.p.ftz x)) (2 ^ 149) := by
  have hq := isNaN_operandF e.p.ftz h
  unfold Env.mul mulCore
  generalize operandF e.p.ftz x = q at hq
  simp only [hq, bne_self_eq_false, Bool.or_self, Bool.false_eq_true, if_false]
  cases hinf : isInf q with
  | false => rfl
  | true =>
    have hz : isZero q = false := by
      by_contra hz
      rw [Bool.not_eq_false] at hz
      rw [not_isInf_of_isFinite (isFinite_of_isZero hz)] at hinf
      cases hinf
    rw [hz]
    rfl

@[simp] theorem isInf_fneg (x : F32) : isInf (fneg x) = isInf x := by
  rw [Bool.eq_iff_iff, isInf_iff, isInf_iff, fbits_fneg]

theorem Env.mul_self_fneg (e : Env) {x : F32} (h : isNaN x = false) : e.mul (fneg x) (fneg x) = e.mul x x := by
  rw [e.mul_self h, e.mul_self (by rwa [isNaN_fneg]), operandF_fneg, isInf_fneg, fmag_fneg]

theorem Env.fsign_mul_self (e : Env) {x : F32} (h : isNaN x = false) : fsign (e.mul x x) = false := by
  rw [e.mul_self h]
  split_ifs
  · decide
  · exact fsign_roundF ..

/-! ### Small integers (R17: exact up to 2^24) -/

@[simp] theorem fsign_natF (i : Nat) : fsign (natF i) = false := fsign_roundF ..

/-- The bits of an integer below 2^24: its exact value, and a zero or a normal number. -/
theorem roundBits_int {i : Nat} (h : i < 2 ^ 24) :
    bitsMag (roundBits (i * 2 ^ 149) 1) = i * 2 ^ 149 ∧ roundBits (i * 2 ^ 149) 1 < 0x7F800000
      ∧ (i = 0 ∨ 2 ^ 23 ≤ roundBits (i * 2 ^ 149) 1) := by
  by_cases h0 : i = 0
  · subst h0
    rw [zero_mul, roundBits_zero]
    exact ⟨bitsMag_zero, by norm_num, .inl rfl⟩
  · have hlog : Nat.log2 i ≤ 23 := Nat.lt_succ_iff.1 ((Nat.log2_lt h0).2 h)
    set L := Nat.log2 i with hL
    have hsplit : i * 2 ^ 149 = i * 2 ^ (23 - L) * 2 ^ (126 + L) := by
      rw [mul_assoc, ← pow_add, show 23 - L + (126 + L) = 149 by omega]
    have hk0 : i * 2 ^ (23 - L) ≠ 0 := Nat.mul_ne_zero h0 (by positivity)
    have hklog : Nat.log2 (i * 2 ^ (23 - L)) = 23 := by rw [log2_mul_two_pow h0, ← hL]; omega
    have hklo : 2 ^ 23 ≤ i * 2 ^ (23 - L) := (Nat.le_log2 hk0).1 hklog.ge
    have hkhi : i * 2 ^ (23 - L) < 2 ^ 24 := (Nat.log2_lt hk0).1 (by omega)
    have hbits : roundBits (i * 2 ^ 149) 1 = (126 + L) * 2 ^ 23 + i * 2 ^ (23 - L) := by
      rw [hsplit, roundBits_exact (by rw [log2_mul_two_pow hk0, hklog]; omega)]
      omega
    rw [hbits]
    exact ⟨by rw [bitsMag_step hkhi.le (.inr hklo), ← hsplit], by omega, .inr (by omega)⟩

section
variable {i : Nat} (h : i < 2 ^ 24)
include h

/-- An integer below 2^24 is never subnormal, so FTZ leaves it. -/
theorem roundF_int (ftz neg : Bool) : roundF ftz neg (i * 2 ^ 149) 1 = roundF false neg (i * 2 ^ 149) 1 := by
  obtain ⟨-, -, hnormal⟩ := roundBits_int h
  have hflush : flushBits ftz (roundBits (i * 2 ^ 149) 1) = roundBits (i * 2 ^ 149) 1 := by
    rcases hnormal with rfl | hn
    · rw [zero_mul, roundBits_zero, flushBits_zero]
    · exact flushBits_of_normal ftz hn
  rw [roundF, hflush, roundF, flushBits_false]

theorem operandF_roundF_int (ftz neg : Bool) :
    operandF ftz (roundF false neg (i * 2 ^ 149) 1) = roundF false neg (i * 2 ^ 149) 1 := by
  cases ftz with
  | false => rw [operandF_false]
  | true => rw [← roundF_true, roundF_int h]

theorem fmag_roundF_int (neg : Bool) : fmag (roundF false neg (i * 2 ^ 149) 1) = i * 2 ^ 149 := by
  obtain ⟨hmag, -⟩ := roundBits_int h
  rwa [fmag_eq_bitsMag, fbits_roundF, flushBits_false]

theorem isFinite_roundF_int (neg : Bool) : isFinite (roundF false neg (i * 2 ^ 149) 1) = true := by
  obtain ⟨-, hfin, -⟩ := roundBits_int h
  rwa [isFinite_iff, fbits_roundF, flushBits_false]

theorem operandF_natF (ftz : Bool) : operandF ftz (natF i) = natF i := operandF_roundF_int h ftz false

theorem fmag_natF : fmag (natF i) = i * 2 ^ 149 := fmag_roundF_int h false

theorem isFinite_natF : isFinite (natF i) = true := isFinite_roundF_int h false

theorem isZero_natF (h0 : i ≠ 0) : isZero (natF i) = false := by
  have hmag : ¬fmag (natF i) = 0 := by rw [fmag_natF h]; omega
  rwa [fmag_eq_zero_iff, Bool.not_eq_true] at hmag

theorem units_natF : units (natF i) = i * 2 ^ 149 := by
  rw [units, fsign_natF, fmag_natF h]
  push_cast
  rfl

end

/-- Doubling is exact. -/
theorem Env.mul_ftwo_natF (e : Env) {i : Nat} (h : 2 * i < 2 ^ 24) : e.mul ftwo (natF i) = natF (2 * i) := by
  have hi : i < 2 ^ 24 := by omega
  have htwo : isFinite ftwo = true ∧ fsign ftwo = false ∧ fmag ftwo = 2 * 2 ^ 149 := by decide
  obtain ⟨hfin, hs, hm⟩ := htwo
  have hround := roundF_mul_right e.p.ftz false (2 * i * 2 ^ 149) 1 (c := 2 ^ 149) (by positivity)
  rw [Env.mul, operandF_ftwo, operandF_natF hi, mulCore_finite e hfin (isFinite_natF hi), hs, fsign_natF, hm, fmag_natF hi,
    show 2 * 2 ^ 149 * (i * 2 ^ 149) = 2 * i * 2 ^ 149 * 2 ^ 149 by ring]
  rw [one_mul] at hround
  exact hround.trans (roundF_int h e.p.ftz false)

/-- A difference of integers is exact, and +0.0 where they are equal. -/
theorem Env.sub_natF (e : Env) {i j : Nat} (hi : i < 2 ^ 24) (hj : j < 2 ^ 24) :
    e.sub (natF i) (natF j) = intF ((i : Int) - j) := by
  have hu : units (natF i) + units (fneg (natF j)) = ((i : Int) - j) * 2 ^ 149 := by
    rw [units_fneg, units_natF hi, units_natF hj]
    ring
  rw [Env.sub, operandF_natF hi, operandF_natF hj, addCore_finite e _ (isFinite_natF hi)
    (by rw [isFinite_fneg, isFinite_natF hj])]
  simp only [sumFinite, hu]
  have hlt : ((i : Int) - j).natAbs < 2 ^ 24 := by omega
  generalize (i : Int) - j = k at hlt
  by_cases hk : k = 0
  · have hzero : intF 0 = packF false 0 := by decide
    rw [hk, if_pos (zero_mul _), fsign_natF, Bool.false_and, hzero]
  · have habs : (k * 2 ^ 149).natAbs = k.natAbs * 2 ^ 149 := by rw [Int.natAbs_mul]; rfl
    have hneg : decide (k * 2 ^ 149 < 0) = decide (k < 0) := by rw [decide_eq_decide]; omega
    rw [if_neg (by omega), habs, hneg, roundF_int hlt]
    rfl

theorem intF_neg {k : Int} (hk : k ≠ 0) : intF (-k) = fneg (intF k) := by
  have hsign : decide (-k < 0) = !decide (k < 0) := by
    rw [← decide_not, decide_eq_decide]
    omega
  rw [intF, intF, fneg_roundF, Int.natAbs_neg, hsign]

theorem isFinite_intF {k : Int} (h : k.natAbs < 2 ^ 24) : isFinite (intF k) = true := isFinite_roundF_int h _

/-- A ratio of finite values is not a NaN, and changes its sign with the numerator. -/
theorem Env.div_finite (e : Env) {a b : F32} (ha : isFinite a = true) (hb : isFinite b = true)
    (hz : isZero (operandF e.p.ftz b) = false) :
    isNaN (e.div a b) = false ∧ e.div (fneg a) b = fneg (e.div a b) := by
  have hqa := isFinite_operandF e.p.ftz ha
  have hqb := isFinite_operandF e.p.ftz hb
  unfold Env.div
  rw [operandF_fneg, divCore_finite e hqa hqb hz, divCore_finite e (by rwa [isFinite_fneg]) hqb hz, fneg_roundF, fsign_fneg,
    fmag_fneg, Bool.not_bne]
  exact ⟨isNaN_roundF .., rfl⟩

end Sys2Proof

/-! The Kaiser window is symmetric (42_fir_kaiser.md R87, O33): mirrored taps lie at opposite positions, and the window reads a
position through its square. -/

namespace Sys2Proof.Machine

/-- The position x of tap n in R87, from -1 to 1. -/
def kaiserPos (e : Env) (taps n : Nat) : F32 :=
  e.div (e.sub (e.mul ftwo (natF n)) (natF (taps - 1))) (natF (taps - 1))

/-- The radicand of R87 for position x. -/
def kaiserRadicand (e : Env) (x : F32) : F32 := e.max fzero (e.sub fone (e.mul x x))

theorem kaiserTap_eq (e : Env) (taps : Nat) (beta i0b : F32) (n : Nat) :
    kaiserTap e taps beta i0b n =
      if taps = 1 then fone
      else e.div (besselI0 e (e.mul beta (e.sqrt (kaiserRadicand e (kaiserPos e taps n))))) i0b := rfl

/-- The numerator 2n - (N-1) of a position is exact. -/
theorem kaiserPos_eq (e : Env) {taps n : Nat} (htaps : taps ≤ 4096) (hn : n < taps) :
    kaiserPos e taps n = e.div (intF (((2 * n : Nat) : Int) - (taps - 1 : Nat))) (natF (taps - 1)) := by
  rw [kaiserPos, e.mul_ftwo_natF (by omega), e.sub_natF (by omega) (by omega)]

theorem kaiserPos_mirror_sq (e : Env) {taps n : Nat} (htaps : taps ≤ 4096) (hn : n < taps) (hone : taps ≠ 1) :
    e.mul (kaiserPos e taps (taps - 1 - n)) (kaiserPos e taps (taps - 1 - n))
      = e.mul (kaiserPos e taps n) (kaiserPos e taps n) := by
  have hlast : taps - 1 < 2 ^ 24 := by omega
  have hz : isZero (operandF e.p.ftz (natF (taps - 1))) = false := by
    rw [operandF_natF hlast, isZero_natF hlast (by omega)]
  rw [kaiserPos_eq e htaps hn, kaiserPos_eq e htaps (n := taps - 1 - n) (by omega),
    show ((2 * (taps - 1 - n) : Nat) : Int) - (taps - 1 : Nat) = -(((2 * n : Nat) : Int) - (taps - 1 : Nat)) by omega]
  have hlt : (((2 * n : Nat) : Int) - (taps - 1 : Nat)).natAbs < 2 ^ 24 := by omega
  generalize ((2 * n : Nat) : Int) - (taps - 1 : Nat) = k at hlt
  obtain ⟨hnan, hfneg⟩ := e.div_finite (isFinite_intF hlt) (isFinite_natF hlast) hz
  by_cases hk : k = 0
  · rw [hk, neg_zero]
  · rw [intF_neg hk, hfneg, e.mul_self_fneg hnan]

/-- Settles O33: the taps are equal because the squares of their positions are. -/
theorem kaiserWindowIsSymmetric : Obligations.KaiserWindowIsSymmetric := by
  intro e taps n beta i0b htaps hn
  rw [kaiserTap_eq, kaiserTap_eq]
  by_cases hone : taps = 1
  · rw [if_pos hone, if_pos hone]
  · rw [if_neg hone, if_neg hone, kaiserRadicand, kaiserRadicand, kaiserPos_mirror_sq e htaps hn hone]

end Sys2Proof.Machine

/-! The low branch of the Kaiser window (42_fir_kaiser.md R85 to R87, O32). -/

namespace Sys2Proof

/-! ### The square root of a finite value -/

theorem fmag_lt_of_isFinite {x : F32} (h : isFinite x = true) : fmag x < 2 ^ 277 := by
  rw [isFinite_iff] at h
  have htop : bitsMag 0x7F800000 = 2 ^ 24 * 2 ^ 253 := bitsMag_step (sh := 253) (k := 2 ^ 24) le_rfl (.inr (by norm_num))
  rw [fmag_eq_bitsMag, show 277 = 24 + 253 from rfl, pow_add, ← htop]
  exact bitsMag_strictMono h

theorem Env.isFinite_sqrt (e : Env) {x : F32} (h : isFinite x = true) (hs : fsign x = false) :
    isFinite (e.sqrt x) = true := by
  have hq := isFinite_operandF e.p.ftz h
  rw [Env.sqrt]
  cases hz : isZero (operandF e.p.ftz x) with
  | true =>
    have hself : sqrtCore e (operandF e.p.ftz x) = operandF e.p.ftz x := by simp [sqrtCore, not_isNaN_of_isFinite hq, hz]
    rw [hself, hq]
  | false =>
    have hm := fmag_lt_of_isFinite hq
    have hroot : stickyRoot (fmag (operandF e.p.ftz x) * 2 ^ 149) ≤ 2 * 2 ^ 213 :=
      (stickyRoot_le_iff _ _).2 (by omega)
    have hbits := roundBits_mono (d := 2) hroot
    have htop : roundBits (2 * 2 ^ 213) 2 < 0x7F800000 := by decide
    rw [sqrtCore_of_pos e hq hz (by rwa [fsign_operandF]), isFinite_iff, fbits_roundF]
    exact lt_of_le_of_lt (flushBits_le _ hbits) htop

/-! ### One minus a square -/

/-- One minus a value that is not negative is at most one: finite, negative, or a NaN for a NaN. -/
theorem Env.fone_sub_cases (e : Env) {y : F32} (hs : fsign y = false) :
    isFinite (e.sub fone y) = true ∨ fsign (e.sub fone y) = true ∨ isNaN (e.sub fone y) = true := by
  have hone : isNaN fone = false ∧ isInf fone = false := by decide
  rw [← fsign_operandF e.p.ftz] at hs
  rw [Env.sub, operandF_fone]
  generalize operandF e.p.ftz y = q at hs
  rcases kind_cases q with hfin | hinf | hnan
  · rw [addCore_finite e _ (by decide) (by rwa [isFinite_fneg])]
    have hq : units q = fmag q := by simp [units, hs]
    have hu : units fone + units (fneg q) = 2 ^ 149 - fmag q := by
      rw [units_fneg, hq]
      rfl
    simp only [sumFinite, hu]
    split_ifs with hzero
    · exact .inl (isFinite_of_isZero ((isZero_iff _).2 (fbits_packF _ (by norm_num))))
    · rw [fsign_roundF]
      by_cases hneg : (2 ^ 149 - fmag q : Int) < 0
      · exact .inr (.inl (decide_eq_true hneg))
      · have hle : ((2 ^ 149 - fmag q : Int)).natAbs ≤ 2 ^ 149 := by omega
        have hbits := roundBits_mono (d := 1) hle
        have htop : roundBits (2 ^ 149) 1 < 0x7F800000 := by decide
        rw [isFinite_iff, fbits_roundF]
        exact .inl (lt_of_le_of_lt (flushBits_le _ hbits) htop)
  · have hq : isNaN q = false := by
      rw [eq_infF_of_isInf hinf, hs]
      decide
    exact .inr (.inl (by simp [addCore, hone, hq, hinf, hs]))
  · exact .inr (.inr (by simp [addCore, hnan, isNaN_nanF]))

theorem Env.fone_sub_nan (e : Env) {y : F32} (h : isNaN y = true) : isNaN (e.sub fone y) = true := by
  simp [Env.sub, addCore, h, isNaN_nanF]

/-- A value raised to at least +0.0 is not negative, and finite unless it was +inf. -/
theorem Env.fzero_max (e : Env) {z : F32} (h : isFinite z = true ∨ fsign z = true ∨ isNaN z = true) :
    isFinite (e.max fzero z) = true ∧ fsign (e.max fzero z) = false := by
  have hzero : isNaN fzero = false ∧ isFinite fzero = true ∧ fsign fzero = false ∧ totalKey fzero = 0 := by decide
  obtain ⟨hnz, hfz, hsz, hkz⟩ := hzero
  simp only [Env.max, hnz, hkz, Bool.false_eq_true, if_false]
  split_ifs with hnan hkey
  · exact ⟨hfz, hsz⟩
  · have hsign : fsign z = false := by
      by_contra hs
      rw [Bool.not_eq_false] at hs
      simp only [totalKey, hs, if_true] at hkey
      omega
    simp only [hsign, hnan, Bool.false_eq_true, or_false] at h
    exact ⟨h, hsign⟩
  · exact ⟨hfz, hsz⟩

theorem Params.i0Eps_of_wf {p : Params} (h : p.wf = true) : posF p p.i0Eps = true := by
  simp only [Params.wf, firOk, Bool.and_eq_true] at h
  tauto

end Sys2Proof

namespace Sys2Proof.Machine

theorem kaiserRadicand_finite (e : Env) (x : F32) :
    isFinite (kaiserRadicand e x) = true ∧ fsign (kaiserRadicand e x) = false := by
  refine e.fzero_max ?_
  cases hx : isNaN x with
  | false => exact e.fone_sub_cases (e.fsign_mul_self hx)
  | true => exact .inr (.inr (e.fone_sub_nan (by rw [e.mul_nan_left hx, isNaN_nanF])))

/-! ### The Bessel series at zero -/

/-- A zero term is below I0_EPS of a sum of one, since I0_EPS is above zero (R9). -/
theorem le_i0Eps_of_isZero {e : Env} (hp : e.p.wf = true) {t : F32} (h : isZero t = true) :
    e.le (e.mul e.p.i0Eps fone) t = false := by
  have hpos := Params.i0Eps_of_wf hp
  rw [posF, Bool.and_eq_true, ltF_fzero_iff] at hpos
  obtain ⟨hfin, -, hkey⟩ := hpos
  rw [Env.le, e.mul_fone hfin, operandF_operandF, leF, ordKey_of_isZero (isZero_operandF _ h), decide_eq_false hkey.not_ge,
    Bool.and_false]

/-- The loop of R86 ends in its first pass on a zero: the term is a zero, and the sum stays one. -/
theorem besselI0_of_isZero {e : Env} (hp : e.p.wf = true) {x : F32} (h : isZero x = true) : besselI0 e x = fone := by
  have hx2 : isZero (e.div x ftwo) = true := e.isZero_div h (by decide) (by rw [operandF_ftwo]; decide)
  have hu : isZero (e.div (e.div x ftwo) (natF 1)) = true :=
    e.isZero_div hx2 (isFinite_natF (by norm_num))
      (by rw [operandF_natF (by norm_num), isZero_natF (by norm_num) one_ne_zero])
  have hsq := e.isZero_mul (isFinite_of_isZero hu) (isFinite_of_isZero hu) (.inl hu)
  have hterm := e.isZero_mul (a := fone) (by decide) (isFinite_of_isZero hsq) (.inr hsq)
  obtain ⟨passes, hpasses⟩ := Nat.exists_eq_succ_of_ne_zero (show i0Passes ≠ 0 from (Nat.two_pow_pos 129).ne')
  simp only [besselI0, hpasses, i0Loop, e.fone_add_of_isZero hterm, le_i0Eps_of_isZero hp hterm, Bool.false_eq_true,
    if_false]

/-! ### The branches of BETA -/

theorem litF_21 : litF 21 1 = 0x41A80000 := by decide

theorem litF_50 : litF 50 1 = 0x42480000 := by decide

/-- 50 dB lies past the two lower branches (R85, 90_conflicts.md C3). -/
theorem kaiserBeta_50 (e : Env) : kaiserBeta e 0x42480000 = e.mul (litF 1102 10000) (e.sub 0x42480000 (litF 87 10)) := by
  have hle : e.le 0x42480000 0x41A80000 = false := by unfold Env.le; cases e.p.ftz <;> decide
  have hlt : e.lt 0x42480000 0x42480000 = false := by unfold Env.lt; cases e.p.ftz <;> decide
  rw [kaiserBeta, litF_21, litF_50, hle, hlt]
  rfl

theorem kaiserBeta_low {e : Env} {a : F32} (h : e.le a 0x41A80000 = true) : kaiserBeta e a = fzero := by
  rw [kaiserBeta, litF_21, if_pos h]

/-- With β = 0 every tap is I0 of a zero over I0(0). -/
theorem kaiserTap_of_beta_zero {e : Env} (hp : e.p.wf = true) (taps n : Nat) :
    kaiserTap e taps fzero fone n = fone := by
  rw [kaiserTap_eq]
  split_ifs
  · rfl
  · obtain ⟨hfin, hs⟩ := kaiserRadicand_finite e (kaiserPos e taps n)
    have harg := e.isZero_mul (a := fzero) (by decide) (e.isFinite_sqrt hfin hs) (.inl (by decide))
    rw [besselI0_of_isZero hp harg, e.div_fone (by decide), operandF_fone]

/-- Settles O32: I0 of a zero is one, so the low branch's window is one over one. -/
theorem kaiserBranchesAndRectangle : Obligations.KaiserBranchesAndRectangle := by
  intro e hp
  have hI0 := besselI0_of_isZero hp (x := fzero) (by decide)
  refine ⟨hI0, kaiserBeta_50 e, fun a ha => ⟨kaiserBeta_low ha, fun taps n _ _ _ => ?_⟩⟩
  rw [kaiserWin, kaiserBeta_low ha, hI0, kaiserTap_of_beta_zero hp]

end Sys2Proof.Machine

/-! The normalized LMS (O44, O45): what a block leaves in the ring and the history, and silence through the filter and back
to both channels. -/

namespace Sys2Proof

/-! ### Arithmetic on +0.0 (00_scope.md R17) -/

theorem operandF_fzero (ftz : Bool) : operandF ftz fzero = fzero := by cases ftz <;> decide

/-- +0.0 plus a zero of either sign is +0.0. -/
theorem Env.fzero_add_of_isZero (e : Env) {x : F32} (h : isZero x = true) : e.add fzero x = fzero := by
  have hq := isZero_operandF e.p.ftz h
  have hu : units fzero + units (operandF e.p.ftz x) = 0 := by rw [units_of_isZero hq]; decide
  rw [Env.add, operandF_fzero, addCore_finite e _ (by decide) (isFinite_of_isZero hq)]
  simp only [sumFinite, hu]
  rfl

/-- +0.0 plus a finite value that is not read as a zero is that value as it is read. -/
theorem Env.fzero_add_of_ne_zero (e : Env) {x : F32} (h : isFinite x = true) (hz : isZero (operandF e.p.ftz x) = false) :
    e.add fzero x = operandF e.p.ftz x := by
  rw [Env.add, operandF_fzero, addCore_finite e _ (by decide) (isFinite_operandF _ h)]
  have hq := isFinite_operandF e.p.ftz h
  have hflush := operandF_operandF e.p.ftz x
  generalize operandF e.p.ftz x = q at hz hq hflush
  have hm : fmag q ≠ 0 := fun h0 => by simp [(fmag_eq_zero_iff q).1 h0] at hz
  have hu : units fzero + units q = units q := by rw [units_of_isZero (by decide), zero_add]
  have hne : units q ≠ 0 := by rwa [← Int.natAbs_ne_zero, natAbs_units]
  have hneg : decide (units q < 0) = fsign q := by
    have hpos : 0 < fmag q := Nat.pos_of_ne_zero hm
    cases hs : fsign q <;> simp [units, hs, hpos]
  simp only [sumFinite, hu, if_neg hne, hneg, natAbs_units]
  rw [roundF_fmag_eq_operandF _ hq, hflush]

@[simp] theorem Env.fzero_sub_fzero (e : Env) : e.sub fzero fzero = fzero := by
  rw [Env.sub, operandF_fzero, addCore_finite e _ (by decide) (by decide)]
  rfl

/-- +0.0 times a finite value that is not negative is +0.0. -/
theorem Env.fzero_mul_of_nonneg (e : Env) {x : F32} (h : isFinite x = true) (hs : fsign x = false) : e.mul fzero x = fzero := by
  have hm : fmag fzero = 0 ∧ fsign fzero = false := by decide
  rw [Env.mul, operandF_fzero, mulCore_finite e (by decide) (isFinite_operandF _ h), fsign_operandF, hs, hm.1, hm.2, zero_mul,
    roundF, roundBits_zero, flushBits_zero]
  rfl

theorem Env.sum_replicate_fzero (e : Env) (n : Nat) : e.sum (List.replicate n fzero) = fzero := by
  cases n with
  | zero => rfl
  | succ n =>
    simp only [List.replicate_succ, Env.sum]
    induction n with
    | zero => rfl
    | succ n ih => rw [List.replicate_succ, List.foldl_cons, e.fzero_add_of_isZero (by decide), ih]

/-- A parameter above zero is above zero as it is read. -/
theorem ordKey_operandF_of_posF {p : Params} {x : F32} (h : posF p x = true) : 0 < ordKey (operandF p.ftz x) := by
  rw [posF, Bool.and_eq_true, ltF_fzero_iff] at h
  obtain ⟨-, -, hkey⟩ := h
  exact hkey

theorem not_isZero_operandF_of_posF {p : Params} {x : F32} (h : posF p x = true) : isZero (operandF p.ftz x) = false := by
  by_contra hz
  exact (ordKey_operandF_of_posF h).ne' (ordKey_of_isZero (by simpa using hz))

theorem Params.epsLms_of_wf {p : Params} (h : p.wf = true) : posF p p.epsLms = true := by
  simp only [Params.wf, lmsOk, Bool.and_eq_true] at h
  tauto

theorem Params.xMax_of_wf {p : Params} (h : p.wf = true) : posF p p.xMax = true := by
  simp only [Params.wf, platformOk, Bool.and_eq_true] at h
  tauto

end Sys2Proof

namespace Sys2Proof.Machine

/-! ### Lists of zeros -/

theorem zeros_succ (n : Nat) : zeros (n + 1) = fzero :: zeros n := List.replicate_succ

theorem take_zeros (k n : Nat) : (zeros n).take k = zeros (min k n) := List.take_replicate

theorem drop_zeros (k n : Nat) : (zeros n).drop k = zeros (n - k) := List.drop_replicate

theorem zeros_append (k n : Nat) : zeros k ++ zeros n = zeros (k + n) := List.replicate_append_replicate

theorem allFinite_zeros (n : Nat) : allFinite (zeros n) = true := by
  rw [allFinite, List.all_eq_true]
  intro x hx
  rw [List.eq_of_mem_replicate hx]
  rfl

theorem splice_zeros {n k at' : Nat} (h : at' + k ≤ n) : splice (zeros n) at' (zeros k) = zeros n := by
  rw [splice, take_zeros, drop_zeros, zeros_length, zeros_append, zeros_append]
  congr 1
  omega

/-! ### What a block leaves in the ring and the history (43_nlms.md R96, R97) -/

/-- The spliced block stands where it was put. -/
theorem take_drop_splice {l x : List F32} {at' : Nat} (h : at' ≤ l.length) :
    ((splice l at' x).drop at').take x.length = x := by
  have hlen : (l.take at').length = at' := List.length_take_of_le h
  rw [splice, List.append_assoc, List.drop_left' hlen, List.take_left]

/-- The loop puts its inputs on the history, newest first. -/
theorem lmsLoop_past (e : Env) (mu : F32) (pairs : List (F32 × F32)) (w past : List F32) :
    (lmsLoop e mu pairs w past).past = (pairs.map Prod.fst).reverse ++ past := by
  induction pairs generalizing w past with
  | nil => rfl
  | cons pair rest ih => simp [lmsLoop, ih]

theorem lmsLoop_zip_past (e : Env) (mu : F32) {x r : List F32} (w past : List F32) (h : x.length ≤ r.length) :
    (lmsLoop e mu (x.zip r) w past).past = x.reverse ++ past := by
  rw [lmsLoop_past, List.map_fst_zip h]

/-- Half a turn takes the write cursor to the other half of the ring, another half turn back. -/
theorem half_turn_twice {wc B : Nat} (hB : 0 < B) (hwc : wc = 0 ∨ wc = B) :
    ((wc + B) % (2 * B) + B) % (2 * B) = wc := by
  rw [Nat.mod_add_mod, add_assoc, ← two_mul, Nat.add_mod_right, Nat.mod_eq_of_lt (by omega)]

/-- Settles O45: the block is spliced in at the old write cursor, which is the new read cursor. -/
theorem lmsReferenceIsThePreviousBlock : Obligations.LmsReferenceIsThePreviousBlock := by
  intro e st x hp hshape hx
  obtain ⟨hB, -⟩ := Params.sizes_of_wf hp
  obtain ⟨hring', hcursor, -⟩ := lmsShape_nlmsBlock hshape hx
  obtain ⟨hring, hwc, -⟩ := hshape
  refine ⟨rfl, ?_, ?_, rfl⟩
  · have hback : ((nlmsBlock e st x).st.wc + e.p.blk) % (2 * e.p.blk) = st.wc := half_turn_twice (by omega) hwc
    rw [hback, ← hx]
    exact take_drop_splice (by omega)
  · have hread : x.length ≤ (((nlmsBlock e st x).st.ring.drop (nlmsBlock e st x).st.wc).take e.p.blk).length := by
      rw [List.length_take, List.length_drop, hring', hx]
      omega
    exact congrArg (List.take (e.p.lmsTaps - 1)) (lmsLoop_zip_past e st.mu st.w st.hist hread)

/-! ### Silence through the filter (43_nlms.md R97) -/

/-- The step of the weights is a zero, of the sign of µ, since EPS_LMS is above zero (R10); added to +0.0 it is gone. -/
theorem lmsSample_zeros {e : Env} (hp : e.p.wf = true) {mu : F32} (hmu : isFinite mu = true) (n : Nat) :
    lmsSample e mu (zeros n) (zeros n) fzero = (zeros n, fzero) := by
  have heps := Params.epsLms_of_wf hp
  obtain ⟨-, hfin, -⟩ := finiteRange_of_posF heps
  have hnz := not_isZero_operandF_of_posF heps
  have hmul : e.mul fzero fzero = fzero := e.fzero_mul_of_nonneg (by decide) (by decide)
  have hnum : isZero (e.mul mu fzero) = true := e.isZero_mul hmu (by decide) (.inr (by decide))
  have hk : isZero (e.div (e.mul mu fzero) (operandF e.p.ftz e.p.epsLms)) = true :=
    e.isZero_div hnum (isFinite_operandF _ hfin) (by rwa [operandF_operandF])
  have hstep := e.isZero_mul (isFinite_of_isZero hk) (b := fzero) (by decide) (.inr (by decide))
  simp only [lmsSample, zeros, List.zipWith_replicate, List.map_replicate, min_self, hmul, e.sum_replicate_fzero,
    e.fzero_sub_fzero, e.fzero_add_of_ne_zero hfin hnz, e.fzero_add_of_isZero hstep]

/-- Silence through zero weights leaves everything as it is. -/
theorem lmsLoop_zeros {e : Env} (hp : e.p.wf = true) {mu : F32} (hmu : isFinite mu = true) (n : Nat) {k : Nat}
    (hk : e.p.lmsTaps ≤ k + 1) :
    lmsLoop e mu (List.replicate n (fzero, fzero)) (zeros e.p.lmsTaps) (zeros k)
      = { w := zeros e.p.lmsTaps, past := zeros (k + n), out := zeros n, ok := true } := by
  induction n generalizing k with
  | zero => rfl
  | succ n ih =>
    simp only [List.replicate_succ, lmsLoop, ← zeros_succ, take_zeros, min_eq_left hk, lmsSample_zeros hp hmu,
      ih (k := k + 1) (by omega), allFinite_zeros, Bool.and_self, add_assoc, add_comm 1 n]

/-- A silent block through a fresh filter. -/
theorem nlmsBlock_zeros {e : Env} (hp : e.p.wf = true) {mu : F32} (hmu : isFinite mu = true) :
    nlmsBlock e { ring := zeros (2 * e.p.blk), wc := 0, w := zeros e.p.lmsTaps, hist := zeros (e.p.lmsTaps - 1), mu := mu }
        (zeros e.p.blk)
      = { st := { ring := zeros (2 * e.p.blk), wc := e.p.blk, w := zeros e.p.lmsTaps, hist := zeros (e.p.lmsTaps - 1), mu := mu }
          out := zeros e.p.blk
          ok := true } := by
  obtain ⟨hB, -⟩ := Params.sizes_of_wf hp
  have hrc : (0 + e.p.blk) % (2 * e.p.blk) = e.p.blk := by rw [zero_add, Nat.mod_eq_of_lt (by omega)]
  have hread : min e.p.blk (2 * e.p.blk - e.p.blk) = e.p.blk := by omega
  have hpairs : List.zip (zeros e.p.blk) (zeros e.p.blk) = List.replicate e.p.blk (fzero, fzero) := List.zip_replicate'
  have hloop := lmsLoop_zeros hp hmu e.p.blk (k := e.p.lmsTaps - 1) (by omega)
  simp only [nlmsBlock, hrc, splice_zeros (n := 2 * e.p.blk) (at' := 0) (k := e.p.blk) (by omega), drop_zeros, take_zeros,
    hread, hpairs, hloop, allFinite_zeros, Bool.and_self, Nat.min_eq_left (Nat.le_add_right (e.p.lmsTaps - 1) e.p.blk)]

/-! ### Silence through PROCESS (48_mode_control.md R129 to R132) -/

/-- Both channels hold +0.0 in every slot. -/
def SilentBlock (s : State) : Prop :=
  ∀ i, i < s.cfg.blk → Memory.readWord s.mem (sampLBase + 4 * i) = some fzero
    ∧ Memory.readWord s.mem (sampRBase + 4 * i) = some fzero

theorem readSlots_eq_replicate {m : Memory} {base n : Nat} {w : Word}
    (h : ∀ i, i < n → Memory.readWord m (base + 4 * i) = some w) : Memory.readSlots m base n = List.replicate n (some w) := by
  rw [List.eq_replicate_iff, Memory.readSlots_length]
  refine ⟨rfl, fun o ho => ?_⟩
  obtain ⟨i, hi, rfl⟩ := List.mem_map.1 ho
  exact h i (List.mem_range.1 hi)

section
variable {s : State} (h : SilentBlock s)
include h

theorem SilentBlock.sampL_eq : s.sampL = List.replicate s.cfg.blk (some fzero) :=
  readSlots_eq_replicate fun i hi => (h i hi).1

theorem SilentBlock.sampR_eq : s.sampR = List.replicate s.cfg.blk (some fzero) :=
  readSlots_eq_replicate fun i hi => (h i hi).2

theorem SilentBlock.left_eq : s.left = zeros s.cfg.blk := by
  rw [State.left, h.sampL_eq, List.map_replicate]; rfl

theorem SilentBlock.right_eq : s.right = zeros s.cfg.blk := by
  rw [State.right, h.sampR_eq, List.map_replicate]; rfl

theorem SilentBlock.sampsWritten : s.sampsWritten = true := by
  simp [State.sampsWritten, h.sampL_eq, h.sampR_eq]

/-- +0.0 is finite and not above X_MAX, which is above zero (R130, R13). -/
theorem SilentBlock.sampsOk (hp : s.cfg.wf = true) : s.sampsOk = true := by
  have hkey := ordKey_operandF_of_posF (Params.xMax_of_wf hp)
  have hlt : s.env.lt s.cfg.xMax (fabs fzero) = false := by
    rw [show fabs fzero = fzero by decide, Env.lt, env_p, operandF_fzero, ltF, ordKey_fzero, decide_eq_false hkey.not_gt,
      Bool.and_false]
  have hzero : sampleOk s.env fzero = true := by rw [sampleOk, env_p, hlt]; rfl
  simp [State.sampsOk, h.left_eq, h.right_eq, zeros, hzero]

/-- FOLD gives silence in both forms (R129). -/
theorem SilentBlock.foldBlock_eq : foldBlock s.env s.left s.right = zeros s.cfg.blk := by
  have hmean : s.env.mul (s.env.add fzero fzero) fhalf = fzero := by
    rw [s.env.fzero_add_of_isZero (by decide), s.env.fzero_mul_of_nonneg (by decide) (by decide)]
  rw [h.left_eq, h.right_eq, foldBlock]
  split
  · rfl
  · simp only [zeros, List.zipWith_replicate, min_self, hmean]

/-- A silent block is accepted, in a mode with an engine of its own. -/
theorem SilentBlock.execProcess_eq (hp : s.cfg.wf = true) (hby : s.mode ≠ .bypass) (hoff : s.mode.actsAsOff = false) :
    execProcess s = processBlock s := by
  simp [execProcess, h.sampsWritten, h.sampsOk hp, hby, hoff]

end

/-- With the notch disabled a block whose engine writes finite values completes, mirrored to both channels. -/
theorem processBlock_of_notch_off {s : State} (hn : s.notchEn = false) {r : BlockResult State}
    (hr : runMode s (foldBlock s.env s.left s.right) = r) (hok : r.ok = true) (hout : allFinite r.out = true) :
    processBlock s = .next (r.st.mirror r.out).finishMode := by
  have hst : r.st.notchEn = false := by rw [← hr, runMode_notchEn, hn]
  simp [processBlock, hr, runNotch_of_off _ _ hst, hok, hout]

/-- The mirrored block reads back from both channels, which do not meet (10_state.md R26). -/
theorem readWord_mirror {s : State} (hw : Memory.wf s.mem = true) {m : List F32} (hm : m.length ≤ 1024) {i : Nat}
    (hi : i < m.length) :
    Memory.readWord (s.mirror m).mem (sampLBase + 4 * i) = some m[i]
      ∧ Memory.readWord (s.mirror m).mem (sampRBase + 4 * i) = some m[i] := by
  have hbases : sampRBase = sampLBase + 4096 := rfl
  rw [mirror_mem]
  refine ⟨?_, Memory.readWord_writeWords _ _ (Memory.wf_writeWords _ _ hw) i hi⟩
  rw [Memory.readWord_writeWords_outside _ _ (.inl (by omega)), Memory.readWord_writeWords _ _ hw i hi]

theorem silentBlock_mirror_zeros {s : State} (hs : LegalMachine s) : SilentBlock (s.mirror (zeros s.cfg.blk)) := by
  obtain ⟨hp, hw⟩ := hs
  obtain ⟨-, hB, -⟩ := Params.sizes_of_wf hp
  intro i hi
  have hread := readWord_mirror hw (m := zeros s.cfg.blk) (by rwa [zeros_length]) (by rwa [zeros_length])
  simpa only [zeros, List.getElem_replicate] using hread

/-- Settles O44: the folded block is silent, the fresh filter leaves silence and its weights, and silence is mirrored. -/
theorem lmsZeroBlock : Obligations.LmsZeroBlock := by
  intro s hs hmode hn hmu hfresh (h : SilentBlock s)
  obtain ⟨hp, hw⟩ := hs
  have hblock := nlmsBlock_zeros (e := s.env) hp hmu
  rw [env_p, ← hfresh] at hblock
  have hrun : runMode s (foldBlock s.env s.left s.right)
      = { st := { s with lms := { s.lms with wc := s.cfg.blk } }, out := zeros s.cfg.blk, ok := true } := by
    rw [h.foldBlock_eq, runMode, hmode]
    simp only [hblock]
    rw [hfresh]
  have hexec := h.execProcess_eq hp (by simp [hmode]) (by rw [hmode]; rfl)
  rw [processBlock_of_notch_off hn hrun rfl (allFinite_zeros _)] at hexec
  refine ⟨_, hexec, ?_, rfl, ?_⟩
  · simp [State.finishMode, hmode, Mode.undeveloped]
  · exact silentBlock_mirror_zeros (s := { s with lms := _ }) ⟨hp, hw⟩

end Sys2Proof.Machine

/-! The variable-leak engine at step size 0 (O46): the taps stay +0.0, so the prediction is a zero and the error the input. -/

namespace Sys2Proof

/-! ### Zeros and NaNs through the arithmetic (00_scope.md R17) -/

/-- A zero of either sign or a NaN: what a zero factor can come to. -/
def ZeroOrNaN (x : F32) : Prop := isZero x = true ∨ isNaN x = true

theorem Env.isNaN_mul (e : Env) {a b : F32} (h : isNaN a = true ∨ isNaN b = true) : isNaN (e.mul a b) = true := by
  rcases h with h | h <;> simp [Env.mul, mulCore, h, isNaN_nanF]

theorem Env.isNaN_add (e : Env) {a b : F32} (h : isNaN a = true ∨ isNaN b = true) : isNaN (e.add a b) = true := by
  rcases h with h | h <;> simp [Env.add, addCore, h, isNaN_nanF]

/-- A zero times an infinity is invalid. -/
theorem Env.isNaN_mul_of_isInf (e : Env) {a b : F32} (ha : isZero a = true) (hb : isInf b = true) :
    isNaN (e.mul a b) = true := by
  have hz := isZero_operandF e.p.ftz ha
  have hfin := isFinite_of_isZero hz
  have hq : operandF e.p.ftz b = b := by
    cases e.p.ftz
    · rfl
    · exact operandF_true_of_isInf hb
  simp [Env.mul, mulCore, hq, hb, hz, not_isNaN_of_isFinite hfin, not_isInf_of_isFinite hfin, isNaN_nanF]

/-- The other factor does not matter: it leaves a zero or makes a NaN. -/
theorem ZeroOrNaN.mul (e : Env) {a : F32} (h : ZeroOrNaN a) (b : F32) : ZeroOrNaN (e.mul a b) := by
  rcases h with hz | hnan
  · rcases kind_cases b with hfin | hinf | hnan
    · exact .inl (e.isZero_mul (isFinite_of_isZero hz) hfin (.inl hz))
    · exact .inr (e.isNaN_mul_of_isInf hz hinf)
    · exact .inr (e.isNaN_mul (.inr hnan))
  · exact .inr (e.isNaN_mul (.inl hnan))

/-- Subtraction adds the value with its sign flipped. -/
theorem Env.sub_eq_add_fneg (e : Env) {a b : F32} (ha : isFinite a = true) (hb : isFinite b = true) :
    e.sub a b = e.add a (fneg b) := by
  have hqa := isFinite_operandF e.p.ftz ha
  have hqb : isFinite (fneg (operandF e.p.ftz b)) = true := by rw [isFinite_fneg, isFinite_operandF _ hb]
  rw [Env.sub, Env.add, operandF_fneg, addCore_finite e _ hqa hqb, addCore_finite e _ hqa hqb]

theorem Env.fone_sub_of_isZero (e : Env) {x : F32} (h : isZero x = true) : e.sub fone x = fone := by
  rw [e.sub_eq_add_fneg (by decide) (isFinite_of_isZero h), e.fone_add_of_isZero (by rwa [isZero_fneg])]

theorem Env.fone_mul_fzero (e : Env) : e.mul fone fzero = fzero := by
  have hm : fmag fzero = 0 ∧ (fsign fone != fsign fzero) = false := by decide
  rw [Env.mul, operandF_fone, operandF_fzero, mulCore_finite e (by decide) (by decide), hm.1, hm.2, mul_zero, roundF,
    roundBits_zero, flushBits_zero]
  rfl

/-- A sum of two zeros is a zero. -/
theorem Env.isZero_add (e : Env) {a b : F32} (ha : isZero a = true) (hb : isZero b = true) : isZero (e.add a b) = true := by
  have hqa := isZero_operandF e.p.ftz ha
  have hqb := isZero_operandF e.p.ftz hb
  rw [Env.add, addCore_finite e _ (isFinite_of_isZero hqa) (isFinite_of_isZero hqb), sumFinite, units_of_isZero hqa,
    units_of_isZero hqb, isZero_iff]
  exact fbits_packF _ (by norm_num)

theorem Env.isZero_sum (e : Env) {l : List F32} (h : ∀ v ∈ l, isZero v = true) : isZero (e.sum l) = true := by
  cases l with
  | nil => rfl
  | cons v rest =>
    exact List.foldlRecOn rest e.add (motive := fun acc => isZero acc = true) (h v List.mem_cons_self)
      fun _ hacc w hw => e.isZero_add hacc (h w (List.mem_cons_of_mem v hw))

/-- A finite value minus a zero is the value as it is read, up to the sign of a zero. -/
theorem Env.sub_of_isZero (e : Env) {x y : F32} (hx : isFinite x = true) (hy : isZero y = true) :
    e.sub x y = operandF e.p.ftz x ∨ (isZero (e.sub x y) = true ∧ isZero (operandF e.p.ftz x) = true) := by
  have hny : isZero (fneg y) = true := by rwa [isZero_fneg]
  have hqx := isFinite_operandF e.p.ftz hx
  have hqy := isZero_operandF e.p.ftz hny
  rw [e.sub_eq_add_fneg hx (isFinite_of_isZero hy)]
  cases hz : isZero (operandF e.p.ftz x) with
  | true =>
    refine .inr ⟨?_, rfl⟩
    have hread : e.add x (fneg y) = e.add (operandF e.p.ftz x) (fneg y) := by rw [Env.add, Env.add, operandF_operandF]
    rw [hread, e.isZero_add hz hny]
  | false =>
    have hne : units (operandF e.p.ftz x) ≠ 0 := by
      rw [← Int.natAbs_ne_zero, natAbs_units, Ne, fmag_eq_zero_iff, hz]
      exact Bool.false_ne_true
    have hzero : e.add x (fneg y) = e.add fzero x := by
      rw [Env.add, Env.add, operandF_fzero, addCore_finite e _ hqx (isFinite_of_isZero hqy),
        addCore_finite e _ (by decide) hqx]
      simp only [sumFinite, units_of_isZero hqy, units_of_isZero (x := fzero) (by decide), add_zero, zero_add, if_neg hne]
    exact .inl (hzero.trans (e.fzero_add_of_ne_zero hx hz))

end Sys2Proof

namespace Sys2Proof.Machine

/-! ### One sample (44_anr_leaky.md R100) -/

/-- The new value of one tap: the leaked tap and its share of the correction. -/
def leakyTap (e : Env) (mu leak err inv wj dj : F32) : F32 :=
  e.add (e.mul (e.sub fone (e.mul mu leak)) wj) (e.mul (e.mul (e.mul mu err) inv) dj)

/-- The window a sample meets: its own value is already in the ring. -/
def sampleWindow (e : Env) (st : AnrState) (xs : F32) : List F32 := anrWindow e.p (st.ring.set st.idx xs) st.idx st.nt st.nd

/-- The prediction y. -/
def anrPrediction (e : Env) (st : AnrState) (xs : F32) : F32 :=
  e.sum (List.zipWith e.mul (st.w.take st.nt) (sampleWindow e st xs))

theorem sampleWindow_length (e : Env) (st : AnrState) (xs : F32) : (sampleWindow e st xs).length = st.nt := by
  simp [sampleWindow, anrWindow]

section
variable (e : Env) (kind : AnrOut) (t : TuneRegs) (st : AnrState) (xs : F32)

@[simp] theorem anrSample_ring : (anrSample e kind t st xs).1.ring = st.ring.set st.idx xs := rfl

@[simp] theorem anrSample_nt : (anrSample e kind t st xs).1.nt = st.nt := rfl

/-- The taps a sample leaves: the first NT are updated, with values in common, the others kept. -/
theorem anrSample_w : ∃ leak err inv, (anrSample e kind t st xs).1.w
    = List.zipWith (leakyTap e t.anrMu leak err inv) (st.w.take st.nt) (sampleWindow e st xs) ++ st.w.drop st.nt :=
  ⟨_, _, _, rfl⟩

theorem anrSample_nr : (anrSample e .nr t st xs).2 = anrPrediction e st xs := rfl

theorem anrSample_notch : (anrSample e .notch t st xs).2 = e.sub xs (anrPrediction e st xs) := rfl

end

theorem exists_of_mem_zipWith {f : F32 → F32 → F32} {l l' : List F32} {v : F32} (h : v ∈ List.zipWith f l l') :
    ∃ a ∈ l, ∃ b ∈ l', v = f a b := by
  rw [← List.map_uncurry_zip_eq_zipWith, List.mem_map] at h
  obtain ⟨⟨a, b⟩, hab, hv⟩ := h
  obtain ⟨ha, hb⟩ := List.of_mem_zip hab
  exact ⟨a, ha, b, hb, hv.symm⟩

/-! ### A tap at step size 0 -/

/-- The leak factor is 1 and the correction a zero, whatever the leak, the error and the power are, unless one of them makes a
NaN. -/
theorem leakyTap_fzero (e : Env) {mu : F32} (hmu : isZero mu = true) (leak err inv dj : F32) :
    leakyTap e mu leak err inv fzero dj = fzero ∨ isNaN (leakyTap e mu leak err inv fzero dj) = true := by
  have hmu : ZeroOrNaN mu := .inl hmu
  rcases hmu.mul e leak with hleak | hleak
  · rcases ((hmu.mul e err).mul e inv).mul e dj with hstep | hstep
    · left
      rw [leakyTap, e.fone_sub_of_isZero hleak, e.fone_mul_fzero, e.fzero_add_of_isZero hstep]
    · exact .inr (e.isNaN_add (.inr hstep))
  · exact .inr (e.isNaN_add (.inl (e.isNaN_mul (.inl (e.fone_sub_nan hleak)))))

/-! ### An instance whose taps are +0.0 -/

/-- All taps are +0.0 and the ring holds finite values. -/
structure ZeroTaps (e : Env) (st : AnrState) : Prop where
  w_eq : st.w = zeros e.p.anrTapsMax
  ring_finite : ∀ v ∈ st.ring, isFinite v = true

/-- ANR_INIT (R99). -/
theorem zeroTaps_anrInit (e : Env) (t : TuneRegs) : ZeroTaps e (anrInit e t) :=
  ⟨rfl, fun v hv => by rw [List.eq_of_mem_replicate hv]; rfl⟩

section
variable {e : Env} {t : TuneRegs} {st : AnrState} (h : ZeroTaps e st) {xs : F32} (hxs : isFinite xs = true)
include h

theorem ZeroTaps.eq_fzero_of_mem_take {v : F32} {n : Nat} (hv : v ∈ st.w.take n) : v = fzero := by
  rw [h.w_eq] at hv
  exact List.eq_of_mem_replicate (List.mem_of_mem_take hv)

theorem ZeroTaps.eq_fzero_of_mem_drop {v : F32} {n : Nat} (hv : v ∈ st.w.drop n) : v = fzero := by
  rw [h.w_eq] at hv
  exact List.eq_of_mem_replicate (List.mem_of_mem_drop hv)

include hxs

theorem ZeroTaps.set_finite {v : F32} (hv : v ∈ st.ring.set st.idx xs) : isFinite v = true := by
  rcases List.mem_or_eq_of_mem_set hv with hold | rfl
  · exact h.ring_finite v hold
  · exact hxs

theorem ZeroTaps.window_finite {v : F32} (hv : v ∈ sampleWindow e st xs) : isFinite v = true := by
  obtain ⟨j, -, rfl⟩ := List.mem_map.mp hv
  rcases lt_or_ge ((st.idx + j + st.nd) % e.p.anrDl) (st.ring.set st.idx xs).length with hlt | hge
  · rw [getF_eq_getElem hlt]
    exact h.set_finite hxs (List.getElem_mem hlt)
  · rw [getF_of_length_le hge]
    rfl

/-- The prediction is a zero. -/
theorem ZeroTaps.isZero_prediction : isZero (anrPrediction e st xs) = true := by
  refine e.isZero_sum fun v hv => ?_
  obtain ⟨wj, hwj, dj, hdj, rfl⟩ := exists_of_mem_zipWith hv
  rw [h.eq_fzero_of_mem_take hwj]
  exact e.isZero_mul (by decide) (h.window_finite hxs hdj) (.inl (by decide))

/-- A sample that writes finite values only keeps the taps: what is neither updated to +0.0 nor kept is a NaN. -/
theorem ZeroTaps.sample (kind : AnrOut) (hmu : isZero t.anrMu = true)
    (hok : anrWroteFinite xs (anrSample e kind t st xs).1 = true) : ZeroTaps e (anrSample e kind t st xs).1 := by
  refine ⟨?_, fun v hv => h.set_finite hxs hv⟩
  simp only [anrWroteFinite, allFinite, Bool.and_eq_true, List.all_eq_true, anrSample_nt] at hok
  obtain ⟨-, hfin⟩ := hok
  obtain ⟨leak, err, inv, hw⟩ := anrSample_w e kind t st xs
  rw [hw] at hfin ⊢
  refine List.eq_replicate_iff.mpr ⟨?_, fun v hv => ?_⟩
  · simp only [List.length_append, List.length_zipWith, List.length_take, List.length_drop, sampleWindow_length, h.w_eq,
      zeros_length]
    omega
  · rcases List.mem_append.mp hv with hnew | hkept
    · have hvfin : isFinite v = true := by
        refine hfin v ?_
        rw [List.take_append, List.take_of_length_le (by simp [sampleWindow_length])]
        exact List.mem_append_left _ hnew
      obtain ⟨wj, hwj, dj, -, rfl⟩ := exists_of_mem_zipWith hnew
      rw [h.eq_fzero_of_mem_take hwj] at hvfin ⊢
      refine (leakyTap_fzero e hmu leak err inv dj).resolve_right fun hnan => ?_
      rw [not_isNaN_of_isFinite hvfin] at hnan
      cases hnan
    · exact h.eq_fzero_of_mem_drop hkept

end

/-! ### The block (R101) -/

/-- What R101 says of one output: NR gives a zero, NOTCH the input as it is read, up to the sign of a zero. -/
def ZeroStepOutput (e : Env) (kind : AnrOut) (xs out : F32) : Prop :=
  match kind with
  | .nr => isZero out = true
  | .notch => out = operandF e.p.ftz xs ∨ (isZero out = true ∧ isZero (operandF e.p.ftz xs) = true)

theorem ZeroTaps.output {e : Env} {st : AnrState} (h : ZeroTaps e st) {xs : F32} (hxs : isFinite xs = true) (kind : AnrOut)
    (t : TuneRegs) : ZeroStepOutput e kind xs (anrSample e kind t st xs).2 := by
  cases kind with
  | nr => exact h.isZero_prediction hxs
  | notch => exact e.sub_of_isZero hxs (h.isZero_prediction hxs)

theorem ZeroTaps.block {e : Env} {t : TuneRegs} (hmu : isZero t.anrMu = true) (kind : AnrOut) {x : List F32}
    {st : AnrState} (h : ZeroTaps e st) (hx : ∀ v ∈ x, isFinite v = true) (hok : (anrBlock e kind t st x).ok = true) :
    (anrBlock e kind t st x).st.w = zeros e.p.anrTapsMax
      ∧ List.Forall₂ (ZeroStepOutput e kind) x (anrBlock e kind t st x).out := by
  induction x generalizing st with
  | nil => exact ⟨h.w_eq, .nil⟩
  | cons xs rest ih =>
    obtain ⟨hxs, hrest⟩ := List.forall_mem_cons.mp hx
    obtain ⟨hsample, hnext⟩ := Bool.and_eq_true_iff.mp hok
    obtain ⟨hw, hout⟩ := ih (h.sample hxs kind hmu hsample) hrest hnext
    exact ⟨hw, .cons (h.output hxs kind t) hout⟩

/-- Settles O46, by induction over the block: every sample leaves the taps at +0.0. -/
theorem anrZeroStepSize : Obligations.AnrZeroStepSize := by
  intro e kind u x _ _ hmu hx b hok
  obtain ⟨hw, hout⟩ := (zeroTaps_anrInit e u).block hmu kind hx hok
  obtain ⟨hlen, hget⟩ := List.forall₂_iff_get.mp hout
  refine ⟨hw, hlen.symm, fun i hi => ?_⟩
  have hi' : i < b.out.length := hlen ▸ hi
  have hsample : ZeroStepOutput e kind (getF x i) (getF b.out i) := by
    rw [getF_eq_getElem hi, getF_eq_getElem hi']
    exact hget i hi hi'
  cases kind <;> exact hsample

end Sys2Proof.Machine

/-! The Kim minimum (O47): a fold of fmin over numbers ends in one of them, below all others (45_spectral_kim.md R106). -/

namespace Sys2Proof.Machine

theorem foldl_min_exact (e : Env) {t : F32} {ts : List F32} (ht : isNaN t = false) (hts : ∀ x ∈ ts, isNaN x = false) :
    ts.foldl e.min t ∈ t :: ts ∧ ∀ x ∈ t :: ts, ordKey (ts.foldl e.min t) ≤ ordKey x := by
  induction ts generalizing t with
  | nil => simp
  | cons v rest ih =>
    rw [List.forall_mem_cons] at hts
    obtain ⟨hv, hrest⟩ := hts
    have hmem := e.min_mem ht hv
    obtain ⟨hleft, hright⟩ := e.min_le_left ht hv
    have hnum : isNaN (e.min t v) = false := by rcases hmem with h | h <;> rw [h] <;> assumption
    obtain ⟨hin, hle⟩ := ih hnum hrest
    rw [List.forall_mem_cons] at hle
    obtain ⟨hacc, hle⟩ := hle
    rw [List.foldl_cons]
    constructor
    · rcases List.mem_cons.1 hin with h | h
      · rw [h]
        rcases hmem with h | h <;> simp [h]
      · exact List.mem_cons_of_mem _ (List.mem_cons_of_mem _ h)
    · rw [List.forall_mem_cons, List.forall_mem_cons]
      exact ⟨hacc.trans hleft, hacc.trans hright, hle⟩

/-- Settles O47: the history is not empty, so its minimum is the fold from its first element. -/
theorem kimMinimumIsExact : Obligations.KimMinimumIsExact := by
  intro e l hne hnum
  cases l with
  | nil => exact absurd rfl hne
  | cons t ts =>
    have hall := List.forall_mem_cons.1 hnum
    obtain ⟨hmem, hle⟩ := foldl_min_exact e hall.1 hall.2
    refine ⟨hmem, fun x hx => ?_⟩
    have hmin : isNaN (minF e (t :: ts)) = false := hnum _ hmem
    have hkey : ordKey (minF e (t :: ts)) ≤ ordKey x := hle x hx
    simp [leF, hmin, hnum x hx, hkey]

end Sys2Proof.Machine

/-! The raw Kim gain (O48): the quotient of R107 is not negative or is a NaN, so one minus it is at most one or a NaN, and
raising it to +0.0 leaves a value of [0, 1]. -/

namespace Sys2Proof

/-! ### Values that are not negative (00_scope.md R17) -/

/-- Not below zero: the sign is clear, or the value is -0.0 or a NaN. -/
def NotNegative (x : F32) : Prop := fsign x = false ∨ ZeroOrNaN x

/-- What a divisor must be to keep a quotient from -inf: -0.0 is shut out too. -/
def SignClearOrNaN (x : F32) : Prop := fsign x = false ∨ isNaN x = true

theorem isZero_of_fsign {x : F32} (h : 0 ≤ ordKey x) (hs : fsign x = true) : isZero x = true := by
  rw [isZero_iff]
  simp only [ordKey, hs, if_true] at h
  omega

theorem notNegative_of_leF {x : F32} (h : leF fzero x = true) : NotNegative x := by
  obtain ⟨-, hkey⟩ := (leF_fzero_iff x).1 h
  cases hs : fsign x with
  | false => exact .inl hs
  | true => exact .inr (.inl (isZero_of_fsign hkey hs))

/-- A value above zero as it is read has its sign clear. -/
theorem fsign_of_posF {p : Params} {x : F32} (h : posF p x = true) : fsign x = false := by
  have hkey := ordKey_operandF_of_posF h
  rw [← fsign_operandF p.ftz]
  by_contra hs
  rw [Bool.not_eq_false] at hs
  exact hkey.ne' (ordKey_of_isZero (isZero_of_fsign hkey.le hs))

/-- A register whose lower bound is +0.0 never holds -0.0 (10_state.md R32). -/
theorem fsign_of_legalF_fzero {hi x : F32} (h : legalF fzero hi x = true) : fsign x = false := by
  obtain ⟨-, hle, -, hne⟩ := (legalF_iff _ _ _).1 h
  obtain ⟨-, hkey⟩ := (leF_fzero_iff x).1 hle
  by_contra hs
  rw [Bool.not_eq_false] at hs
  have hbits := (isZero_iff x).1 (isZero_of_fsign hkey hs)
  have hx := packF_fields x
  rw [hs, hbits] at hx
  exact hne ⟨rfl, hx.symm⟩

theorem fsign_infF (neg : Bool) : fsign (infF neg) = neg := fsign_packF neg (by norm_num)

theorem ordKey_nonpos_of_fsign {x : F32} (h : fsign x = true) : ordKey x ≤ 0 := by
  simp [ordKey, h]

theorem units_nonneg_of_notNegative {x : F32} (h : NotNegative x) (hn : isNaN x = false) : 0 ≤ units x := by
  rcases h with hs | hz | hnan
  · simp [units, hs]
  · exact (units_of_isZero hz).ge
  · rw [hn] at hnan
    cases hnan

theorem not_isNaN_of_isInf {x : F32} (h : isInf x = true) : isNaN x = false := by
  rw [isInf_iff] at h
  rw [Bool.eq_false_iff, Ne, isNaN_iff]
  omega

theorem NotNegative.fsign_of_isInf {x : F32} (h : NotNegative x) (hinf : isInf x = true) : fsign x = false := by
  rcases h with hs | hz | hnan
  · exact hs
  · rw [not_isInf_of_isFinite (isFinite_of_isZero hz)] at hinf
    cases hinf
  · rw [not_isNaN_of_isInf hinf] at hnan
    cases hnan

theorem NotNegative.flushed {x : F32} (h : NotNegative x) (ftz : Bool) : NotNegative (operandF ftz x) := by
  rcases h with hs | hz | hnan
  · exact .inl (by rwa [fsign_operandF])
  · exact .inr (.inl (isZero_operandF ftz hz))
  · exact .inr (.inr (by rwa [operandF_nan ftz hnan]))

/-! ### What the operations make of them -/

theorem signClearOrNaN_mulCore (e : Env) {a b : F32} (ha : fsign a = false) (hb : fsign b = false) :
    SignClearOrNaN (mulCore e a b) := by
  simp only [mulCore, ha, hb, bne_self_eq_false]
  split_ifs
  · exact .inr (isNaN_nanF ..)
  · exact .inr (isNaN_nanF ..)
  · exact .inl (fsign_infF _)
  · exact .inr (isNaN_nanF ..)
  · exact .inl (fsign_infF _)
  · exact .inl (fsign_roundF ..)

theorem NotNegative.mul (e : Env) {a b : F32} (ha : NotNegative a) (hb : fsign b = false) : NotNegative (e.mul a b) := by
  rcases ha with hs | hz
  · exact (signClearOrNaN_mulCore e (by rwa [fsign_operandF]) (by rwa [fsign_operandF])).imp_right .inr
  · exact .inr (hz.mul e b)

theorem signClearOrNaN_divCore (e : Env) {a b : F32} (ha : fsign a = false) (hb : fsign b = false) :
    SignClearOrNaN (divCore e a b) := by
  simp only [divCore, ha, hb, bne_self_eq_false]
  split_ifs
  · exact .inr (isNaN_nanF ..)
  · exact .inr (isNaN_nanF ..)
  · exact .inl (fsign_infF _)
  · exact .inl (fsign_packF _ (by norm_num))
  · exact .inr (isNaN_nanF ..)
  · exact .inl (fsign_infF _)
  · exact .inl (fsign_roundF ..)

theorem Env.isNaN_div (e : Env) {a b : F32} (h : isNaN a = true ∨ isNaN b = true) : isNaN (e.div a b) = true := by
  rcases h with h | h <;> simp [Env.div, divCore, h, isNaN_nanF]

/-- A zero over anything is a zero, or a NaN over a zero or a NaN. -/
theorem ZeroOrNaN.div (e : Env) {a : F32} (h : ZeroOrNaN a) (b : F32) : ZeroOrNaN (e.div a b) := by
  rcases h with hz | hnan
  · have hq := isZero_operandF e.p.ftz hz
    simp only [Env.div, divCore, hq, (fmag_eq_zero_iff _).2 hq, not_isInf_of_isFinite (isFinite_of_isZero hq), zero_mul,
      Bool.false_eq_true, if_false, if_true]
    split_ifs
    · exact .inr (isNaN_nanF ..)
    · exact .inl ((isZero_iff _).2 (fbits_packF _ (by norm_num)))
    · exact .inr (isNaN_nanF ..)
    · exact .inl (isZero_roundF_zero ..)
  · exact .inr (e.isNaN_div (.inl hnan))

theorem NotNegative.div (e : Env) {a b : F32} (ha : NotNegative a) (hb : SignClearOrNaN b) : NotNegative (e.div a b) := by
  rcases ha with hsa | hz
  · rcases hb with hsb | hnan
    · exact (signClearOrNaN_divCore e (by rwa [fsign_operandF]) (by rwa [fsign_operandF])).imp_right .inr
    · exact .inr (.inr (e.isNaN_div (.inr hnan)))
  · exact .inr (hz.div e b)

/-- With an addend whose sign is clear no sum of values that are not negative is -0.0. -/
theorem fsign_sumFinite (ftz : Bool) {a b : F32} (ha : 0 ≤ units a) (hb : fsign b = false) :
    fsign (sumFinite ftz a b) = false := by
  have hub : 0 ≤ units b := by simp [units, hb]
  simp only [sumFinite, hb, Bool.and_false]
  split_ifs
  · exact fsign_packF _ (by norm_num)
  · rw [fsign_roundF]
    exact decide_eq_false (by omega)

theorem NotNegative.add (e : Env) {a b : F32} (ha : NotNegative a) (hb : fsign b = false) : SignClearOrNaN (e.add a b) := by
  have hqa := ha.flushed e.p.ftz
  rw [← fsign_operandF e.p.ftz] at hb
  rw [Env.add]
  generalize operandF e.p.ftz a = q at hqa
  generalize operandF e.p.ftz b = r at hb
  unfold addCore
  split_ifs with hnan hinf
  · exact .inr (isNaN_nanF ..)
  · exact .inr (isNaN_nanF ..)
  · exact .inl (hqa.fsign_of_isInf hinf)
  · exact .inl hb
  · simp only [Bool.or_eq_true, not_or, Bool.not_eq_true] at hnan
    exact .inl (fsign_sumFinite _ (units_nonneg_of_notNegative hqa hnan.1) hb)

/-! ### One minus a value that is not negative -/

/-- Narrowing is monotone, and one is a binary32 value. -/
theorem ordKey_sumFinite_le_fone (ftz : Bool) {a b : F32} (h : units a + units b ≤ 2 ^ 149) :
    ordKey (sumFinite ftz a b) ≤ ordKey fone := by
  have hone : ordKey fone = 0x3F800000 := by decide
  rw [hone]
  simp only [sumFinite]
  split_ifs
  · rw [ordKey_of_isZero ((isZero_iff _).2 (fbits_packF _ (by norm_num)))]
    norm_num
  · by_cases hneg : units a + units b < 0
    · exact (ordKey_nonpos_of_fsign (by rw [fsign_roundF, decide_eq_true hneg])).trans (by norm_num)
    · have hle : (units a + units b).natAbs ≤ 2 ^ 149 := by omega
      have hbits := flushBits_le ftz (roundBits_mono (d := 1) hle)
      have htop : roundBits (2 ^ 149) 1 = 0x3F800000 := by decide
      rw [htop] at hbits
      simp only [ordKey, fsign_roundF, decide_eq_false hneg, fbits_roundF, Bool.false_eq_true, if_false]
      exact_mod_cast hbits

theorem Env.fone_sub_le {y : F32} (e : Env) (hy : NotNegative y) :
    isNaN (e.sub fone y) = true ∨ ordKey (e.sub fone y) ≤ ordKey fone := by
  have hq := hy.flushed e.p.ftz
  have hone : isNaN fone = false ∧ isInf fone = false ∧ units fone = 2 ^ 149 := by decide
  obtain ⟨hnone, hione, huone⟩ := hone
  rw [Env.sub, operandF_fone]
  generalize operandF e.p.ftz y = q at hq
  rcases kind_cases q with hfin | hinf | hnan
  · have hu := units_nonneg_of_notNegative hq (not_isNaN_of_isFinite hfin)
    rw [addCore_finite e _ (by decide) (by rwa [isFinite_fneg])]
    exact .inr (ordKey_sumFinite_le_fone _ (by rw [units_fneg, huone]; omega))
  · have hneg : addCore e .sub fone (fneg q) = fneg q := by simp [addCore, hnone, hione, not_isNaN_of_isInf hinf, hinf]
    have hkey : ordKey (fneg q) ≤ 0 := ordKey_nonpos_of_fsign (by rw [fsign_fneg, hq.fsign_of_isInf hinf]; rfl)
    exact .inr (by rw [hneg]; exact hkey.trans (by decide))
  · exact .inl (by simp [addCore, hnan, isNaN_nanF])

/-- A value of at most one, or a NaN, raised to at least +0.0 lies in [0, 1]. -/
theorem Env.fzero_max_mem_unit (e : Env) {z : F32} (h : isNaN z = true ∨ ordKey z ≤ ordKey fone) :
    leF fzero (e.max fzero z) = true ∧ leF (e.max fzero z) fone = true := by
  have hzero : isNaN fzero = false := by decide
  cases hn : isNaN z with
  | true =>
    have hmax : e.max fzero z = fzero := by simp [Env.max, hzero, hn]
    rw [hmax]
    decide
  | false =>
    have hmem := e.max_mem hzero hn
    have hnum : isNaN (e.max fzero z) = false := by rcases hmem with h | h <;> rw [h] <;> assumption
    have hle : ordKey (e.max fzero z) ≤ ordKey fone := by
      rcases hmem with hm | hm <;> rw [hm]
      · decide
      · simpa [hn] using h
    have hge := (e.le_max_left hzero hn).1
    rw [ordKey_fzero] at hge
    have hone : isNaN fone = false := by decide
    exact ⟨(leF_fzero_iff _).2 ⟨hnum, hge⟩, by simp [leF, hnum, hone, hle]⟩

theorem isFinite_of_mem_unit {x : F32} (h0 : leF fzero x = true) (h1 : leF x fone = true) : isFinite x = true := by
  obtain ⟨hn, hkey⟩ := (leF_fzero_iff x).1 h0
  have hlow : isNaN 0xBF800000 = false ∧ ordKey 0xBF800000 ≤ 0 := by decide
  obtain ⟨hnum, hneg⟩ := hlow
  have hge : leF 0xBF800000 x = true := by
    rw [leF, hnum, hn, decide_eq_true (hneg.trans hkey)]
    rfl
  exact isFinite_of_inUnit (by rw [inUnit, hge, h1]; rfl)

theorem Params.epsSpec_of_wf {p : Params} (h : p.wf = true) : posF p p.epsSpec = true := by
  simp only [Params.wf, spectralOk, Bool.and_eq_true] at h
  tauto

end Sys2Proof

namespace Sys2Proof.Machine

/-- The quotient λ·KIM_K / (ref + EPS_SPEC) of R107, for any λ and reference that are not negative. -/
theorem kimQuotient_notNegative (e : Env) (hp : e.p.wf = true) {lam k ref : F32} (hlam : NotNegative lam)
    (hk : fsign k = false) (href : NotNegative ref) : NotNegative (e.div (e.mul lam k) (e.add ref e.p.epsSpec)) :=
  (hlam.mul e hk).div e (href.add e (fsign_of_posF (Params.epsSpec_of_wf hp)))

/-- Settles O48: whichever λ and reference R107 takes, the quotient is not negative or a NaN. -/
theorem kimGainInUnitInterval : Obligations.KimGainInUnitInterval := by
  intro e u power average minimum hp hu hpower haverage hminimum
  have hk : fsign u.kimK = false := by
    simp only [legalTune, Bool.and_eq_true] at hu
    exact fsign_of_legalF_fzero (hi := e.p.kMax) (by tauto)
  have hunit : leF fzero (kimGain e u power average minimum) = true
      ∧ leF (kimGain e u power average minimum) fone = true := by
    refine e.fzero_max_mem_unit (e.fone_sub_le (kimQuotient_notNegative e hp ?_ hk ?_))
    · split_ifs
      · exact notNegative_of_leF hminimum
      · exact notNegative_of_leF haverage
    · split_ifs
      · exact notNegative_of_leF hpower
      · exact notNegative_of_leF haverage
  exact ⟨isFinite_of_mem_unit hunit.1 hunit.2, hunit⟩

end Sys2Proof.Machine

/-! The frame count (O51): cleared by activation, moved by a completed block, and kept by everything else (45_spectral_kim.md
R102). -/

namespace Sys2Proof.Machine

/-- FE_CNT of a spectral mode (R40); the other modes have none. -/
def frameCount (s : State) : Mode → Nat
  | .kim => s.kim.fe.cnt
  | .mmse => s.mmse.fe.cnt
  | _ => 0

/-- WARMUP of a spectral mode (R12). -/
def warmupOf (p : Params) : Mode → Nat
  | .kim => p.kimWarmup
  | .mmse => p.mmseWarmup
  | _ => 0

/-! ### Commands -/

section
variable {m : Mode} (hm : m = .kim ∨ m = .mmse)
include hm

theorem frameCount_execModeSelect {s t : State} (h : exec (.modeSelect (modeCode m)) s = .next t) : frameCount t m = 0 := by
  rcases hm with rfl | rfl <;> cases h <;> rfl

theorem frameCount_runMode {s : State} (hmode : s.mode = m) (x : List F32) :
    frameCount (runMode s x).st m = min (frameCount s m + 1) (max (warmupOf s.cfg m) 1) := by
  rcases hm with rfl | rfl <;> rw [runMode, hmode] <;> rfl

theorem frameCount_notchResult (s : State) : frameCount (notchResult s).st m = frameCount (modeResult s).st m := by
  rcases hm with rfl | rfl
  · exact congrArg (·.fe.cnt) (runNotch_kim _ _)
  · exact congrArg (·.fe.cnt) (runNotch_mmse _ _)

/-- In a spectral mode PROCESS fails RANGE or counts the frame and ends OK (R130, R132). -/
theorem frameCount_execProcess {s t : State} (hmode : s.mode = m) (h : execProcess s = .next t) :
    frameCount t m = if t.err = .ok then min (frameCount s m + 1) (max (warmupOf s.cfg m) 1) else frameCount s m := by
  have hby : s.mode ≠ .bypass := by rcases hm with rfl | rfl <;> simp [hmode]
  have hoff : s.mode.actsAsOff = false := by rw [hmode]; rcases hm with rfl | rfl <;> rfl
  have hundeveloped : m.undeveloped = false := by rcases hm with rfl | rfl <;> rfl
  rcases execProcess_cases s with ⟨-, he⟩ | ⟨-, -, he⟩ | ⟨-, -, hb, -⟩ | ⟨-, -, ho, -⟩ | ⟨-, -, -, -, he⟩
  · rw [he] at h; cases h
  · rw [he] at h
    cases h
    rfl
  · exact absurd hb hby
  · rw [hoff] at ho; cases ho
  · rw [he] at h
    rcases processBlock_cases s with ⟨-, -, -, hp⟩ | ⟨-, hp⟩ <;> rw [hp] at h <;> cases h
    have herr : ((notchResult s).st.mirror (notchResult s).out).finishMode.err = .ok := by
      simp [notchResult, modeResult, hmode, hundeveloped]
    have hcount : frameCount ((notchResult s).st.mirror (notchResult s).out).finishMode m
        = frameCount (notchResult s).st m := by
      rcases hm with rfl | rfl <;> rfl
    exact (hcount.trans ((frameCount_notchResult hm s).trans (frameCount_runMode hm hmode _))).trans (if_pos herr).symm

theorem frameCount_exec {i : Instr} {s t : State} (h : exec i s = .next t) :
    frameCount t m = if i = .modeSelect (modeCode m) then 0
      else if i = .process ∧ s.mode = m ∧ t.err = .ok then min (frameCount s m + 1) (max (warmupOf s.cfg m) 1)
      else frameCount s m := by
  by_cases hsel : i = .modeSelect (modeCode m)
  · subst hsel
    rw [if_pos rfl, frameCount_execModeSelect hm h]
  · rw [if_neg hsel]
    by_cases hrun : i = .process ∧ s.mode = m
    · obtain ⟨rfl, hmode⟩ := hrun
      rw [frameCount_execProcess hm hmode h]
      simp [hmode]
    · rw [if_neg fun hall => hrun ⟨hall.1, hall.2.1⟩]
      obtain ⟨-, hkim, hmmse, -⟩ := inactiveEnginesAreRetained i s t h
      rcases hm with rfl | rfl
      · exact congrArg (·.fe.cnt) (hkim hsel hrun)
      · exact congrArg (·.fe.cnt) (hmmse hsel hrun)

end

/-! ### Host events -/

/-- No host write reaches the spectral engines. -/
theorem writeLoc_spectral (s : State) (l : Loc) (w : Word) :
    (s.writeLoc l w).kim = s.kim ∧ (s.writeLoc l w).mmse = s.mmse := by
  cases l with
  | cmd => simp only [State.writeLoc, State.issue]; split_ifs <;> exact ⟨rfl, rfl⟩
  | _ => exact ⟨rfl, rfl⟩

theorem eventWith_spectral {s t : State} {ev : Event} (hcore : ev ≠ .core) (hreset : ev ≠ .resetAssert)
    (h : eventWith exec s ev = .next t) : t.kim = s.kim ∧ t.mmse = s.mmse := by
  cases ev with
  | core => exact absurd rfl hcore
  | resetAssert => exact absurd rfl hreset
  | read width off => obtain ⟨-, -, -, rfl⟩ := hostRead_next h; exact ⟨rfl, rfl⟩
  | write width off v => obtain ⟨-, -, -, rfl⟩ := hostWrite_next h; exact writeLoc_spectral s _ v
  | resetRelease => cases h; exact ⟨rfl, rfl⟩

/-- Settles O51: `frameCount_exec` in the two spectral modes; no host event but reset reaches their engines. -/
theorem frameCountTransitions : Obligations.FrameCountTransitions := by
  refine ⟨fun i s t h => ⟨frameCount_exec (.inl rfl) h, frameCount_exec (.inr rfl) h⟩,
    fun s t ev rest hin hcore hreset h => ?_⟩
  rw [step_cons s ev rest hin] at h
  obtain ⟨hkim, hmmse⟩ := eventWith_spectral hcore hreset h
  exact ⟨congrArg (·.fe.cnt) hkim, congrArg (·.fe.cnt) hmmse⟩

end Sys2Proof.Machine

/-! The MMSE gain and a-posteriori SNR (O49): each leaves a steady frame as a clamp, and a clamp lies in its range even where
the clamped value is infinite or a NaN (46_spectral_mmse.md R113, R115). -/

namespace Sys2Proof

/-- Unlike `clamp_mem_range`, this asks nothing of the clamped value (R20). -/
theorem Env.clamp_between (e : Env) (x : F32) {lo hi : F32} (hr : FiniteRange lo hi) :
    leF lo (e.clamp x lo hi) = true ∧ leF (e.clamp x lo hi) hi = true := by
  obtain ⟨hlo, hhi, hle⟩ := hr
  have hlo := not_isNaN_of_isFinite hlo
  have hhi := not_isNaN_of_isFinite hhi
  obtain ⟨hnum, hge, hle⟩ := e.clamp_bounds x hlo hhi hle
  simp [leF, hlo, hhi, hnum, hge, hle]

/-- The ranges R12 sets for the MMSE gain and the a-posteriori SNR. -/
theorem Params.mmseRanges_of_wf {p : Params} (h : p.wf = true) :
    FiniteRange p.gmMin p.gmMax ∧ FiniteRange p.gammaMin p.gammaMax := by
  simp only [Params.wf, spectralOk, Bool.and_eq_true] at h
  refine ⟨finiteRange_of_rangeF ?_, finiteRange_of_rangeF ?_⟩ <;> tauto

end Sys2Proof

namespace Sys2Proof.Machine

/-- R113: the a-posteriori SNR stored for the next frame is the clamped power-to-noise ratio. -/
theorem mmseSteadyBin_gamprev (e : Env) (alpha : F32) (b : MmseBin) (power : F32) :
    (mmseSteadyBin e alpha b power).gamprev = e.clamp (mmseRatio e b power) e.p.gammaMin e.p.gammaMax := rfl

/-- R115: the gain is the clamped MMSE_GAIN of some a-priori SNR and the smoothed a-posteriori SNR of this frame. -/
theorem mmseSteadyBin_gprev (e : Env) (alpha : F32) (b : MmseBin) (power : F32) :
    ∃ xi, (mmseSteadyBin e alpha b power).gprev
      = e.clamp (e.f.mmseGain xi (mmseSteadyBin e alpha b power).gams) e.p.gmMin e.p.gmMax := ⟨_, rfl⟩

/-- Settles O49: both values are clamps into ranges that legal parameters keep finite and in order. -/
theorem mmseValuesStayInBounds : Obligations.MmseValuesStayInBounds := by
  intro e alpha b power hp
  obtain ⟨hgain, hsnr⟩ := Params.mmseRanges_of_wf hp
  obtain ⟨xi, hgprev⟩ := mmseSteadyBin_gprev e alpha b power
  simp only [hgprev, mmseSteadyBin_gamprev]
  obtain ⟨hgmin, hgmax⟩ := e.clamp_between (e.f.mmseGain xi (mmseSteadyBin e alpha b power).gams) hgain
  exact ⟨hgmin, hgmax, e.clamp_between (mmseRatio e b power) hsnr⟩

end Sys2Proof.Machine

/-! What each command leaves unchanged (O17, O18): the taps a design commits are at most NMAX, the block PROCESS mirrors is at
most B samples. -/

namespace Sys2Proof.Machine

/-! ### The fields no command writes (48_mode_control.md R122, R135) -/

section
variable {i : Instr} {s t : State} (he : CommandEffect s i t)
include he

theorem CommandEffect.keeps_inputs :
    t.busy = false ∧ t.cfg = s.cfg ∧ t.inbox = s.inbox ∧ t.inReset = s.inReset ∧ t.epoch = s.epoch ∧ t.rdata = s.rdata
      ∧ t.args = s.args ∧ t.tune = s.tune ∧ t.snap = s.snap ∧ t.drop = s.drop := by
  cases he with
  | failed | nop | committed | measured | scaled | notchOff | notchOn | passed =>
    exact ⟨rfl, rfl, rfl, rfl, rfl, rfl, rfl, rfl, rfl, rfl⟩
  | activated => simp
  | processed => simp [notchResult, modeResult]

theorem CommandEffect.keeps_mode (hi : ∀ c, i ≠ .modeSelect c) : t.mode = s.mode := by
  cases he with
  | failed | nop | committed | measured | scaled | notchOff | notchOn | passed => rfl
  | activated => exact absurd rfl (hi _)
  | processed => simp [notchResult, modeResult]

theorem CommandEffect.keeps_notchEn (hon : i ≠ .notchOn) (hoff : i ≠ .notchOff) : t.notchEn = s.notchEn := by
  cases he with
  | failed | nop | committed | measured | scaled | passed => rfl
  | notchOff => exact absurd rfl hoff
  | notchOn => exact absurd rfl hon
  | activated => simp
  | processed => simp [notchResult, modeResult]

theorem CommandEffect.keeps_hLen (hi : ¬DesignCommand i) : t.hLen = s.hLen := by
  cases he with
  | committed _ _ hd => exact absurd hd hi
  | failed | nop | measured | scaled | notchOff | notchOn | passed => rfl
  | activated => simp
  | processed => simp [notchResult, modeResult]

theorem CommandEffect.keeps_mem (hi : ¬DesignCommand i) (hscale : i ≠ .gainScale) (hprocess : i ≠ .process) :
    t.mem = s.mem := by
  cases he with
  | committed _ _ hd => exact absurd hd hi
  | scaled => exact absurd rfl hscale
  | processed => exact absurd rfl hprocess
  | failed | nop | measured | notchOff | notchOn | passed => rfl
  | activated => simp

end

/-! ### Design commands (40_fir_windowed_sinc.md R75, R76) -/

/-- A design command checks N against NMAX first and hands N taps to COMMIT. -/
theorem exec_designCommand {i : Instr} (hi : DesignCommand i) (s : State) :
    ∃ (rest : List (Option ErrCode)) (taps : List F32) (n : Nat),
      exec i s = .next (s.design (firstErr (tapRange s.cfg n :: rest)) taps n) ∧ taps.length = n := by
  cases i with
  | wsfirLp => exact ⟨_, _, _, rfl, wsLp_length ..⟩
  | wsfirHp => exact ⟨_, _, _, rfl, wsHp_length ..⟩
  | wsfirBp => exact ⟨_, _, _, rfl, wsBp_length ..⟩
  | wsfirBs => exact ⟨_, _, _, rfl, wsBs_length ..⟩
  | kaiserLp => exact ⟨_, _, _, rfl, kaiserLpTaps_length ..⟩
  | kaiserHp => exact ⟨_, _, _, rfl, (invert_length ..).trans (kaiserLpTaps_length ..)⟩
  | kaiserBp => exact ⟨_, _, _, rfl, kaiserBpTaps_length ..⟩
  | kaiserBs => exact ⟨_, _, _, rfl, (invert_length ..).trans (kaiserBpTaps_length ..)⟩
  | kaiserHilbert => exact ⟨_, _, _, rfl, hilbertTaps_length ..⟩
  | nop | gainQuery | gainScale | modeSelect | notchOff | notchOn | process => exact hi.elim

/-- A design command fails, or commits at most NMAX taps. -/
theorem designCommand_next {i : Instr} (hi : DesignCommand i) {s t : State} (h : exec i s = .next t) :
    (∃ c, t = s.fail c) ∨ ∃ taps, taps.length ≤ s.cfg.nmax ∧ t = s.commit taps taps.length := by
  obtain ⟨rest, taps, n, he, rfl⟩ := exec_designCommand hi s
  obtain rfl := Host.Outcome.next.inj (he.symm.trans h)
  rcases design_cases s (firstErr (tapRange s.cfg taps.length :: rest)) taps taps.length with ⟨c, -, hd⟩ | ⟨hnone, hd⟩
  · exact .inl ⟨c, hd⟩
  · have hrange : tapRange s.cfg taps.length = none := (firstErr_eq_none _).1 hnone _ List.mem_cons_self
    have hn : ¬(taps.length = 0 ∨ s.cfg.nmax < taps.length) := by simpa [tapRange, failIf_eq_none] using hrange
    exact .inr ⟨taps, by omega, hd⟩

theorem onlyDesignBytes_of_mem_eq {s t : State} (h : t.mem = s.mem) : OnlyDesignBytes s t := fun _ _ _ => by rw [h]

theorem onlyDesignBytes_commit (s : State) {taps : List F32} (hle : taps.length ≤ s.cfg.nmax) (n : Nat) :
    OnlyDesignBytes s (s.commit taps n) := fun a hh hq => by
  rw [commit_mem, readByte_quantizeMem_outside s.env _ hq, readByte_storeTaps_outside s.mem hle hh]

theorem onlyDesignBytes_designCommand {i : Instr} (hi : DesignCommand i) {s t : State} (h : exec i s = .next t) :
    OnlyDesignBytes s t := by
  rcases designCommand_next hi h with ⟨c, rfl⟩ | ⟨taps, hle, rfl⟩
  · exact onlyDesignBytes_of_mem_eq rfl
  · exact onlyDesignBytes_commit s hle _

/-! ### GAIN.SCALE (41_fir_gain.md R84) -/

theorem CommandEffect.onlyDesignBytes_gainScale {s t : State} (he : CommandEffect s .gainScale t)
    (hlen : s.hLen.toNat ≤ s.cfg.nmax) : OnlyDesignBytes s t := by
  cases he with
  | failed => exact onlyDesignBytes_of_mem_eq rfl
  | committed _ _ hd => exact hd.elim
  | scaled =>
    exact fun a hh hq => (readByte_quantizeMem_outside s.env _ hq).trans
      (Memory.readByte_writeWords_outside _ _ (by rw [scaledTaps_length]; omega))

/-! ### The length of the block (48_mode_control.md R129, R132) -/

theorem lmsLoop_out_length (e : Env) (mu : F32) (pairs : List (F32 × F32)) (w past : List F32) :
    (lmsLoop e mu pairs w past).out.length = pairs.length := by
  induction pairs generalizing w past with
  | nil => rfl
  | cons pair rest ih => exact congrArg (· + 1) (ih _ _)

@[simp] theorem anrBlock_out_length (e : Env) (kind : AnrOut) (t : TuneRegs) (st : AnrState) (x : List F32) :
    (anrBlock e kind t st x).out.length = x.length := by
  induction x generalizing st with
  | nil => rfl
  | cons xs rest ih => exact congrArg (· + 1) (ih _)

@[simp] theorem runNotch_out_length (s : State) (m : List F32) : (runNotch s m).out.length = m.length := by
  cases hen : s.notchEn with
  | false => rw [runNotch_of_off s m hen]
  | true => rw [runNotch_of_on s m hen, anrBlock_out_length]

theorem overlapAdd_out_length_le (e : Env) (warmup : Nat) (fe : FrameState) (x vr : List F32) :
    (overlapAdd e warmup fe x vr).out.length ≤ e.p.blk := by
  simp only [overlapAdd, List.length_zipWith, List.length_take]
  omega

theorem nlmsBlock_out_length_le (e : Env) (st : LmsState) (x : List F32) : (nlmsBlock e st x).out.length ≤ x.length := by
  simp only [nlmsBlock, lmsLoop_out_length, List.length_zip]
  omega

/-- Whatever shape the engines' state has, none gives more samples than the block holds. -/
theorem modeResult_out_length_le (s : State) : (modeResult s).out.length ≤ s.cfg.blk := by
  have hm := foldBlock_length s
  rw [modeResult]
  generalize foldBlock s.env s.left s.right = m at hm
  unfold runMode
  split
  · exact (nlmsBlock_out_length_le ..).trans hm.le
  · exact overlapAdd_out_length_le s.env s.cfg.kimWarmup s.kim.fe m _
  · exact overlapAdd_out_length_le s.env s.cfg.mmseWarmup s.mmse.fe m _
  · exact (anrBlock_out_length ..).trans hm |>.le
  all_goals exact hm.le

theorem notchResult_out_length_le (s : State) : (notchResult s).out.length ≤ s.cfg.blk := by
  rw [notchResult, runNotch_out_length]
  exact modeResult_out_length_le s

theorem onlySampleBytes_mirror {s u : State} (hmem : u.mem = s.mem) {m : List F32} (hm : m.length ≤ s.cfg.blk) :
    OnlySampleBytes s (u.mirror m) := fun a hl hr => by
  rw [mirror_mem, hmem, Memory.readByte_writeWords_outside _ _ (by omega), Memory.readByte_writeWords_outside _ _ (by omega)]

theorem CommandEffect.onlySampleBytes_process {s t : State} (he : CommandEffect s .process t) : OnlySampleBytes s t := by
  cases he with
  | failed | passed => exact fun _ _ _ => rfl
  | committed _ _ hd => exact hd.elim
  | processed =>
    exact onlySampleBytes_mirror (u := (notchResult s).st) (by simp [notchResult, modeResult]) (notchResult_out_length_le s)

/-- Settles O18: field by field over the effects a command can have, and by the lengths of what is stored. -/
theorem commandFrames : Obligations.CommandFrames := by
  intro i s t h
  have he := commandEffect_exec h
  refine ⟨he.keeps_inputs, he.keeps_mode, he.keeps_notchEn, he.keeps_gain, he.keeps_hLen, he.keeps_mem,
    fun hi => onlyDesignBytes_designCommand hi h, ?_, ?_⟩
  · rintro rfl
    exact he.onlyDesignBytes_gainScale
  · rintro rfl
    exact he.onlySampleBytes_process

theorem finishMode_ends (s : State) : s.finishMode.err = .ok ∨ s.finishMode.err = .unimpl := by
  rw [finishMode_err]
  split_ifs <;> simp

/-- Settles O17: every effect but a failure ends OK, PROCESS in a heuristic mode UNIMPL. -/
theorem failedCommandsChangeOnlyStatus : Obligations.FailedCommandsChangeOnlyStatus := by
  intro i s t h hok hunimpl
  cases commandEffect_exec h with
  | failed => rfl
  | nop | committed | measured | scaled | activated | notchOff | notchOn => exact absurd rfl hok
  | passed | processed => exact ((finishMode_ends _).elim hok hunimpl).elim

end Sys2Proof.Machine

/-! The design under a step (O56): commits and scalings leave it consistent, and nothing else writes the bytes from 0x3000 on. -/

namespace Sys2Proof

theorem Params.qScale_of_wf {p : Params} (h : p.wf = true) : posF p p.qScale = true := by
  simp only [Params.wf, firOk, Bool.and_eq_true] at h
  tauto

end Sys2Proof

namespace Sys2Proof.Machine

/-! ### Bytes past the sample buffers -/

/-- The coefficients depend on the parameters, H_LEN and the bytes from 0x3000 on alone. -/
theorem DesignConsistent.of_bytes {s t : State} (h : DesignConsistent s) (hcfg : t.cfg = s.cfg) (hlen : t.hLen = s.hLen)
    (hmem : ∀ a, 0x3000 ≤ a → Memory.readByte t.mem a = Memory.readByte s.mem a) : DesignConsistent t := by
  have hword : ∀ a, 0x3000 ≤ a → Memory.readWord t.mem a = Memory.readWord s.mem a := fun a ha =>
    Memory.readWord_congr fun b hb _ => hmem b (ha.trans hb)
  have hh : ∀ n, Memory.readWord t.mem (hcoefBase + 4 * n) = Memory.readWord s.mem (hcoefBase + 4 * n) := fun n =>
    hword _ (by unfold hcoefBase; omega)
  have hq : ∀ n, Memory.readWord t.mem (qcoefBase + 4 * n) = Memory.readWord s.mem (qcoefBase + 4 * n) := fun n =>
    hword _ (by unfold qcoefBase; omega)
  have henv : t.env = s.env := by rw [State.env, State.env, hcfg]
  simpa only [DesignConsistent, hcfg, hlen, hh, hq, henv] using h

/-- The sample buffers end at or before 0x3000 (20_memory.md R46). -/
theorem OnlySampleBytes.past_buffers {s t : State} (h : OnlySampleBytes s t) (hp : s.cfg.wf = true) (a : Nat)
    (ha : 0x3000 ≤ a) : Memory.readByte t.mem a = Memory.readByte s.mem a := by
  obtain ⟨-, hB, -⟩ := Params.sizes_of_wf hp
  exact h a (.inr (by unfold sampLBase; omega)) (.inr (by unfold sampRBase; omega))

/-- The map holds a sample slot only below B. -/
theorem slot_lt_of_locate {p : Params} {a i : Nat} (h : locate p a = .sampL i ∨ locate p a = .sampR i) : i < p.blk := by
  have reg : ∀ {l}, regAt a = l → l ≠ .sampL i ∧ l ≠ .sampR i := by
    rintro l rfl
    unfold regAt
    split <;> simp
  unfold locate slotAt at h
  split_ifs at h <;> simp_all

/-- A host write reaches no byte past the sample buffers (R26). -/
theorem readByte_writeLoc {s : State} (hp : s.cfg.wf = true) (off : Nat) (w : Word) {a : Nat} (ha : 0x3000 ≤ a) :
    Memory.readByte (s.writeLoc (locate s.cfg off) w).mem a = Memory.readByte s.mem a := by
  obtain ⟨-, hB, -⟩ := Params.sizes_of_wf hp
  cases hl : locate s.cfg off with
  | sampL i =>
    have hi := slot_lt_of_locate (.inl hl)
    exact Memory.readByte_writeWord_outside _ _ (.inr (by unfold sampLBase; omega))
  | sampR i =>
    have hi := slot_lt_of_locate (.inr hl)
    exact Memory.readByte_writeWord_outside _ _ (.inr (by unfold sampRBase; omega))
  | cmd => exact congrArg (Memory.readByte · a) (issue_mem s w)
  | status | gain | hLen | arg | tune | hcoef | qcoef | reserved => rfl

@[simp] theorem issue_hLen (s : State) (w : Word) : (s.issue w).hLen = s.hLen := by
  unfold State.issue; split_ifs <;> rfl

@[simp] theorem writeLoc_hLen (s : State) (l : Loc) (w : Word) : (s.writeLoc l w).hLen = s.hLen := by
  cases l with
  | cmd => exact issue_hLen s w
  | _ => rfl

/-! ### Commands -/

theorem designConsistent_commit {s : State} (hs : LegalMachine s) {taps : List F32} (hle : taps.length ≤ s.cfg.nmax) :
    DesignConsistent (s.commit taps taps.length) := by
  obtain ⟨-, -, -, hmax⟩ := Params.sizes_of_wf hs.1
  have hlen : (s.commit taps taps.length).hLen.toNat = taps.length := by
    rw [commit_hLen, BitVec.toNat_ofNat, Nat.mod_eq_of_lt (by omega)]
  refine ⟨hlen.trans_le hle, fun n hn hlt => ?_, fun n hlt => ⟨getF taps n, readWord_commit_hcoef hs hle _ hlt,
    readWord_commit_qcoef hs hle _ hlt⟩⟩
  rw [readWord_commit_hcoef hs hle _ hlt, getF_of_length_le (hlen ▸ hn)]

/-- GAIN.SCALE keeps H_LEN and the slots past it, and quantizes anew (41_fir_gain.md R84). -/
theorem designConsistent_scaled {s : State} (hs : LegalMachine s) (h : DesignConsistent s) :
    DesignConsistent { s with mem := quantizeMem s.env (Memory.writeWords s.mem hcoefBase (scaledTaps s)) }.done := by
  obtain ⟨hp, hw⟩ := hs
  obtain ⟨-, -, -, hmax⟩ := Params.sizes_of_wf hp
  obtain ⟨hle, htail, -⟩ := h
  have hcoef : ∀ n, n < s.cfg.nmax → Memory.readWord (quantizeMem s.env (Memory.writeWords s.mem hcoefBase (scaledTaps s)))
      (hcoefBase + 4 * n) = some (if n < s.hLen.toNat then s.env.mul (coefAt s n) (cappedScale s) else coefAt s n) :=
    fun n hn => (readWord_quantizeMem_hcoef (e := s.env) _ hmax hn).trans (readWord_write_scaledTaps hw n)
  refine ⟨hle, fun n (hn : s.hLen.toNat ≤ n) hlt => ?_, fun n hlt => ⟨_, hcoef n hlt, ?_⟩⟩
  · refine (hcoef n hlt).trans ?_
    rw [if_neg (not_lt.2 hn), coefAt, htail n hn hlt, Option.getD_some]
  · exact readWord_quantizeMem (e := s.env) (Memory.wf_writeWords _ _ hw) hlt (readWord_write_scaledTaps hw n)

theorem designConsistent_exec {i : Instr} {s t : State} (hs : LegalMachine s) (h : DesignConsistent s)
    (he : exec i s = .next t) : DesignConsistent t := by
  have heffect := commandEffect_exec he
  cases heffect with
  | failed | nop | measured | notchOff | notchOn | passed => exact h
  | activated => exact h.of_bytes (by simp) (by simp) (by simp)
  | scaled => exact designConsistent_scaled hs h
  | committed _ _ hd =>
    rcases designCommand_next hd he with ⟨c, ht⟩ | ⟨taps, hle, ht⟩ <;> rw [ht]
    · exact h
    · exact designConsistent_commit hs hle
  | processed =>
    exact h.of_bytes (by simp [notchResult, modeResult]) (by simp [notchResult, modeResult])
      ((commandEffect_exec he).onlySampleBytes_process.past_buffers hs.1)

/-! ### Reset (70_reset_and_hazards.md R149) -/

/-- Past the sample buffers an empty window reads zero. -/
theorem readWord_nil {a : Nat} (h : 0x3000 ≤ a) : Memory.readWord [] a = some fzero := by
  have hbyte : ∀ b, a ≤ b → Memory.readByte [] b = some 0 := fun b hb => if_neg (by omega)
  rw [Memory.readWord, hbyte a le_rfl, hbyte (a + 1) (by omega), hbyte (a + 2) (by omega), hbyte (a + 3) (by omega)]
  rfl

theorem quantWord_fzero {e : Env} (hp : e.p.wf = true) : quantWord e fzero = fzero := by
  have hscale := Params.qScale_of_wf hp
  obtain ⟨-, hfin, -⟩ := finiteRange_of_posF hscale
  rw [quantWord, quantInt, e.fzero_mul_of_nonneg hfin (fsign_of_posF hscale)]
  rfl

theorem designConsistent_resetOf {p : Params} (hp : p.wf = true) : DesignConsistent (State.resetOf p) := by
  have hh : ∀ n, Memory.readWord (State.resetOf p).mem (hcoefBase + 4 * n) = some fzero := fun n =>
    readWord_nil (by unfold hcoefBase; omega)
  refine ⟨Nat.zero_le _, fun n _ _ => hh n, fun n _ => ⟨fzero, hh n, ?_⟩⟩
  rw [quantWord_fzero (e := (State.resetOf p).env) hp]
  exact readWord_nil (by unfold qcoefBase; omega)

/-! ### One step -/

theorem designConsistent_coreMove {s t : State} (hs : LegalMachine s) (h : DesignConsistent s)
    (hc : coreMoveWith exec s = .next t) : DesignConsistent t := by
  rcases coreMove_next hc with ⟨-, rfl⟩ | ⟨-, rfl⟩ | ⟨i, -, -, he⟩
  · exact h
  · exact h
  · exact designConsistent_exec hs h he

/-- Settles O56: the coefficients are written by COMMIT and GAIN.SCALE, which quantize anew, and cleared by reset; a host write
reaches the sample buffers only. -/
theorem stepKeepsDesignConsistent : Obligations.StepKeepsDesignConsistent := by
  intro s t hs h hstep
  have hpop : DesignConsistent s.popEvent := h
  have hpopLegal : LegalMachine s.popEvent := hs
  rcases step_next hstep with hc | ⟨width, off, hr⟩ | ⟨width, off, v, hw⟩ | rfl | rfl
  · exact designConsistent_coreMove hpopLegal hpop hc
  · obtain ⟨-, -, -, rfl⟩ := hostRead_next hr
    exact hpop
  · obtain ⟨-, -, -, rfl⟩ := hostWrite_next hw
    exact hpop.of_bytes (writeLoc_cfg ..) (writeLoc_hLen ..) fun _ ha => readByte_writeLoc hpopLegal.1 _ _ ha
  · exact designConsistent_resetOf hs.1
  · exact hpop

/-- Settles O58: the parameter set of `State.reset` is checked by evaluation, and each invariant holds of an empty window and of
fresh registers and engines. -/
theorem resetMeetsTheInvariants : Obligations.ResetMeetsTheInvariants := by
  refine ⟨by decide +kernel, rfl, fun p hp => ⟨⟨hp, Memory.wf_nil⟩, ⟨?_, ?_⟩, designConsistent_resetOf hp,
    engineShapes_resetOf hp⟩⟩
  · exact Params.legalTune_rst hp
  · exact Params.legalTune_rst hp

end Sys2Proof.Machine

/-! Mode control and PROCESS (48_mode_control.md, O20, O37 to O42). -/

namespace Sys2Proof.Machine

/-! ### NOP, MODE.SELECT and the notch commands (R125 to R128) -/

/-- Settles O20: with OP 0 the rest of the word is the word. -/
theorem nopOnlySetsOk : Obligations.NopOnlySetsOk := by
  refine ⟨by decide, fun w hop hne => ?_, fun s => rfl⟩
  have hrest : ¬w.toNat % 2 ^ 24 = 0 := fun h => by
    have hzero : w.toNat = 0 := by unfold opField at hop; omega
    exact hne (BitVec.eq_of_toNat_eq hzero)
  rw [decode, hop]
  exact if_neg hrest

theorem modeOf_modeCode (m : Mode) : modeOf (modeCode m) = some m := by cases m <;> rfl

theorem execModeSelect_modeCode (m : Mode) (s : State) : execModeSelect (modeCode m) s = .next (s.activate m).done := by
  rw [execModeSelect, modeOf_modeCode]

/-- Settles O37: the code is the mode's own, and activation writes the one engine. -/
theorem modeSelectActivates : Obligations.ModeSelectActivates := by
  intro s c m hcode p u fe
  obtain rfl : c = modeCode m := by
    simp only [List.mem_cons, Prod.mk.injEq, List.not_mem_nil, or_false] at hcode
    rcases hcode with ⟨rfl, rfl⟩ | ⟨rfl, rfl⟩ | ⟨rfl, rfl⟩ | ⟨rfl, rfl⟩ | ⟨rfl, rfl⟩ | ⟨rfl, rfl⟩ | ⟨rfl, rfl⟩ | ⟨rfl, rfl⟩ <;>
      rfl
  refine (execModeSelect_modeCode m s).trans (congrArg _ ?_)
  cases m <;> rfl

/-- Settles O38: both commands are one update of the state. -/
theorem notchCommands : Obligations.NotchCommands := fun _ => ⟨rfl, rfl⟩

/-! ### The input check (R129, R130) -/

theorem left_eq_map_sampAt (s : State) : s.left = (List.range s.cfg.blk).map (sampAt s sampLBase) := by
  simp only [State.left, State.sampL, Memory.readSlots, List.map_map]
  rfl

theorem right_eq_map_sampAt (s : State) : s.right = (List.range s.cfg.blk).map (sampAt s sampRBase) := by
  simp only [State.right, State.sampR, Memory.readSlots, List.map_map]
  rfl

theorem sampAt_eq {s : State} {base i : Nat} {v : F32} (h : Memory.readWord s.mem (base + 4 * i) = some v) :
    sampAt s base i = v := by rw [sampAt, h, Option.getD_some]

/-- Slot i of a channel, by the channel's offset. -/
def IsSlot (s : State) (i base : Nat) : Prop := i < s.cfg.blk ∧ (base = sampLBase ∨ base = sampRBase)

theorem forall_isSlot_iff (s : State) (P : Nat → Nat → Prop) :
    (∀ i base, IsSlot s i base → P i base)
      ↔ (∀ i, i < s.cfg.blk → P i sampLBase) ∧ ∀ i, i < s.cfg.blk → P i sampRBase := by
  constructor
  · exact fun h => ⟨fun i hi => h i _ ⟨hi, .inl rfl⟩, fun i hi => h i _ ⟨hi, .inr rfl⟩⟩
  · rintro ⟨hl, hr⟩ i base ⟨hi, rfl | rfl⟩
    · exact hl i hi
    · exact hr i hi

theorem sampsWritten_iff (s : State) :
    s.sampsWritten = true ↔ ∀ i base, IsSlot s i base → ∃ v, Memory.readWord s.mem (base + 4 * i) = some v := by
  rw [forall_isSlot_iff]
  simp [State.sampsWritten, State.sampL, State.sampR, Memory.readSlots, Option.isSome_iff_exists]

theorem sampleOk_iff (e : Env) (v : F32) : sampleOk e v = true ↔ isFinite v = true ∧ e.lt e.p.xMax (fabs v) = false := by
  simp [sampleOk]

theorem sampsOk_iff (s : State) :
    s.sampsOk = true ↔ ∀ i base, IsSlot s i base →
      isFinite (sampAt s base i) = true ∧ s.env.lt s.cfg.xMax (fabs (sampAt s base i)) = false := by
  rw [forall_isSlot_iff]
  simp [State.sampsOk, left_eq_map_sampAt, right_eq_map_sampAt, sampleOk_iff]

/-- A ready block passes both checks. -/
theorem BlockReady.accepted {s : State} (h : BlockReady s) : s.sampsWritten = true ∧ s.sampsOk = true := by
  rw [sampsWritten_iff, sampsOk_iff]
  constructor
  · rintro i base ⟨hi, hbase⟩
    obtain ⟨v, hv, -⟩ := h i hi base hbase
    exact ⟨v, hv⟩
  · rintro i base ⟨hi, hbase⟩
    obtain ⟨v, hv, hok⟩ := h i hi base hbase
    rwa [sampAt_eq hv]

/-- Settles O41: the two checks of R130, slot by slot. -/
theorem processChecksItsInput : Obligations.ProcessChecksItsInput := by
  refine fun s => ⟨?_, fun hwritten => ?_⟩
  · rintro ⟨i, base, hi, hbase, hnone⟩
    have hno : ¬s.sampsWritten = true := fun h => by
      obtain ⟨v, hv⟩ := (sampsWritten_iff s).1 h i base ⟨hi, hbase⟩
      cases hnone.symm.trans hv
    exact if_pos (by simpa using hno)
  · rintro ⟨i, base, v, hi, hbase, hv, hbad⟩
    have hyes : s.sampsWritten = true := (sampsWritten_iff s).2 fun i base ⟨hi, hbase⟩ => hwritten i base hi hbase
    have hno : ¬s.sampsOk = true := fun h => by
      have hok := (sampsOk_iff s).1 h i base ⟨hi, hbase⟩
      rw [sampAt_eq hv] at hok
      rcases hbad with hinf | hlarge
      · cases hinf.symm.trans hok.1
      · cases hlarge.symm.trans hok.2
    exact (if_neg (by simpa using hyes)).trans (if_pos (by simpa using hno))

/-! ### The block passed on untouched (R132, R124) -/

/-- Settles O39: BYPASS is answered before the notch is looked at. -/
theorem bypassLeavesTheBlock : Obligations.BypassLeavesTheBlock := by
  intro s hready hmode
  obtain ⟨hw, hok⟩ := hready.accepted
  change execProcess s = .next s.done
  simp [execProcess, hw, hok, hmode]

/-- With OFF_OUTPUT = PASS and no notch the modes without an algorithm only end the command. -/
theorem execProcess_passes {s : State} (hready : BlockReady s) (hpass : s.cfg.offOutput = .pass) (hn : s.notchEn = false)
    (hmode : s.mode.actsAsOff = true) : execProcess s = .next s.finishMode := by
  obtain ⟨hw, hok⟩ := hready.accepted
  have hby : s.mode ≠ .bypass := fun h => by rw [h] at hmode; cases hmode
  simp [execProcess, hw, hok, hby, hpass, hn, hmode]

theorem undeveloped_iff (m : Mode) : m.undeveloped = true ↔ m = .heur1 ∨ m = .heur2 := by
  cases m <;> simp [Mode.undeveloped]

theorem finishMode_eq (s : State) :
    s.finishMode = s.finish (if s.mode = .heur1 ∨ s.mode = .heur2 then .unimpl else .ok) := by
  simp only [State.finishMode, undeveloped_iff]

/-- Settles O40: `finish(md)` reports UNIMPL in the heuristic modes only. -/
theorem offAndHeuristicModesPass : Obligations.OffAndHeuristicModesPass := by
  refine fun s hready hpass hn => ⟨fun hmode => ?_, fun hmode => ?_⟩
  · rw [exec, execProcess_passes hready hpass hn (by rw [hmode]; rfl), finishMode_eq, if_neg (by simp [hmode])]
    rfl
  · have hoff : s.mode.actsAsOff = true := by rcases hmode with h | h <;> rw [h] <;> rfl
    rw [exec, execProcess_passes hready hpass hn hoff, finishMode_eq, if_pos hmode]
    rfl

end Sys2Proof.Machine

/-! The body of PROCESS (48_mode_control.md R129 to R132, O42): the folded block, what the engines make of it, and the block read
back from both channels. -/

namespace Sys2Proof.Machine

/-! ### The block keeps its length through the engines -/

theorem nlmsBlock_out_length {e : Env} {st : LmsState} {x : List F32} (h : LmsShape e.p st) (hx : x.length = e.p.blk) :
    (nlmsBlock e st x).out.length = e.p.blk := by
  obtain ⟨-, hcursor, -⟩ := lmsShape_nlmsBlock h hx
  obtain ⟨hring, hwc, -⟩ := h
  have hlen : (splice st.ring st.wc x).length = 2 * e.p.blk := (splice_length (by omega)).trans hring
  change (st.wc + e.p.blk) % (2 * e.p.blk) = 0 ∨ (st.wc + e.p.blk) % (2 * e.p.blk) = e.p.blk at hcursor
  simp only [nlmsBlock, lmsLoop_out_length, List.length_zip, List.length_take, List.length_drop, hlen, hx]
  omega

theorem overlapAdd_out_length {e : Env} (warmup : Nat) (fe : FrameState) {x vr : List F32} (hfout : fe.fout.length = e.p.blk)
    (hvr : vr.length = 2 * e.p.blk) : (overlapAdd e warmup fe x vr).out.length = e.p.blk := by
  simp only [overlapAdd, List.length_zipWith, List.length_take, hfout, hvr]
  omega

theorem frameKim_out_length {s : State} (t : TuneRegs) {st : KimState} {x : List F32} (h : KimShape s.cfg st)
    (hx : x.length = s.cfg.blk) : (frameKim s.env t st x).out.length = s.cfg.blk := by
  obtain ⟨-, -, -, -, hfin, hfout, -⟩ := h
  refine overlapAdd_out_length (e := s.env) (x := x) s.cfg.kimWarmup _ hfout ?_
  simp only [List.length_map, ifft_length, List.length_mapIdx, fft_length, windowedFrame_length, hfin, hx, env_p, two_mul]

theorem frameMmse_out_length {s : State} (t : TuneRegs) {st : MmseState} {x : List F32} (h : MmseShape s.cfg st)
    (hx : x.length = s.cfg.blk) : (frameMmse s.env t st x).out.length = s.cfg.blk := by
  obtain ⟨-, hfin, hfout, -⟩ := h
  refine overlapAdd_out_length (e := s.env) (x := x) s.cfg.mmseWarmup _ hfout ?_
  simp only [ifft_length, List.length_mapIdx, fft_length, windowedFrame_length, hfin, hx, env_p, two_mul]

theorem runMode_out_length {s : State} {m : List F32} (h : EngineShapes s) (hm : m.length = s.cfg.blk) :
    (runMode s m).out.length = s.cfg.blk := by
  obtain ⟨hlms, -, -, hkim, hmmse⟩ := h
  unfold runMode
  split
  · exact nlmsBlock_out_length (e := s.env) hlms hm
  · exact frameKim_out_length _ hkim hm
  · exact frameMmse_out_length _ hmmse hm
  · exact (anrBlock_out_length ..).trans hm
  all_goals exact hm

theorem notchResult_out_length {s : State} (h : EngineShapes s) : (notchResult s).out.length = s.cfg.blk := by
  rw [notchResult, runNotch_out_length]
  exact runMode_out_length h (foldBlock_length s)

/-! ### What the engines leave -/

/-- The active mode's engine is the one part of the state a mode writes (R43). -/
theorem runMode_st (s : State) (m : List F32) :
    (runMode s m).st =
      { s with
        lms := if s.mode = .lms then (nlmsBlock s.env s.lms m).st else s.lms
        kim := if s.mode = .kim then (frameKim s.env s.snap.tune s.kim m).st else s.kim
        mmse := if s.mode = .mmse then (frameMmse s.env s.snap.tune s.mmse m).st else s.mmse
        anrNr := if s.mode = .anr then (anrBlock s.env .nr s.snap.tune s.anrNr m).st else s.anrNr } := by
  obtain ⟨cfg, inbox, inReset, epoch, rdata, busy, drop, err, mode, _⟩ := s
  cases mode <;> rfl

@[simp] theorem runMode_env (s : State) (m : List F32) : (runMode s m).st.env = s.env := by
  rw [State.env, State.env, runMode_cfg]

/-- The notch runs on the output of the mode (R132). -/
theorem notchResult_of_on {s : State} (h : s.notchEn = true) :
    notchResult s =
      { st := { (modeResult s).st with
          anrNotch := (anrBlock s.env .notch s.snap.tune s.anrNotch (modeResult s).out).st }
        out := (anrBlock s.env .notch s.snap.tune s.anrNotch (modeResult s).out).out
        ok := (anrBlock s.env .notch s.snap.tune s.anrNotch (modeResult s).out).ok } := by
  rw [notchResult, runNotch_of_on _ _ (by simpa [modeResult] using h)]
  simp [modeResult]

theorem notchResult_of_off {s : State} (h : s.notchEn = false) :
    notchResult s = { st := (modeResult s).st, out := (modeResult s).out, ok := true } :=
  runNotch_of_off _ _ (by simpa [modeResult] using h)

theorem notchResult_st (s : State) :
    (notchResult s).st = { (modeResult s).st with
      anrNotch := if s.notchEn then (anrBlock s.env .notch s.snap.tune s.anrNotch (modeResult s).out).st else s.anrNotch } := by
  cases hn : s.notchEn with
  | false => rw [notchResult_of_off hn]; simp [modeResult, runMode_st]
  | true => rw [notchResult_of_on hn]; rfl

/-! ### The two outcomes -/

/-- A block that is neither refused nor passed on untouched is processed. -/
theorem execProcess_processes {s : State} (hready : BlockReady s) (hby : s.mode ≠ .bypass)
    (hruns : s.notchEn = true ∨ s.cfg.offOutput = .fold ∨ (s.mode ≠ .off ∧ s.mode ≠ .heur1 ∧ s.mode ≠ .heur2)) :
    execProcess s = processBlock s := by
  obtain ⟨hw, hok⟩ := hready.accepted
  have hno : (s.mode.actsAsOff && s.cfg.offOutput == .pass && !s.notchEn) = false := by
    rcases hruns with hn | hfold | hmode
    · simp [hn]
    · simp [hfold]
    · have hoff : s.mode.actsAsOff = false := by cases h : s.mode <;> simp_all [Mode.actsAsOff]
      simp [hoff]
  simp [execProcess, hw, hok, hby, hno]

/-- The block body completes exactly where every value it writes is finite (R131). -/
theorem processBlock_eq (s : State) :
    processBlock s =
      if (modeResult s).ok = true ∧ (notchResult s).ok = true ∧ allFinite (notchResult s).out = true then
        .next ((notchResult s).st.mirror (notchResult s).out).finishMode
      else .refused .overflow := by
  rcases processBlock_cases s with ⟨hok, hnok, hfin, hp⟩ | ⟨hno, hp⟩
  · exact hp.trans (if_pos ⟨hok, hnok, hfin⟩).symm
  · exact hp.trans (if_neg hno).symm

/-- The mirrored block stands in both channels, and no other byte changed. -/
theorem blockWritten_mirror {s u : State} (hs : LegalMachine s) (hmem : u.mem = s.mem) {m : List F32}
    (hm : m.length = s.cfg.blk) : BlockWritten s (u.mirror m) m := by
  obtain ⟨hp, hw⟩ := hs
  obtain ⟨-, hB, -⟩ := Params.sizes_of_wf hp
  refine ⟨fun i hi => ?_, onlySampleBytes_mirror hmem hm.le⟩
  rw [getF_eq_getElem (by omega)]
  exact readWord_mirror (s := u) (hmem ▸ hw) (by omega) (by omega)

/-- Settles O42: `modeResult` and `notchResult` are the engines written out, and `processBlock_cases` says when they are kept. -/
theorem processRunsModeThenNotch : Obligations.ProcessRunsModeThenNotch := by
  intro s hs hshape hready hby hruns e u m l k w a engine q out fine
  have hm : foldBlock s.env s.left s.right = m := by
    simp only [m, foldBlock, left_eq_map_sampAt, right_eq_map_sampAt, env_p]
    cases s.cfg.fold with
    | left => rfl
    | mean => simp [List.zipWith_map, List.zipWith_self, e]
  have hmode : modeResult s = runMode s m := by rw [modeResult, hm]
  have hengine : engine = ((modeResult s).out, (modeResult s).ok) := by
    simp only [engine, hmode, runMode]
    cases s.mode <;> rfl
  have hq : s.notchEn = true → notchResult s = { st := (notchResult s).st, out := q.out, ok := q.ok } := fun hn => by
    rw [notchResult_of_on hn]
    simp only [q, hengine]
    rfl
  have hout : (notchResult s).out = out := by
    cases hn : s.notchEn with
    | false => simp [out, hn, notchResult_of_off hn, hengine]
    | true => rw [hq hn]; simp [out, hn]
  have hfine : fine ↔ (modeResult s).ok = true ∧ (notchResult s).ok = true ∧ allFinite (notchResult s).out = true := by
    rw [hout, allFinite, List.all_eq_true]
    cases hn : s.notchEn with
    | false => simp [fine, hn, notchResult_of_off hn, hengine]
    | true => rw [hq hn]; simp [fine, hn, hengine]
  have hexec : exec .process s = processBlock s := execProcess_processes hready hby hruns
  rw [hfine, hexec, processBlock_eq]
  refine ⟨fun h => ⟨_, if_pos h, ?_, ?_⟩, fun h => if_neg h⟩
  · have hw := blockWritten_mirror (u := (notchResult s).st) hs (by simp [notchResult, modeResult])
      (notchResult_out_length hshape)
    rw [hout] at hw ⊢
    exact hw
  · simp only [finishMode_eq, State.finish, State.mirror, notchResult_st, hmode, runMode_st, hout]
    simp only [q, hengine, hmode]
    rfl

end Sys2Proof.Machine

/-! The state after reset (70_reset_and_hazards.md R149, O53). -/

namespace Sys2Proof

/-- A_MAX is above 50 (00_scope.md R9), so no lower reading of it is below zero. -/
theorem lt_aMax_fzero {e : Env} (hp : e.p.wf = true) : e.lt e.p.aMax fzero = false := by
  have hmax : ltF (litF 50 1) e.p.aMax = true := by
    simp only [Params.wf, firOk, Bool.and_eq_true] at hp
    tauto
  have hkey : 0 ≤ ordKey (operandF e.p.ftz e.p.aMax) := by
    rcases operandF_eq_self_or_zero e.p.ftz e.p.aMax with hq | hzero
    · have hlow : 0 ≤ ordKey (litF 50 1) := by decide
      simp only [ltF, Bool.and_eq_true, decide_eq_true_eq] at hmax
      rw [hq]
      exact hlow.trans hmax.2.le
    · exact (ordKey_of_isZero hzero).ge
  rw [Env.lt, operandF_fzero, ltF, ordKey_fzero, decide_eq_false hkey.not_gt, Bool.and_false]

theorem Env.lt_irrefl (e : Env) (x : F32) : e.lt x x = false := by simp [Env.lt, ltF]

end Sys2Proof

namespace Sys2Proof.Machine

/-- No byte of an empty window's sample buffers is written (10_state.md R34). -/
theorem readWord_nil_sample {a : Nat} (hlo : 0x1000 ≤ a) (hhi : a < 0x3000) : Memory.readWord [] a = none := by
  have hbyte : Memory.readByte [] a = none := if_pos ⟨hlo, hhi⟩
  rw [Memory.readWord, hbyte]

/-! ### The design commands on operands of +0.0 (R75, R88) -/

/-- What the check of an operand that was never written comes to. -/
def OperandFails (o : Option ErrCode) : Prop := o = some .unset ∨ o = some .range

/-- A check before it can only answer RANGE. -/
theorem OperandFails.after {c : Prop} [Decidable c] {o : Option ErrCode} (h : OperandFails o) :
    OperandFails (if c then some .range else o) := by
  split_ifs
  · exact .inr rfl
  · exact h

section
variable (e : Env) (n : Nat)

theorem checkWsLp_resetArgs : OperandFails (checkWsLp e resetArgs n) := by
  rw [checkWsLp_eq]
  exact .after (.inl (if_pos rfl))

theorem checkWsHp_resetArgs : OperandFails (checkWsHp e resetArgs n) := by
  rw [checkWsHp_eq]
  exact .after (.after (.inl (if_pos rfl)))

theorem checkWsBand_resetArgs : OperandFails (checkWsBand e resetArgs n) := by
  rw [checkWsBand_eq]
  exact .after (.after (.inl (if_pos (.inl rfl))))

theorem checkKaiserLp_resetArgs : OperandFails (checkKaiserLp e resetArgs n) := by
  rw [checkKaiserLp_eq]
  exact .after (.after (.inl (if_pos rfl)))

theorem checkKaiserHp_resetArgs : OperandFails (checkKaiserHp e resetArgs n) := by
  rw [checkKaiserHp_eq]
  exact .after (.after (.after (.inl (if_pos rfl))))

theorem checkKaiserBp_resetArgs : OperandFails (checkKaiserBp e resetArgs n) := by
  rw [checkKaiserBp_eq]
  exact .after (.after (.inl (if_pos rfl)))

theorem checkKaiserBs_resetArgs : OperandFails (checkKaiserBs e resetArgs n) := by
  rw [checkKaiserBs_eq]
  exact .after (.after (.after (.inl (if_pos rfl))))

end

theorem OperandFails.stops {check : Option ErrCode} (hc : OperandFails check) (s : State) (taps : List F32) (n : Nat) :
    ∃ c, (c = .unset ∨ c = .range) ∧ (Host.Outcome.next (s.design check taps n) : Host.Outcome State Fault Refusal)
      = .next { s with err := c, busy := false } := by
  rcases hc with rfl | rfl
  · exact ⟨.unset, .inl rfl, rfl⟩
  · exact ⟨.range, .inr rfl, rfl⟩

/-- A design command whose operands hold their reset values fails, but for KAISER.HILBERT, which reads no frequency. -/
theorem exec_designCommand_resetArgs {i : Instr} (hi : DesignCommand i) (hne : ∀ n, i ≠ .kaiserHilbert n) {s : State}
    (hs : s.snap.args = resetArgs) :
    ∃ c, (c = .unset ∨ c = .range) ∧ exec i s = .next { s with err := c, busy := false } := by
  cases i with
  | wsfirLp _ n => exact OperandFails.stops (hs ▸ checkWsLp_resetArgs s.env n) s _ n
  | wsfirHp _ n => exact OperandFails.stops (hs ▸ checkWsHp_resetArgs s.env n) s _ n
  | wsfirBp _ n | wsfirBs _ n => exact OperandFails.stops (hs ▸ checkWsBand_resetArgs s.env n) s _ n
  | kaiserLp n => exact OperandFails.stops (hs ▸ checkKaiserLp_resetArgs s.env n) s _ n
  | kaiserHp n => exact OperandFails.stops (hs ▸ checkKaiserHp_resetArgs s.env n) s _ n
  | kaiserBp n => exact OperandFails.stops (hs ▸ checkKaiserBp_resetArgs s.env n) s _ n
  | kaiserBs n => exact OperandFails.stops (hs ▸ checkKaiserBs_resetArgs s.env n) s _ n
  | kaiserHilbert n => exact absurd rfl (hne n)
  | nop | gainQuery | gainScale | modeSelect | notchOff | notchOn | process => exact hi.elim

/-- An attenuation of +0.0 is legal (R88 step 3, log 30). -/
theorem stopbandOk_fzero {e : Env} (hp : e.p.wf = true) : StopbandOk e fzero :=
  ⟨by decide, e.lt_irrefl fzero, lt_aMax_fzero hp⟩

/-- Settles O53: the fields by definition, the window as an empty list, and the commands by their checks on +0.0. -/
theorem resetState : Obligations.ResetState := by
  intro p hp s
  obtain ⟨-, hB, -⟩ := Params.sizes_of_wf hp
  refine ⟨rfl, rfl, rfl, rfl, rfl, rfl, rfl, rfl, fun r => by cases r <;> rfl, rfl, Params.legalTune_rst hp,
    fun n _ => ⟨readWord_nil (by unfold hcoefBase; omega), readWord_nil (by unfold qcoefBase; omega)⟩,
    fun i hi => ⟨readWord_nil_sample (by unfold sampLBase; omega) (by unfold sampLBase; omega),
      readWord_nil_sample (by unfold sampRBase; omega) (by unfold sampRBase; omega)⟩,
    (step_nil s rfl).trans (coreMove_idle _ s rfl),
    fun i w hi hne => exec_designCommand_resetArgs hi hne (s := s.accept w) rfl, fun w => ?_, fun n w hn hmod => ?_⟩
  · obtain ⟨hquery, hscale⟩ := gainChecksInOrder (s.accept w)
    exact ⟨hquery (.inl rfl), hscale (.inl rfl)⟩
  · have hs : LegalMachine (s.accept w) := ⟨hp, Memory.wf_nil⟩
    obtain ⟨t, he, -, -, -, -, ht⟩ := kaiserHilbertDesigns (s.accept w) n hs (by omega) hn hmod
      (stopbandOk_fzero (e := (s.accept w).env) hp)
    exact ⟨t, he, by rw [ht], by rw [ht]⟩

end Sys2Proof.Machine

/-! The analysis band (47_frame_engine.md R118, R119, O50). -/

namespace Sys2Proof

theorem Params.band_of_wf {p : Params} (h : p.wf = true) : 2 ≤ p.blk ∧ 0 < p.fs ∧ p.fLo < p.fHi := by
  simp only [Params.wf, sizesOk, spectralOk, Bool.and_eq_true, decide_eq_true_eq] at h
  tauto

/-- The clamped bin of a frequency as an integer. -/
theorem coe_bandBin {p : Params} (h : 2 ≤ p.blk) (f : Rat) :
    (bandBin p f : Int) = min (max ⌊f * (nfft p : Rat) / p.fs + 1 / 2⌋ 1) ((nfft p : Int) / 2 - 1) := by
  have hhalf : (nfft p : Int) / 2 = p.blk := by unfold nfft; omega
  rw [hhalf]
  exact Int.toNat_of_nonneg (by omega)

theorem bandBin_bounds {p : Params} (h : 2 ≤ p.blk) (f : Rat) : 1 ≤ bandBin p f ∧ bandBin p f ≤ p.blk - 1 := by
  have hcoe := coe_bandBin h f
  have hhalf : (nfft p : Int) / 2 = p.blk := by unfold nfft; omega
  rw [hhalf] at hcoe
  omega

/-- A higher frequency is not in a lower bin. -/
theorem bandBin_mono {p : Params} (h : 2 ≤ p.blk) (hfs : 0 < p.fs) {f f' : Rat} (hle : f ≤ f') :
    bandBin p f ≤ bandBin p f' := by
  have hfloor : ⌊f * (nfft p : Rat) / p.fs + 1 / 2⌋ ≤ ⌊f' * (nfft p : Rat) / p.fs + 1 / 2⌋ := by
    gcongr
  have hcoe := coe_bandBin h f
  have hcoe' := coe_bandBin h f'
  omega

end Sys2Proof

namespace Sys2Proof.Machine

/-- A bin outside the band whose mirror image is outside too passes the gain stage (R121). -/
theorem applyGain_outside {e : Env} {n : Nat} (hn : n < kLo e.p ∨ kHi e.p < n)
    (hmirror : nfft e.p - n < kLo e.p ∨ kHi e.p < nfft e.p - n) (g : List F32) (c : Cplx) : applyGain e g n c = c := by
  rw [applyGain, if_neg (by omega), if_neg (by omega)]

/-- Settles O50: the clamp keeps both bins off DC and Nyquist, the rounding is monotone, and those two indices are their own
mirror images or lie past the band. -/
theorem bandLiesInsideTheSpectrum : Obligations.BandLiesInsideTheSpectrum := by
  intro p hp
  obtain ⟨hB, hfs, hf⟩ := Params.band_of_wf hp
  have hnfft : nfft p = 2 * p.blk := rfl
  have hlo : 1 ≤ kLo p ∧ kLo p ≤ p.blk - 1 := bandBin_bounds hB p.fLo
  have hhi : 1 ≤ kHi p ∧ kHi p ≤ p.blk - 1 := bandBin_bounds hB p.fHi
  refine ⟨rfl, coe_bandBin hB _, coe_bandBin hB _, hlo.1, bandBin_mono hB hfs hf.le, by omega, fun f g c => ⟨?_, ?_⟩⟩
  · exact applyGain_outside (.inl (by change 0 < kLo p; omega)) (.inr (by change kHi p < nfft p - 0; omega)) g c
  · exact applyGain_outside (.inr (by change kHi p < nfft p / 2; omega))
      (.inr (by change kHi p < nfft p - nfft p / 2; omega)) g c

end Sys2Proof.Machine

/-! Magnitudes below a power of two (00_scope.md R17): what keeps the windows, the gains and the filter histories of a silent
frame finite. -/

namespace Sys2Proof

/-- At most 2^k in magnitude; for k up to 127 the value is then finite. -/
def AtMostPow (k : Nat) (x : F32) : Prop := fbits x ≤ (127 + k) * 2 ^ 23

section
variable {k : Nat} {x : F32} (h : AtMostPow k x)
include h

theorem AtMostPow.isFinite (hk : k < 128 := by decide) : isFinite x = true := by
  rw [isFinite_iff]
  unfold AtMostPow at h
  omega

theorem AtMostPow.mono {k' : Nat} (hk : k ≤ k') : AtMostPow k' x :=
  h.trans (Nat.mul_le_mul_right _ (Nat.add_le_add_left hk 127))

theorem AtMostPow.fmag_le : fmag x ≤ 2 ^ (149 + k) := by
  have hpow : bitsMag ((126 + k) * 2 ^ 23 + 2 ^ 23) = 2 ^ 23 * 2 ^ (126 + k) := bitsMag_step (by norm_num) (.inr le_rfl)
  rw [fmag_eq_bitsMag, show 149 + k = 23 + (126 + k) by omega, pow_add, ← hpow]
  refine bitsMag_strictMono.monotone (h.trans ?_)
  omega

theorem AtMostPow.neg : AtMostPow k (fneg x) := by rwa [AtMostPow, fbits_fneg]

theorem AtMostPow.flushed (ftz : Bool) : AtMostPow k (operandF ftz x) := by
  rcases operandF_eq_self_or_zero ftz x with hq | hzero
  · rwa [hq]
  · rw [AtMostPow, (isZero_iff _).1 hzero]
    exact Nat.zero_le _

end

theorem atMostPow_of_isZero (k : Nat) {x : F32} (h : isZero x = true) : AtMostPow k x := by
  rw [AtMostPow, (isZero_iff x).1 h]
  exact Nat.zero_le _

theorem natAbs_ordKey (x : F32) : (ordKey x).natAbs = fbits x := by
  unfold ordKey
  split_ifs <;> simp

/-- A value of [-1, 1]. -/
theorem atMostPow_of_inUnit {x : F32} (h : inUnit x = true) : AtMostPow 0 x := by
  have hends : ordKey 0xBF800000 = -0x3F800000 ∧ ordKey fone = 0x3F800000 := by decide
  simp only [inUnit, leF, Bool.and_eq_true, decide_eq_true_eq, hends] at h
  obtain ⟨⟨-, hlo⟩, -, hhi⟩ := h
  rw [AtMostPow, ← natAbs_ordKey]
  omega

theorem atMostPow_of_mem_unit {x : F32} (hlo : leF fzero x = true) (hhi : leF x fone = true) : AtMostPow 0 x := by
  have hone : ordKey fone = 0x3F800000 := by decide
  obtain ⟨-, hkey⟩ := (leF_fzero_iff x).1 hlo
  simp only [leF, Bool.and_eq_true, decide_eq_true_eq, hone] at hhi
  rw [AtMostPow, ← natAbs_ordKey]
  omega

/-! ### Narrowing -/

/-- 2^k is a binary32 value, and narrowing is monotone. -/
theorem roundBits_le_pow {n d k : Nat} (hd : 0 < d) (h : n ≤ 2 ^ (149 + k) * d) : roundBits n d ≤ (127 + k) * 2 ^ 23 := by
  have hscale := roundBits_mul_right (2 ^ (149 + k)) 1 hd
  have hlog : Nat.log2 (2 ^ 23 * 2 ^ (126 + k)) - 23 = 126 + k := by
    rw [← pow_add, Nat.log2_two_pow]
    omega
  have hpow := roundBits_exact hlog
  rw [← pow_add, show 23 + (126 + k) = 149 + k by omega] at hpow
  rw [one_mul, hpow] at hscale
  have hmono := roundBits_mono (d := d) h
  omega

theorem atMostPow_roundF (ftz neg : Bool) {n d k : Nat} (hd : 0 < d) (h : n ≤ 2 ^ (149 + k) * d) :
    AtMostPow k (roundF ftz neg n d) := by
  rw [AtMostPow, fbits_roundF]
  exact flushBits_le ftz (roundBits_le_pow hd h)

theorem atMostPow_natF {i k : Nat} (h : i ≤ 2 ^ k) : AtMostPow k (natF i) := by
  refine atMostPow_roundF false false one_pos ?_
  rw [mul_one, pow_add, mul_comm]
  exact Nat.mul_le_mul_left _ h

/-! ### The operations -/

section
variable (e : Env) {a b : F32} {j k : Nat}

theorem AtMostPow.add (ha : AtMostPow k a) (hb : AtMostPow k b) (hk : k < 128 := by decide) :
    AtMostPow (k + 1) (e.add a b) := by
  have hqa := ha.flushed e.p.ftz
  have hqb := hb.flushed e.p.ftz
  rw [Env.add, addCore_finite e _ (hqa.isFinite hk) (hqb.isFinite hk), sumFinite]
  split_ifs
  · exact atMostPow_of_isZero _ ((isZero_iff _).2 (fbits_packF _ (by norm_num)))
  · have hua := natAbs_units (operandF e.p.ftz a)
    have hub := natAbs_units (operandF e.p.ftz b)
    have hma := hqa.fmag_le
    have hmb := hqb.fmag_le
    refine atMostPow_roundF _ _ one_pos ?_
    rw [← add_assoc, pow_succ]
    omega

theorem AtMostPow.sub (ha : AtMostPow k a) (hb : AtMostPow k b) (hk : k < 128 := by decide) :
    AtMostPow (k + 1) (e.sub a b) := by
  rw [e.sub_eq_add_fneg (ha.isFinite hk) (hb.isFinite hk)]
  exact ha.add e hb.neg hk

theorem AtMostPow.mul (ha : AtMostPow j a) (hb : AtMostPow k b) (hj : j < 128 := by decide) (hk : k < 128 := by decide) :
    AtMostPow (j + k) (e.mul a b) := by
  have hqa := ha.flushed e.p.ftz
  have hqb := hb.flushed e.p.ftz
  rw [Env.mul, mulCore_finite e (hqa.isFinite hj) (hqb.isFinite hk)]
  refine atMostPow_roundF _ _ (by positivity) ((Nat.mul_le_mul hqa.fmag_le hqb.fmag_le).trans_eq ?_)
  rw [← pow_add, ← pow_add]
  congr 1
  omega

/-- A divisor of at least one in magnitude. -/
theorem AtMostPow.div_natF (ha : AtMostPow k a) {i : Nat} (hpos : 0 < i) (hi : i < 2 ^ 24) (hk : k < 128 := by decide) :
    AtMostPow k (e.div a (natF i)) := by
  have hqa := ha.flushed e.p.ftz
  rw [Env.div, operandF_natF hi, divCore_finite e (hqa.isFinite hk) (isFinite_natF hi) (isZero_natF hi hpos.ne'),
    fmag_natF hi]
  exact atMostPow_roundF _ _ (by positivity) (Nat.mul_le_mul hqa.fmag_le (Nat.le_mul_of_pos_left _ hpos))

/-- One minus a value of [-1, 1] is not negative. -/
theorem fsign_fone_sub (hb : AtMostPow 0 b) : fsign (e.sub fone b) = false := by
  have hq := hb.flushed e.p.ftz
  have hmag : fmag (operandF e.p.ftz b) ≤ 2 ^ 149 := hq.fmag_le
  have hunits := natAbs_units (operandF e.p.ftz b)
  have hone : units fone = 2 ^ 149 ∧ fsign fone = false := by decide
  rw [Env.sub, operandF_fone, addCore_finite e _ (by decide) (by rw [isFinite_fneg, hq.isFinite]), sumFinite]
  simp only [units_fneg, hone, Bool.false_and]
  split_ifs
  · exact fsign_packF _ (by norm_num)
  · rw [fsign_roundF]
    exact decide_eq_false (by omega)

end

/-! ### Integers of any size as divisors -/

/-- An integer above zero rounds to a normal number or +inf, so FTZ leaves it. -/
theorem natF_pos {i : Nat} (h : 0 < i) (ftz : Bool) : operandF ftz (natF i) = natF i ∧ isZero (natF i) = false := by
  have hone : roundBits (1 * 2 ^ 149) 1 = 0x3F800000 := by decide
  have hbits : 0x3F800000 ≤ fbits (natF i) := by
    rw [natF, fbits_roundF, flushBits_false, ← hone]
    exact roundBits_mono (Nat.mul_le_mul_right _ h)
  have hsub : isSubnormal (natF i) = false := by
    rw [Bool.eq_false_iff, Ne, isSubnormal_iff]
    omega
  constructor
  · simp [operandF, hsub]
  · rw [Bool.eq_false_iff, Ne, isZero_iff]
    omega

/-- +0.0 over an integer above zero, also one past the largest finite value. -/
theorem Env.fzero_div_natF (e : Env) {i : Nat} (h : 0 < i) : e.div fzero (natF i) = fzero := by
  obtain ⟨hq, hz⟩ := natF_pos h e.p.ftz
  have hzero : isNaN fzero = false ∧ isInf fzero = false ∧ fsign fzero = false ∧ fmag fzero = 0 := by decide
  have hnan : isNaN (natF i) = false := isNaN_roundF ..
  simp only [Env.div, hq, operandF_fzero, divCore, hzero, hnan, hz, fsign_natF, zero_mul, roundF, roundBits_zero, flushBits_zero,
    bne_self_eq_false, Bool.or_self, Bool.false_eq_true, if_false]
  split_ifs <;> rfl

theorem Env.add_fzero_of_isZero (e : Env) {x : F32} (h : isZero x = true) : e.add x fzero = fzero := by
  have hq := isFinite_operandF e.p.ftz (isFinite_of_isZero h)
  rw [Env.add, addCore_comm_of_finite e _ .add (not_isNaN_of_isFinite hq) (isFinite_operandF _ (by decide))]
  exact e.fzero_add_of_isZero h

/-- The square of a zero is +0.0. -/
theorem Env.mul_self_of_isZero (e : Env) {x : F32} (h : isZero x = true) : e.mul x x = fzero := by
  have hq := isZero_operandF e.p.ftz h
  rw [e.mul_self (not_isNaN_of_isFinite (isFinite_of_isZero h)), not_isInf_of_isFinite (isFinite_of_isZero hq),
    (fmag_eq_zero_iff _).2 hq, zero_mul, roundF, roundBits_zero, flushBits_zero]
  rfl

end Sys2Proof

/-! Silence through a fresh spectral mode (47_frame_engine.md R121, O52): the windows are finite, so the transforms get and give
zeros, and the overlap-add of zeros on +0.0 is +0.0. -/

namespace Sys2Proof

theorem Env.fsign_mul (e : Env) {a b : F32} (ha : isFinite a = true) (hb : isFinite b = true) :
    fsign (e.mul a b) = (fsign a != fsign b) := by
  rw [Env.mul, mulCore_finite e (isFinite_operandF _ ha) (isFinite_operandF _ hb), fsign_roundF, fsign_operandF, fsign_operandF]

end Sys2Proof

namespace Sys2Proof.Machine

/-! ### The windows (R120) -/

section
variable {s : State} (hp : s.cfg.wf = true) {n : Nat} (hn : n < 2 * s.cfg.blk)
include hp hn

theorem inUnit_hannCos : inUnit (s.env.f.cosf (s.env.div (s.env.mul (twoPi s.env) (natF n)) (natF (nfft s.cfg)))) = true := by
  obtain ⟨hB, hB', -⟩ := Params.sizes_of_wf hp
  have htwoPi : AtMostPow 3 (twoPi s.env) :=
    AtMostPow.mul s.env (j := 1) (k := 2) (a := ftwo) (b := pi32) (by unfold AtMostPow; decide) (by unfold AtMostPow; decide)
  have hangle := htwoPi.mul s.env (atMostPow_natF (i := n) (k := 11) (by omega))
  have hratio := hangle.div_natF s.env (i := nfft s.cfg) (by unfold nfft; omega) (by unfold nfft; omega)
  exact inUnit_unitFn _ hratio.isFinite

/-- HANN is finite and not negative. -/
theorem hannTap_finite : isFinite (hannTap s.env n) = true ∧ fsign (hannTap s.env n) = false := by
  have hcos := atMostPow_of_inUnit (inUnit_hannCos hp hn)
  have hhalf : AtMostPow 0 fhalf ∧ fsign fhalf = false := by unfold AtMostPow; decide
  have hdiff := AtMostPow.sub s.env (a := fone) (by unfold AtMostPow; decide) hcos
  have hdiffSign := fsign_fone_sub s.env hcos
  have htap := hhalf.1.mul s.env hdiff
  have hsign := s.env.fsign_mul hhalf.1.isFinite hdiff.isFinite
  rw [hhalf.2, hdiffSign] at hsign
  exact ⟨htap.isFinite, hsign⟩

theorem isFinite_rhannTap : isFinite (rhannTap s.env n) = true := by
  obtain ⟨hfin, hsign⟩ := hannTap_finite hp hn
  exact s.env.isFinite_sqrt hfin hsign

end

/-! ### Vectors of zeros -/

/-- Every part of every value is a zero, of either sign. -/
def SilentVector (z : List Cplx) : Prop := ∀ c ∈ z, isZero c.re = true ∧ isZero c.im = true

theorem SilentVector.getD {z : List Cplx} (h : SilentVector z) (n : Nat) :
    isZero (z.getD n ⟨fzero, fzero⟩).re = true ∧ isZero (z.getD n ⟨fzero, fzero⟩).im = true := by
  by_cases hn : n < z.length
  · rw [List.getD_eq_getElem _ _ hn]
    exact h _ (List.getElem_mem hn)
  · rw [List.getD_eq_default _ _ (by omega)]
    decide

theorem SilentVector.mapIdx {z : List Cplx} (h : SilentVector z) {f : Nat → Cplx → Cplx}
    (hf : ∀ n c, isZero c.re = true → isZero c.im = true → isZero (f n c).re = true ∧ isZero (f n c).im = true) :
    SilentVector (z.mapIdx f) := by
  intro c hc
  obtain ⟨n, hn, rfl⟩ := List.mem_mapIdx.1 hc
  obtain ⟨hre, him⟩ := h _ (List.getElem_mem hn)
  exact hf n _ hre him

theorem SilentVector.fft {s : State} {z : List Cplx} (h : SilentVector z) : SilentVector (s.env.f.fft z) :=
  transformFn_zeros _ h

theorem SilentVector.ifft {s : State} {z : List Cplx} (h : SilentVector z) : SilentVector (s.env.f.ifft z) :=
  transformFn_zeros _ h

/-- A silent frame under finite windows. -/
theorem silentVector_windowedFrame (e : Env) {wa : Nat → F32} {k : Nat} (hwa : ∀ n, n < 2 * k → isFinite (wa n) = true) :
    SilentVector (windowedFrame e wa (zeros k) (zeros k)) := by
  intro c hc
  rw [windowedFrame, zeros_append] at hc
  obtain ⟨n, hn, rfl⟩ := List.mem_mapIdx.1 hc
  rw [zeros_length] at hn
  refine ⟨?_, rfl⟩
  simp only [zeros, List.getElem_replicate]
  exact e.isZero_mul (by decide) (hwa n (by omega)) (.inl (by decide))

/-- The powers of a silent transform (45_spectral_kim.md R105). -/
theorem SilentVector.bandPowers_eq (e : Env) {z : List Cplx} (h : SilentVector z) : bandPowers e z = zeros (bandLen e.p) := by
  rw [zeros, List.eq_replicate_iff, bandPowers_length]
  refine ⟨rfl, fun p hp => ?_⟩
  obtain ⟨j, -, rfl⟩ := List.mem_map.1 hp
  obtain ⟨hre, him⟩ := h.getD (kLo e.p + j)
  rw [binPower, e.mul_self_of_isZero hre, e.mul_self_of_isZero him, e.fzero_add_of_isZero (by decide)]

theorem isFinite_getF {l : List F32} (h : ∀ v ∈ l, isFinite v = true) (n : Nat) : isFinite (getF l n) = true := by
  by_cases hn : n < l.length
  · rw [getF_eq_getElem hn]
    exact h _ (List.getElem_mem hn)
  · rw [getF_of_length_le (by omega)]
    decide

/-- Finite gains leave silence. -/
theorem SilentVector.mapIdx_applyGain (e : Env) {z : List Cplx} (h : SilentVector z) {g : List F32}
    (hg : ∀ v ∈ g, isFinite v = true) : SilentVector (z.mapIdx (applyGain e g)) := by
  refine h.mapIdx fun n c hre him => ?_
  have hscale : ∀ k, isZero (e.mul c.re (getF g k)) = true ∧ isZero (e.mul c.im (getF g k)) = true := fun k =>
    ⟨e.isZero_mul (isFinite_of_isZero hre) (isFinite_getF hg k) (.inl hre),
      e.isZero_mul (isFinite_of_isZero him) (isFinite_getF hg k) (.inl him)⟩
  unfold applyGain
  split_ifs
  · exact hscale _
  · exact hscale _
  · exact ⟨hre, him⟩

/-! ### Overlap-add (R121) -/

/-- Zeros on a fresh frame state give silence, and the frame is counted. -/
theorem overlapAdd_silent {e : Env} (warmup : Nat) {vr : List F32} (hlen : vr.length = 2 * e.p.blk)
    (hvr : ∀ v ∈ vr, isZero v = true) :
    let o := overlapAdd e warmup { fin := zeros e.p.blk, fout := zeros e.p.blk, cnt := 0 } (zeros e.p.blk) vr
    o.out = zeros e.p.blk ∧ o.ok = true ∧ o.st.cnt = 1 := by
  refine ⟨?_, ?_, ?_⟩
  · rw [zeros, List.eq_replicate_iff]
    refine ⟨overlapAdd_out_length warmup _ (zeros_length _) hlen, fun v hv => ?_⟩
    obtain ⟨i, hi, rfl⟩ := List.getElem_of_mem hv
    simp only [overlapAdd, List.getElem_zipWith, List.getElem_replicate]
    exact e.add_fzero_of_isZero (hvr _ (List.mem_of_mem_take (List.getElem_mem _)))
  · have htail : allFinite (vr.drop e.p.blk) = true := by
      rw [allFinite, List.all_eq_true]
      exact fun v hv => isFinite_of_isZero (hvr v (List.mem_of_mem_drop hv))
    simp only [overlapAdd, allFinite_zeros, htail, Bool.and_self]
  · exact Nat.min_eq_left (Nat.le_max_right warmup 1)

end Sys2Proof.Machine

/-! The fresh gain stages on a silent frame (45_spectral_kim.md R106 to R110, 46_spectral_mmse.md R112, R117), and the frames
themselves (O52). -/

namespace Sys2Proof

theorem Params.mmseWarmup_of_wf {p : Params} (h : p.wf = true) : 1 ≤ p.mmseWarmup := by
  simp only [Params.wf, spectralOk, Bool.and_eq_true, decide_eq_true_eq] at h
  tauto

theorem atMostPow_of_legalF_fone {x : F32} (h : legalF fzero fone x = true) : AtMostPow 0 x := by
  obtain ⟨-, hlo, hhi, -⟩ := (legalF_iff _ _ _).1 h
  exact atMostPow_of_mem_unit hlo hhi

theorem leF_fone_of_leF_fhalf {x : F32} (h : leF x fhalf = true) : leF x fone = true := by
  have hone : isNaN fone = false ∧ ordKey fhalf ≤ ordKey fone := by decide
  obtain ⟨hnum, hle⟩ := hone
  simp only [leF, Bool.and_eq_true, Bool.not_eq_true', decide_eq_true_eq] at h ⊢
  obtain ⟨⟨hx, -⟩, hkey⟩ := h
  exact ⟨⟨hx, hnum⟩, hkey.trans hle⟩

theorem atMostPow_of_legalF_fhalf {x : F32} (h : legalF fzero fhalf x = true) : AtMostPow 0 x := by
  obtain ⟨-, hlo, hhi, -⟩ := (legalF_iff _ _ _).1 h
  exact atMostPow_of_mem_unit hlo (leF_fone_of_leF_fhalf hhi)

end Sys2Proof

namespace Sys2Proof.Machine

/-! ### KIM -/

theorem set_zeros (n i : Nat) : (zeros n).set i fzero = zeros n := by
  rw [zeros, List.eq_replicate_iff, List.length_set, List.length_replicate]
  exact ⟨rfl, fun v hv => (List.mem_or_eq_of_mem_set hv).elim List.eq_of_mem_replicate id⟩

theorem minF_zeros (e : Env) (n : Nat) : minF e (zeros n) = fzero := by
  cases n with
  | zero => rfl
  | succ n =>
    rw [zeros_succ]
    exact List.foldlRecOn (motive := (· = fzero)) (zeros n) e.min rfl fun acc hacc v hv => by
      rw [hacc, List.eq_of_mem_replicate hv]
      rfl

/-- A fresh bin in a silent frame: its histories stay +0.0, and its gain is a part of a raw gain of [0, 1]. -/
theorem kimBinStep_silent {e : Env} (hp : e.p.wf = true) {t : TuneRegs} (ht : legalTune e.p t = true) :
    ∃ g, AtMostPow 2 g ∧ kimBinStep e t 0 0 { x := zeros e.p.kimL, e := zeros e.p.kimN, gts := fzero } fzero
      = { x := zeros e.p.kimL, e := zeros e.p.kimN, gts := g } := by
  obtain ⟨hL, -⟩ := Params.spectral_of_wf hp
  have hzero : leF fzero fzero = true := by decide
  obtain ⟨-, hlo, hhi⟩ := kimGainInUnitInterval e t fzero fzero fzero hp ht hzero hzero hzero
  have halpha : AtMostPow 0 t.alpha := atMostPow_of_legalF_fone ((legalTune_iff e.p t).1 ht .alpha)
  have hkept := halpha.mul e (atMostPow_of_isZero 1 (x := fzero) rfl)
  have hone : AtMostPow 0 fone := by unfold AtMostPow; decide
  have hnew := (hone.sub e halpha).mul e (atMostPow_of_mem_unit hlo hhi)
  refine ⟨_, hkept.add e hnew, ?_⟩
  have haverage : e.div (e.sum (zeros e.p.kimL)) (natF e.p.kimL) = fzero := by
    rw [zeros, e.sum_replicate_fzero, e.fzero_div_natF hL]
  simp only [kimBinStep, set_zeros, haverage, minF_zeros]

/-- Smoothing over the band keeps bounded gains bounded (R109). -/
theorem freqSmooth_bound {e : Env} {beta : F32} (hbeta : AtMostPow 0 beta) {g : List F32}
    (hg : ∀ v ∈ g, AtMostPow 2 v) : ∀ v ∈ freqSmooth e beta g, AtMostPow 6 v := by
  have hget : ∀ j, AtMostPow 2 (getF g j) := fun j => by
    by_cases hj : j < g.length
    · rw [getF_eq_getElem hj]
      exact hg _ (List.getElem_mem hj)
    · rw [getF_of_length_le (by omega)]
      exact atMostPow_of_isZero 2 rfl
  have hone : AtMostPow 0 fone ∧ AtMostPow 1 ftwo := by unfold AtMostPow; decide
  have hside : ∀ j, AtMostPow 4 (e.mul beta (getF g j)) := fun j => (hbeta.mul e (hget j)).mono (by decide)
  have hedge : ∀ j, AtMostPow 4 (e.mul (e.sub fone beta) (getF g j)) := fun j =>
    ((hone.1.sub e hbeta).mul e (hget j)).mono (by decide)
  have hdouble : AtMostPow 1 (e.mul ftwo beta) := (hone.2.mul e hbeta).mono (by decide)
  have hcentre : ∀ j, AtMostPow 4 (e.mul (e.sub fone (e.mul ftwo beta)) (getF g j)) := fun j =>
    (((hone.1.mono (by decide)).sub e hdouble).mul e (hget j)).mono (by decide)
  intro v hv
  obtain ⟨j, -, rfl⟩ := List.mem_map.1 hv
  split_ifs
  · exact (hget 0).mono (by decide)
  · exact ((hedge 0).add e (hside 1)).mono (by decide)
  · exact ((hside _).add e (hedge _)).mono (by decide)
  · exact ((hside _).add e (hcentre _)).add e ((hside _).mono (by decide))

/-- Every bin of a fresh KIM mode takes a silent frame alike. -/
theorem kimGains_silent_eq {e : Env} (hp : e.p.wf = true) {t : TuneRegs} (ht : legalTune e.p t = true) (warm : Bool) :
    ∃ g, AtMostPow 2 g ∧ kimGains e t (kimInit e.p) (zeros (bandLen e.p)) warm =
      { bins := List.replicate (bandLen e.p) { x := zeros e.p.kimL, e := zeros e.p.kimN, gts := g }
        gains := if warm then List.replicate (bandLen e.p) fone
          else freqSmooth e t.beta (List.replicate (bandLen e.p) g)
        ok := true } := by
  obtain ⟨g, hg, hbin⟩ := kimBinStep_silent hp ht
  have hhist : ∀ n, isFinite (getF (zeros n) 0) = true := fun n =>
    isFinite_getF (fun v hv => by rw [List.eq_of_mem_replicate hv]; rfl) 0
  have hfin : kimBinFinite 0 0 { x := zeros e.p.kimL, e := zeros e.p.kimN, gts := g } = true := by
    simp only [kimBinFinite, hhist, hg.isFinite, Bool.and_self]
  have hbins : List.zipWith (kimBinStep e t 0 0) (kimInit e.p).bins (zeros (bandLen e.p))
      = List.replicate (bandLen e.p) { x := zeros e.p.kimL, e := zeros e.p.kimN, gts := g } := by
    rw [← hbin]
    exact List.zipWith_replicate'
  refine ⟨g, hg, ?_⟩
  rw [kimGains, show (kimInit e.p).xi = 0 from rfl, show (kimInit e.p).ei = 0 from rfl, hbins]
  simp [hfin]

/-- The gains of a fresh KIM mode on a silent frame are finite, in warm-up or not (R110). -/
theorem kimGains_silent {e : Env} (hp : e.p.wf = true) {t : TuneRegs} (ht : legalTune e.p t = true) (warm : Bool) :
    (∀ v ∈ (kimGains e t (kimInit e.p) (zeros (bandLen e.p)) warm).gains, isFinite v = true)
      ∧ (kimGains e t (kimInit e.p) (zeros (bandLen e.p)) warm).ok = true := by
  obtain ⟨g, hg, heq⟩ := kimGains_silent_eq hp ht warm
  rw [heq]
  refine ⟨fun v hv => ?_, rfl⟩
  cases warm with
  | true =>
    rw [List.eq_of_mem_replicate hv]
    rfl
  | false =>
    have hbeta : AtMostPow 0 t.beta := atMostPow_of_legalF_fhalf ((legalTune_iff e.p t).1 ht .beta)
    exact (freqSmooth_bound hbeta (fun w hw => List.eq_of_mem_replicate hw ▸ hg) v hv).isFinite

/-! ### MMSE -/

/-- The first frame of a fresh MMSE mode is a warm-up frame (R112, R117). -/
theorem mmseGains_silent {e : Env} (hp : e.p.wf = true) (t : TuneRegs) {warm : Bool} (hwarm : warm = true) :
    (∀ v ∈ (mmseGains e t (mmseInit e.p) (zeros (bandLen e.p)) warm).gains, isFinite v = true)
      ∧ (mmseGains e t (mmseInit e.p) (zeros (bandLen e.p)) warm).ok = true := by
  subst hwarm
  have hnest : e.add fzero (e.div fzero (natF e.p.mmseWarmup)) = fzero := by
    rw [e.fzero_div_natF (Params.mmseWarmup_of_wf hp), e.fzero_add_of_isZero rfl]
  constructor
  · intro v hv
    rw [List.eq_of_mem_replicate hv]
    rfl
  · simp only [mmseGains, mmseInit, zeros, List.zipWith_replicate, min_self, mmseWarmBin, hnest, if_true, List.all_eq_true]
    intro b hb
    rw [List.eq_of_mem_replicate hb]
    rfl

/-! ### The frames -/

/-- Between the windows a silent frame is silence: its band powers are +0.0, and finite gains leave zeros to the inverse
transform. -/
theorem silent_spectrum (s : State) {wa : Nat → F32} (hwa : ∀ n, n < 2 * s.cfg.blk → isFinite (wa n) = true) :
    let z := s.env.f.fft (windowedFrame s.env wa (zeros s.cfg.blk) (zeros s.cfg.blk))
    bandPowers s.env z = zeros (bandLen s.cfg)
      ∧ ∀ g : List F32, (∀ v ∈ g, isFinite v = true) →
          (s.env.f.ifft (z.mapIdx (applyGain s.env g))).length = 2 * s.cfg.blk
            ∧ SilentVector (s.env.f.ifft (z.mapIdx (applyGain s.env g))) := by
  intro z
  have hz : SilentVector z := (silentVector_windowedFrame s.env hwa).fft
  refine ⟨hz.bandPowers_eq s.env, fun g hg => ⟨?_, (hz.mapIdx_applyGain s.env hg).ifft⟩⟩
  simp only [z, ifft_length, List.length_mapIdx, fft_length, windowedFrame_length, zeros_length, two_mul]

section
variable {s : State} (hp : s.cfg.wf = true)
include hp

theorem frameKim_silent {t : TuneRegs} (ht : legalTune s.cfg t = true) :
    let r := frameKim s.env t (kimInit s.cfg) (zeros s.cfg.blk)
    r.out = zeros s.cfg.blk ∧ r.ok = true ∧ r.st.fe.cnt = 1 := by
  obtain ⟨hpow, htime⟩ := silent_spectrum s fun n hn => (hannTap_finite hp hn).1
  obtain ⟨hgains, hok⟩ := kimGains_silent (e := s.env) hp ht (decide (0 < s.cfg.kimWarmup))
  rw [env_p, ← hpow] at hgains hok
  obtain ⟨hlen, hv⟩ := htime _ hgains
  obtain ⟨hout, hfin, hcnt⟩ := overlapAdd_silent (e := s.env) s.cfg.kimWarmup ((List.length_map _).trans hlen)
    (List.forall_mem_map.2 fun c hc => (hv c hc).1)
  exact ⟨hout, Bool.and_eq_true_iff.2 ⟨hok, hfin⟩, hcnt⟩

/-- The synthesis window leaves silence (R121). -/
theorem isZero_synthesis {v : List Cplx} (hv : SilentVector v) (hlen : v.length = 2 * s.cfg.blk) :
    ∀ x ∈ v.mapIdx (fun n c => s.env.mul c.re (rhannTap s.env n)), isZero x = true := by
  intro x hx
  obtain ⟨n, hn, rfl⟩ := List.mem_mapIdx.1 hx
  obtain ⟨hre, -⟩ := hv _ (List.getElem_mem hn)
  exact s.env.isZero_mul (isFinite_of_isZero hre) (isFinite_rhannTap hp (hlen ▸ hn)) (.inl hre)

theorem frameMmse_silent (t : TuneRegs) :
    let r := frameMmse s.env t (mmseInit s.cfg) (zeros s.cfg.blk)
    r.out = zeros s.cfg.blk ∧ r.ok = true ∧ r.st.fe.cnt = 1 := by
  obtain ⟨hpow, htime⟩ := silent_spectrum s fun n hn => isFinite_rhannTap hp hn
  have hwarm : decide (0 < s.cfg.mmseWarmup) = true := decide_eq_true (Params.mmseWarmup_of_wf hp)
  obtain ⟨hgains, hok⟩ := mmseGains_silent (e := s.env) hp t hwarm
  rw [env_p, ← hpow] at hgains hok
  obtain ⟨hlen, hv⟩ := htime _ hgains
  obtain ⟨hout, hfin, hcnt⟩ := overlapAdd_silent (e := s.env) s.cfg.mmseWarmup (List.length_mapIdx.trans hlen)
    (isZero_synthesis hp hv hlen)
  exact ⟨hout, Bool.and_eq_true_iff.2 ⟨hok, hfin⟩, hcnt⟩

end

/-! ### PROCESS -/

/-- A silent block that the mode's engine turns into silence completes, is mirrored, and leaves what the engine left. -/
theorem exec_process_silent {s : State} (hs : LegalMachine s) (h : SilentBlock s) (hn : s.notchEn = false)
    (hby : s.mode ≠ .bypass) (hoff : s.mode.actsAsOff = false) {u : State}
    (hrun : runMode s (zeros s.cfg.blk) = { st := u, out := zeros s.cfg.blk, ok := true }) :
    ∃ t, exec .process s = .next t ∧ t.err = .ok ∧ t.kim = u.kim ∧ t.mmse = u.mmse ∧ t.cfg = s.cfg ∧ SilentBlock t := by
  obtain ⟨hp, hw⟩ := hs
  have hst : (runMode s (zeros s.cfg.blk)).st = u := congrArg BlockResult.st hrun
  have hcfg : u.cfg = s.cfg := by rw [← hst, runMode_cfg]
  have hmem : u.mem = s.mem := by rw [← hst, runMode_mem]
  have hmode : u.mode = s.mode := by rw [← hst, runMode_mode]
  have hdev : s.mode.undeveloped = false := by
    cases hm : s.mode with
    | heur1 | heur2 => rw [hm] at hoff; cases hoff
    | bypass | off | lms | kim | mmse | anr => rfl
  have hexec := h.execProcess_eq hp hby hoff
  have hfold : runMode s (foldBlock s.env s.left s.right) = { st := u, out := zeros s.cfg.blk, ok := true } := by
    rw [h.foldBlock_eq, hrun]
  rw [processBlock_of_notch_off hn hfold rfl (allFinite_zeros _), ← hcfg] at hexec
  refine ⟨_, hexec, ?_, rfl, rfl, hcfg, ?_⟩
  · rw [finishMode_err, mirror_mode, hmode, hdev]
    rfl
  · exact silentBlock_mirror_zeros (s := u) ⟨hcfg ▸ hp, hmem ▸ hw⟩

/-- Settles O52: a silent block goes through the fresh mode's frame as silence. -/
theorem spectralZeroFrame : Obligations.SpectralZeroFrame := by
  intro s hs htune hn hfresh (h : SilentBlock s)
  obtain ⟨-, hsnap⟩ := htune
  rcases hfresh with ⟨hmode, hkim⟩ | ⟨hmode, hmmse⟩
  · obtain ⟨hout, hok, hcnt⟩ := frameKim_silent hs.1 hsnap
    have hrun : runMode s (zeros s.cfg.blk)
        = { st := { s with kim := (frameKim s.env s.snap.tune (kimInit s.cfg) (zeros s.cfg.blk)).st }
            out := zeros s.cfg.blk, ok := true } := by
      rw [runMode, hmode]
      simp only [hkim, hout, hok]
    obtain ⟨t, he, herr, htkim, -, hcfg, hsilent⟩ :=
      exec_process_silent hs h hn (by simp [hmode]) (by rw [hmode]; rfl) hrun
    refine ⟨t, he, herr, fun _ => htkim ▸ hcnt, fun hm => ?_, fun i hi => hsilent i (hcfg ▸ hi)⟩
    cases hmode.symm.trans hm
  · obtain ⟨hout, hok, hcnt⟩ := frameMmse_silent hs.1 s.snap.tune
    have hrun : runMode s (zeros s.cfg.blk)
        = { st := { s with mmse := (frameMmse s.env s.snap.tune (mmseInit s.cfg) (zeros s.cfg.blk)).st }
            out := zeros s.cfg.blk, ok := true } := by
      rw [runMode, hmode]
      simp only [hmmse, hout, hok]
    obtain ⟨t, he, herr, -, htmmse, hcfg, hsilent⟩ :=
      exec_process_silent hs h hn (by simp [hmode]) (by rw [hmode]; rfl) hrun
    refine ⟨t, he, herr, fun hm => ?_, fun _ => htmmse ▸ hcnt, fun i hi => hsilent i (hcfg ▸ hi)⟩
    cases hmode.symm.trans hm

end Sys2Proof.Machine
